-- ==== Sys2Proof/Word.lean ====
section
/-! DEFINITION. The word types of the block (00_scope.md R7, R8; 20_memory.md R70): every register, lane and byte is an
unsigned integer of a fixed width. -/

namespace Sys2Proof

/-- One byte of a RAM or of a byte string (R8). -/
abbrev Byte := BitVec 8

/-- A 32-bit register, argument, command word or entry (R7, R20). -/
abbrev Word := BitVec 32

/-- A 64-bit PRNG lane, raw output or binary64 bit pattern (R7, R11, R40). -/
abbrev DWord := BitVec 64

/-- A 19-bit byte address of the host port (20_memory.md R70). -/
abbrev BusAddr := BitVec 19

/-- A 32-byte digest (00_scope.md R10). -/
abbrev Digest := Vector Byte 32

end Sys2Proof
end

