-- ==== Sys2Proof/Syntax.lean ====
section
/-! DEFINITION. The nineteen commands of the block (30_encoding.md R90, R92, R93): one constructor a row of
spec/opcode_table.json, holding the fields the command word carries. The wider operands are the latched ARG registers, so
they are state and not syntax. -/

namespace Sys2Proof

/-- A command. `m` is MODE[0] and `b` is IMM16[7:0] of format C (R90). -/
inductive Instr where
  /-- NOP (R113). -/
  | nop
  /-- CRC_INIT (R133). -/
  | crcInit
  /-- CRC_BYTE b (R134). -/
  | crcByte (b : BitVec 8)
  /-- CRC_BUF: `m` selects MSG_RAM (0) or SEED_RAM (1) (R135). -/
  | crcBuf (m : BitVec 1)
  /-- PRNG_SEED (R156). -/
  | prngSeed
  /-- PRNG_SEED_PAIR (R157). -/
  | prngSeedPair
  /-- PRNG_NEXT (R158). -/
  | prngNext
  /-- PRNG_DOUBLE (R159). -/
  | prngDouble
  /-- PRNG_INT (R160). -/
  | prngInt
  /-- PRNG_BYTE (R161). -/
  | prngByte
  /-- PRNG_SHUFFLE (R162). -/
  | prngShuffle
  /-- SMP_BUILD: `m` selects the harmonic weights (0) or WGT_RAM (1) (R183). -/
  | smpBuild (m : BitVec 1)
  /-- SMP_SAMPLE (R185). -/
  | smpSample
  /-- FTN_CONFIG (R203). -/
  | ftnConfig
  /-- FTN_NEXT (R209). -/
  | ftnNext
  /-- FTN_CHOOSE (R206). -/
  | ftnChoose
  /-- FTN_MIX (R208). -/
  | ftnMix
  /-- FTN_SEEK (R210). -/
  | ftnSeek
  /-- FTN_CLEAR (R211). -/
  | ftnClear
deriving DecidableEq, Repr

end Sys2Proof
end

