-- ==== Sys2Proof/Decode.lean ====
section
/-! DEFINITION. Decoding a command word (30_encoding.md R90 to R97) and encoding a command. Decoding is total: every
32-bit word is a command or one of two named errors (R91). -/

namespace Sys2Proof

/-- Why a word is no command (R91): its OPC is not in the opcode map (R94), or a bit outside its row's fields is set
(R95). The sequencer completes such a command with the error of the same name; it is no refusal of the model. -/
inductive DecodeError where
  | illegalOpcode
  | reservedField
deriving DecidableEq, Repr

/-- The OPC field, bits 7:0 (R90). -/
def opcField (w : Word) : Byte := w.extractLsb' 0 8

/-- MODE[0], bit 8 (R90). -/
def modeBit (w : Word) : BitVec 1 := w.extractLsb' 8 1

/-- IMM16[7:0], bits 23:16 (R90). -/
def immByte (w : Word) : Byte := w.extractLsb' 16 8

/-- A row of the opcode map (R93): the OPC value, the fixed bits and their mask, and the command read from the word. -/
structure Row where
  opc : Byte
  fixed : Word
  mask : Word
  build : Word → Instr

/-- The opcode map of R93. -/
def opcodeMap : List Row :=
  [ ⟨0x00, 0x00000000, 0xFFFFFFFF, fun _ => .nop⟩,
    ⟨0x01, 0x00000001, 0xFFFFFFFF, fun _ => .crcInit⟩,
    ⟨0x02, 0x00000002, 0xFF00FFFF, fun w => .crcByte (immByte w)⟩,
    ⟨0x03, 0x00000003, 0xFFFFFEFF, fun w => .crcBuf (modeBit w)⟩,
    ⟨0x10, 0x00000010, 0xFFFFFFFF, fun _ => .prngSeed⟩,
    ⟨0x11, 0x00000011, 0xFFFFFFFF, fun _ => .prngSeedPair⟩,
    ⟨0x12, 0x00000012, 0xFFFFFFFF, fun _ => .prngNext⟩,
    ⟨0x13, 0x00000013, 0xFFFFFFFF, fun _ => .prngDouble⟩,
    ⟨0x14, 0x00000014, 0xFFFFFFFF, fun _ => .prngInt⟩,
    ⟨0x15, 0x00000015, 0xFFFFFFFF, fun _ => .prngByte⟩,
    ⟨0x16, 0x00000016, 0xFFFFFFFF, fun _ => .prngShuffle⟩,
    ⟨0x20, 0x00000020, 0xFFFFFEFF, fun w => .smpBuild (modeBit w)⟩,
    ⟨0x21, 0x00000021, 0xFFFFFFFF, fun _ => .smpSample⟩,
    ⟨0x30, 0x00000030, 0xFFFFFFFF, fun _ => .ftnConfig⟩,
    ⟨0x31, 0x00000031, 0xFFFFFFFF, fun _ => .ftnNext⟩,
    ⟨0x32, 0x00000032, 0xFFFFFFFF, fun _ => .ftnChoose⟩,
    ⟨0x33, 0x00000033, 0xFFFFFFFF, fun _ => .ftnMix⟩,
    ⟨0x34, 0x00000034, 0xFFFFFFFF, fun _ => .ftnSeek⟩,
    ⟨0x35, 0x00000035, 0xFFFFFFFF, fun _ => .ftnClear⟩ ]

/-- The command a word stands for (R91): first the opcode, then the row's fixed bits. -/
def decode (w : Word) : Except DecodeError Instr :=
  match opcodeMap.find? (fun r => r.opc == opcField w) with
  | none => .error .illegalOpcode
  | some r => if w &&& r.mask = r.fixed then .ok (r.build w) else .error .reservedField

/-- The word of a command (R93). -/
def encode : Instr → Word
  | .nop => 0x00000000
  | .crcInit => 0x00000001
  | .crcByte b => 0x00000002 ||| (b.setWidth 32 <<< 16)
  | .crcBuf m => 0x00000003 ||| (m.setWidth 32 <<< 8)
  | .prngSeed => 0x00000010
  | .prngSeedPair => 0x00000011
  | .prngNext => 0x00000012
  | .prngDouble => 0x00000013
  | .prngInt => 0x00000014
  | .prngByte => 0x00000015
  | .prngShuffle => 0x00000016
  | .smpBuild m => 0x00000020 ||| (m.setWidth 32 <<< 8)
  | .smpSample => 0x00000021
  | .ftnConfig => 0x00000030
  | .ftnNext => 0x00000031
  | .ftnChoose => 0x00000032
  | .ftnMix => 0x00000033
  | .ftnSeek => 0x00000034
  | .ftnClear => 0x00000035

/-- The command in the low `nbits` bits of `w`, bit 0 being the least significant bit of the word; the bits above are 0. A
command is one 32-bit word, written to CMD by one 4-byte access (R97). -/
def decodeTableWord (nbits w : Nat) : Option Instr :=
  match decode (BitVec.ofNat 32 (w % 2 ^ nbits)) with
  | .ok i => some i
  | .error _ => none

end Sys2Proof
end

