-- ==== Sys2Proof/Config.lean ====
section
/-! DEFINITION. What an implementation fixes (00_scope.md R6) and the free values: constants without a body that no proof
can look into. The parameters are plain data, so that a state can hold them and a claim over every state holds for
every choice of them (log 1). -/

namespace Sys2Proof

/-- The parameter SHA256 of R6 and R10: the reference instance, FIPS 180-4, or the instance number `k` of any other hash,
of which nothing is known but that it maps byte strings to 32 bytes (log 2). -/
inductive Hash where
  | fips180
  | other (k : Nat)
deriving DecidableEq, Repr

/-- The parameter LATENCY of R6 and R281: every command takes `extra + 1` cycles, or the instance number `k` of any
other positive latency, which may vary from command to command (log 3). -/
inductive Latency where
  | fixed (extra : Nat)
  | other (k : Nat)
deriving DecidableEq, Repr

/-- The named parameters of R6. RAM_INIT is the memory image that `Machine.State.powerOn` takes (log 4). -/
structure Params where
  /-- MSG_RAM_SIZE, bytes in MSG_RAM. -/
  msgRamSize : Nat
  /-- SEED_RAM_SIZE, bytes in SEED_RAM. -/
  seedRamSize : Nat
  /-- OUT_RAM_SIZE, bytes in OUT_RAM. -/
  outRamSize : Nat
  /-- MAX_FRAGS, entries in SEL_RAM, WGT_RAM, PROB_RAM and ALIAS_RAM. -/
  maxFrags : Nat
  /-- SHA256, the hash that seeds the PRNG. -/
  hash : Hash
  /-- LATENCY, the clock cycles a command stays busy. -/
  latency : Latency
deriving DecidableEq, Repr

/-- The reference configuration of R6 (log 1), with the FIPS hash (log 2) and one cycle a command (log 3). -/
def Params.reference : Params where
  msgRamSize := 4096
  seedRamSize := 256
  outRamSize := 1024
  maxFrags := 1024
  hash := .fips180
  latency := .fixed 0

/-- The digest of a byte string under the hash instance `k` (R10, log 2). -/
opaque Config.sha256 (k : Nat) : List Byte → Digest

/-- One less than the cycles that the latency instance `k` gives the `n`-th draw, a command with word `w` (R281, log 3). -/
opaque Config.latency (k n : Nat) (w : Word) : Nat

/-- The value of the `n`-th draw, a read while busy of state that a command may write (R276, log 8). -/
opaque Config.busyRead (n : Nat) : Word

/-- What the byte at bus address `a` holds after a soft reset that aborted a command which would have written its RAM, the
reset being the `n`-th draw (R272, log 9). -/
opaque Config.abortedByte (n a : Nat) : Byte

/-- The `[undefined]` that buildAlias starts every probability from (43_sampler.md R182, 93 U21, log 13). -/
opaque Config.undefinedProb : DWord

end Sys2Proof
end

