-- ==== Sys2Proof/Machine/State.lean ====
section
/-! DEFINITION. The state of the block as plain data (10_state.md), its outcomes, and its reset. Where a field is the
model's own and not the spec's, its docstring says so. -/

namespace Sys2Proof.Machine

/-- Why a host access fails. -/
inductive Fault where
  /-- A bus error (20_memory.md R74): the access is misaligned, of a wrong width, or to an address that does not exist (R72,
  R73). Raised by the bus operation that serves a host access. Safe: the access changes nothing, the step hands the host the
  error response and the block goes on, as R74 says (log 7). -/
  | busError (addr : BusAddr)
deriving DecidableEq, Repr

/-- Why the model gives an instruction no meaning. -/
inductive Refusal where
  /-- Raised by an arm of exec that has no meaning yet. Safe: nothing is claimed of the instruction. No arm raises it: every
  command has its meaning. -/
  | notModelled (mnemonic : String)
deriving DecidableEq, Repr

/-- The seven RAM windows (20_memory.md R71). -/
inductive Ram where
  | msgRam
  | seedRam
  | outRam
  | selRam
  | wgtRam
  | probRam
  | aliasRam
deriving DecidableEq, Repr

/-- The registers of the register window (10_state.md R21). -/
inductive Reg where
  | id
  | version
  | ctrl
  | status
  | cmd
  | arg0
  | arg1
  | arg2
  | arg3
  | res0
  | res1
  | crcState
  | crcResult
  | prngS0Lo
  | prngS0Hi
  | prngS1Lo
  | prngS1Hi
  | prngS2Lo
  | prngS2Hi
  | prngS3Lo
  | prngS3Hi
  | prngOutLo
  | prngOutHi
  | prngDblLo
  | prngDblHi
  | smpN
  | ftnMsgLen
  | ftnFragLen
  | ftnFragCount
  | ftnChecksum
  | ftnSeqNum
  | selCount
  | selSeq
deriving DecidableEq, Repr

/-- The sizes of an access: 1, 2 or 4 bytes (20_memory.md R70). -/
inductive Size where
  | byte
  | half
  | word
deriving DecidableEq, Repr

/-- One host access (20_memory.md R70). A narrow write uses the low data bits (R75). -/
inductive Access where
  | read (size : Size) (addr : BusAddr)
  | write (size : Size) (addr : BusAddr) (data : Word)
deriving DecidableEq, Repr

/-- The response to a host access (20_memory.md R70, R74, R75): read data of the access's width, a write acknowledge, or the
error response, which carries read data when the access was a read. -/
inductive Response where
  | data8 (v : Byte)
  | data16 (v : BitVec 16)
  | data32 (v : Word)
  | ack
  | errorRead (v : Word)
  | errorWrite
deriving DecidableEq, Repr

/-- The error codes (60_exceptions.md R240). Codes 0x0A to 0xFF are never produced (93 U11), so they have no constructor. -/
inductive ErrorCode where
  | ok
  | illegalOpcode
  | reservedField
  | badArg
  | badFtnParams
  | notConfigured
  | seqOverflow
  | badWeights
  | rngRange
  | badIndex
deriving DecidableEq, Repr

/-- Four 32-bit arguments: the registers ARG0 to ARG3 (10_state.md R36), or their latched values (R110). -/
structure Args where
  a0 : Word
  a1 : Word
  a2 : Word
  a3 : Word
deriving DecidableEq, Repr

/-- The four 64-bit PRNG lanes S[0] to S[3] (10_state.md R40). -/
structure Lanes where
  s0 : DWord
  s1 : DWord
  s2 : DWord
  s3 : DWord
deriving DecidableEq, Repr

/-- PENDING (10_state.md R58, 40_control.md R110): the accepted word, the latched arguments, and the clock cycles the command
has left before it completes (70_reset_and_hazards.md R281). -/
structure Pending where
  word : Word
  args : Args
  cyclesLeft : Nat
deriving DecidableEq, Repr

/-- The RAM bytes by bus address, addresses strictly rising, without the bytes that read as an unlisted one does
(`Memory.wf`). -/
abbrev Memory := List Host.Cell

/-- What a RAM byte that is not listed holds. RAM_INIT is a parameter of the model (00_scope.md R6): any other initial
contents are listed in the image that `State.powerOn` takes. DESIGN CHOICE, unsafe for claims about State.reset (log 4). -/
def Memory.unlisted : Byte := 0

/-- The state of the block. -/
structure State where
  /-- The parameters of 00_scope.md R6. No step changes them (log 1). -/
  params : Params
  /-- CTRL.IE (10_state.md R24). -/
  ie : Bool
  /-- STATUS.DONE (R27). -/
  done : Bool
  /-- STATUS.ERR (R28). -/
  err : Bool
  /-- STATUS.CMDREJ (R29). -/
  cmdRej : Bool
  /-- STATUS.WDROP (R30). -/
  wDrop : Bool
  /-- STATUS.FTN_VALID (R31). -/
  ftnValid : Bool
  /-- STATUS.SMP_VALID (R32). -/
  smpValid : Bool
  /-- STATUS.ERRCODE (R34). -/
  errCode : ErrorCode
  /-- CMD_LAST (R35). -/
  cmdLast : Word
  /-- ARG0 to ARG3 (R36). -/
  args : Args
  /-- RES0 (R37). -/
  res0 : Word
  /-- RES1 (R37). -/
  res1 : Word
  /-- CRC_STATE (R38). -/
  crcState : Word
  /-- The host-stream PRNG lanes (R40). -/
  lanes : Lanes
  /-- PRNG_OUT (R42). -/
  prngOut : DWord
  /-- SMP_N (R44). -/
  smpN : Word
  /-- FTN_MSG_LEN (R45). -/
  ftnMsgLen : Word
  /-- FTN_FRAG_LEN (R46). -/
  ftnFragLen : Word
  /-- FTN_FRAG_COUNT (R47). -/
  ftnFragCount : Word
  /-- FTN_CHECKSUM (R48). -/
  ftnChecksum : Word
  /-- FTN_SEQ_NUM (R49). -/
  ftnSeqNum : Word
  /-- SEL_COUNT (R50). -/
  selCount : Word
  /-- SEL_SEQ (R51). -/
  selSeq : Word
  /-- PENDING (R58). STATUS.BUSY is 1 exactly while it is some (R26). -/
  pending : Option Pending
  /-- The contents of the seven RAMs (R52 to R57). -/
  mem : Memory
  /-- The response of the host's last access. The port's output, kept so that a step shows it (log 7). -/
  resp : Option Response
  /-- The host accesses to come, one place a clock cycle, `none` for a cycle without one; an empty list is a host that makes
  no more accesses. The model's own field: the outside world's input (log 6). -/
  host : List (Option Access)
  /-- How many free values were drawn. The model's own field (log 10). -/
  draws : Nat
deriving DecidableEq, Repr

/-- The state after power-on reset (70_reset_and_hazards.md R270) of a block with these parameters and this RAM_INIT. -/
def State.powerOn (p : Params) (ramInit : Memory) : State where
  params := p
  ie := false
  done := false
  err := false
  cmdRej := false
  wDrop := false
  ftnValid := false
  smpValid := false
  errCode := .ok
  cmdLast := 0
  args := ⟨0, 0, 0, 0⟩
  res0 := 0
  res1 := 0
  crcState := 0xFFFFFFFF
  lanes := ⟨0, 0, 0, 0⟩
  prngOut := 0
  smpN := 0
  ftnMsgLen := 0
  ftnFragLen := 0
  ftnFragCount := 0
  ftnChecksum := 0
  ftnSeqNum := 0
  selCount := 0
  selSeq := 0
  pending := none
  mem := ramInit
  resp := none
  host := []
  draws := 0

/-- The machine right after power-on reset (R270), with the reference parameters of R6 (log 1), RAM_INIT of zeros (log 4) and
a host that makes no access (log 6). -/
def State.reset : State := State.powerOn Params.reference []

end Sys2Proof.Machine
end

