-- ==== Sys2Proof/Machine/Ops.lean ====
section
/-! DEFINITION. The named operations over memory and registers: bytes and their orders, the RAMs and their entries, the
command's completion (the block's trap entry), and the two resets. -/

namespace Sys2Proof.Machine

/-! ### Byte strings and their orders -/

/-- The number whose little-endian bytes these are (20_memory.md R75). -/
def fromLE : List Byte → Nat
  | [] => 0
  | b :: bs => b.toNat + 256 * fromLE bs

/-- The `n` little-endian bytes of a number (R75). -/
def toLE : Nat → Nat → List Byte
  | 0, _ => []
  | n + 1, v => BitVec.ofNat 8 v :: toLE n (v / 256)

/-- The number whose big-endian bytes these are (00_scope.md R8). -/
def fromBE (bs : List Byte) : Nat := fromLE bs.reverse

/-- BE32 of R8: the four bytes of a 32-bit value, most significant first. -/
def be32 (v : Word) : List Byte := (toLE 4 v.toNat).reverse

/-! ### Memory -/

/-- The byte at a bus address. -/
def Memory.read : Memory → Nat → Byte
  | [], _ => Memory.unlisted
  | (k, v) :: rest, a => if k = a then v else Memory.read rest a

/-- Memory with the byte at bus address `a` replaced; the canonical form is kept. -/
def Memory.write : Memory → Nat → Byte → Memory
  | [], a, b => if b = Memory.unlisted then [] else [(a, b)]
  | (k, v) :: rest, a, b =>
    if a < k then (if b = Memory.unlisted then (k, v) :: rest else (a, b) :: (k, v) :: rest)
    else if a = k then (if b = Memory.unlisted then rest else (a, b) :: rest)
    else (k, v) :: Memory.write rest a b

/-- The canonical form: every listed byte differs from an unlisted one, and every address is above those before it. -/
def Memory.wf : Memory → Bool
  | [] => true
  | (k, v) :: rest => v != Memory.unlisted && rest.all (fun c => k < c.1) && Memory.wf rest

/-- The bytes at `a`, `a + 1`, … -/
def Memory.readBytes (m : Memory) (a : Nat) : Nat → List Byte
  | 0 => []
  | n + 1 => m.read a :: Memory.readBytes m (a + 1) n

/-- Memory with a byte string stored from bus address `a` up. -/
def Memory.writeBytes (m : Memory) (a : Nat) : List Byte → Memory
  | [] => m
  | b :: bs => Memory.writeBytes (m.write a b) (a + 1) bs

/-! ### The RAMs -/

/-- The first bus address of a RAM window (20_memory.md R71). -/
def Ram.base : Ram → Nat
  | .msgRam => 0x10000
  | .seedRam => 0x20000
  | .outRam => 0x30000
  | .selRam => 0x40000
  | .wgtRam => 0x50000
  | .probRam => 0x60000
  | .aliasRam => 0x70000

/-- The mapped size of a RAM window in bytes (R71). -/
def Ram.size (p : Params) : Ram → Nat
  | .msgRam => p.msgRamSize
  | .seedRam => p.seedRamSize
  | .outRam => p.outRamSize
  | .selRam => 4 * p.maxFrags
  | .wgtRam => 8 * p.maxFrags
  | .probRam => 8 * p.maxFrags
  | .aliasRam => 4 * p.maxFrags

/-- MemRead(space, o, n) of 00_scope.md R9. -/
def State.memRead (s : State) (r : Ram) (o n : Nat) : List Byte := s.mem.readBytes (r.base + o) n

/-- MemWrite(space, o, |bytes|, bytes) of R9. -/
def State.memWrite (s : State) (r : Ram) (o : Nat) (bytes : List Byte) : State :=
  { s with mem := s.mem.writeBytes (r.base + o) bytes }

/-- Entry `j` of a RAM of 32-bit entries (20_memory.md R77). -/
def State.entry32 (s : State) (r : Ram) (j : Nat) : Word := BitVec.ofNat 32 (fromLE (s.memRead r (4 * j) 4))

/-- Entry `j` of a RAM of 64-bit entries (R76). -/
def State.entry64 (s : State) (r : Ram) (j : Nat) : DWord := BitVec.ofNat 64 (fromLE (s.memRead r (8 * j) 8))

/-- The bytes of consecutive 32-bit entries (R77). -/
def bytes32 (vs : List Word) : List Byte := vs.flatMap (fun v => toLE 4 v.toNat)

/-- The bytes of consecutive 64-bit entries (R76). -/
def bytes64 (vs : List DWord) : List Byte := vs.flatMap (fun v => toLE 8 v.toNat)

/-- SEL[j], WGT[j], PROB[j] and ALIAS[j] of R9. -/
def State.sel (s : State) (j : Nat) : Word := s.entry32 .selRam j
@[inherit_doc State.sel] def State.wgt (s : State) (j : Nat) : DWord := s.entry64 .wgtRam j
@[inherit_doc State.sel] def State.prob (s : State) (j : Nat) : DWord := s.entry64 .probRam j
@[inherit_doc State.sel] def State.aliasOf (s : State) (j : Nat) : Word := s.entry32 .aliasRam j

/-- The selection `SEL[0..k)`. -/
def State.selList (s : State) (k : Nat) : List Word := (List.range k).map s.sel

/-! ### Completion of a command: the block's trap entry and its return -/

/-- STATUS.BUSY (10_state.md R26). -/
def State.busy (s : State) : Bool := s.pending.isSome

/-- Completion with a code (40_control.md R111; 60_exceptions.md R243): ERRCODE and DONE are written, ERR is set by an error
and otherwise keeps its value, BUSY falls and the pending command is gone. -/
def State.complete (s : State) (code : ErrorCode) : State :=
  { s with errCode := code, done := true, err := s.err || code != .ok, pending := none }

/-- All or nothing (40_control.md R111, R112): a command's writes are applied when its rule ends with OK, and none of them
when it raises an error. Every meaning ends here. -/
def State.commit (s : State) (result : Except ErrorCode State) : Host.Outcome State Fault Refusal :=
  match result with
  | .ok t => .next (t.complete .ok)
  | .error e => .next (s.complete e)

/-- Return from an error (60_exceptions.md R245) and the other write-1-to-clear bits of STATUS (10_state.md R25): each of
DONE, ERR, CMDREJ and WDROP is cleared by a 1 in its bit. -/
def State.writeStatus (s : State) (v : Word) : State :=
  { s with
    done := s.done && !v.getLsbD 1
    err := s.err && !v.getLsbD 2
    cmdRej := s.cmdRej && !v.getLsbD 3
    wDrop := s.wDrop && !v.getLsbD 4 }

/-! ### Resets -/

/-- The RAMs that a command would have written (70_reset_and_hazards.md R272). -/
def writtenRams : Instr → List Ram
  | .ftnMix => [.outRam]
  | .ftnNext => [.selRam, .outRam]
  | .ftnChoose | .prngShuffle => [.selRam]
  | .smpBuild _ => [.probRam, .aliasRam]
  | .nop | .crcInit | .crcByte _ | .crcBuf _ | .prngSeed | .prngSeedPair | .prngNext | .prngDouble | .prngInt | .prngByte
  | .smpSample | .ftnConfig | .ftnSeek | .ftnClear => []

/-- Memory after an abort at draw `n`: each byte of the RAMs named is a fresh free value (R272, log 9). -/
def Memory.abortRams (p : Params) (n : Nat) (m : Memory) (rams : List Ram) : Memory :=
  rams.foldl
    (fun m r => m.writeBytes r.base ((List.range (r.size p)).map fun o => Config.abortedByte n (r.base + o))) m

/-- The memory that a soft reset leaves (R271, R272): unchanged when no command runs, and when the pending command would have
written RAMs, these hold unspecified values. A word that is no command would have written nothing. -/
def State.resetMem (s : State) : Memory :=
  match s.pending with
  | none => s.mem
  | some p =>
    match decode p.word with
    | .error _ => s.mem
    | .ok i => s.mem.abortRams s.params s.draws (writtenRams i)

/-- Soft reset (R271): every register and field takes its power-on value and the pending command is discarded. The RAMs keep
their contents but for R272. What is outside the block (the host's accesses, the parameters) stays. -/
def State.softReset (s : State) : State :=
  { State.powerOn s.params s.resetMem with resp := s.resp, host := s.host, draws := s.draws + 1 }

end Sys2Proof.Machine
end

