-- ==== Sys2Proof/Machine/Flags.lean ====
section
/-! DEFINITION. The status flags and the control register as the host reads them (10_state.md R24 to R34, R62), and the
interrupt line (60_exceptions.md R244). -/

namespace Sys2Proof.Machine

/-- The 8-bit code of an error (60_exceptions.md R240). -/
def ErrorCode.toByte : ErrorCode → Byte
  | .ok => 0x00
  | .illegalOpcode => 0x01
  | .reservedField => 0x02
  | .badArg => 0x03
  | .badFtnParams => 0x04
  | .notConfigured => 0x05
  | .seqOverflow => 0x06
  | .badWeights => 0x07
  | .rngRange => 0x08
  | .badIndex => 0x09

/-- STATUS.FTN_COMPLETE (10_state.md R33), a view: it stops nothing. -/
def State.ftnComplete (s : State) : Bool := s.ftnValid && s.ftnFragCount.toNat ≤ s.ftnSeqNum.toNat

/-- A flag as a bit. -/
def flagBit (b : Bool) : BitVec 1 := BitVec.ofBool b

/-- The STATUS word (R25): reserved 31:16, ERRCODE 15:8, FTN_COMPLETE, SMP_VALID, FTN_VALID, WDROP, CMDREJ, ERR, DONE,
BUSY. -/
def State.statusWord (s : State) : Word :=
  0#16 ++ s.errCode.toByte ++ flagBit s.ftnComplete ++ flagBit s.smpValid ++ flagBit s.ftnValid ++ flagBit s.wDrop
    ++ flagBit s.cmdRej ++ flagBit s.err ++ flagBit s.done ++ flagBit s.busy

/-- The CTRL word as read (R24): SRST and the reserved bits read 0. -/
def State.ctrlWord (s : State) : Word := 0#31 ++ flagBit s.ie

/-- The interrupt output (60_exceptions.md R244): a level, active high. -/
def State.irq (s : State) : Bool := s.ie && s.done

end Sys2Proof.Machine
end

