-- ==== Sys2Proof/Machine/Operands.lean ====
section
/-! DEFINITION. The operand forms (30_encoding.md R92): the latched arguments and what MODE[0] selects. -/

namespace Sys2Proof.Machine

/-- The arguments a command reads: the values latched in PENDING (40_control.md R110). A meaning that is run with nothing
pending is run at the instant of acceptance, which R111 calls the same, and reads the ARG registers (log 14). -/
def State.operands (s : State) : Args :=
  match s.pending with
  | some p => p.args
  | none => s.args

/-- The RAM that MODE[0] of CRC_BUF selects (41_crc.md R135). -/
def crcSpace (m : BitVec 1) : Ram := if m = 0 then .msgRam else .seedRam

/-- Whether MODE[0] of SMP_BUILD selects the weights of WGT_RAM (43_sampler.md R180). -/
def tableWeights (m : BitVec 1) : Bool := m = 1

end Sys2Proof.Machine
end

