-- ==== Sys2Proof/Machine/Crc.lean ====
section
/-! DEFINITION. The CRC32 unit (41_crc.md). -/

namespace Sys2Proof.Machine

/-- One bit of crc_step (R130): shift right, and fold in the reflected polynomial when a 1 left. -/
def crcBit (s : Word) : Word := if s.getLsbD 0 then (s >>> 1) ^^^ 0xEDB88320 else s >>> 1

/-- crc_step of R130: fold in one byte, its bit 0 first. -/
def crcStep (s : Word) (b : Byte) : Word := Nat.repeat crcBit 8 (s ^^^ b.setWidth 32)

/-- crc_fold of R131: the bytes of a string in string order. -/
def crcFold (s : Word) (str : List Byte) : Word := str.foldl crcStep s

/-- CRC32 of R131. -/
def crc32 (str : List Byte) : Word := crcFold 0xFFFFFFFF str ^^^ 0xFFFFFFFF

/-- CRC_RESULT (10_state.md R39), a view. -/
def State.crcResult (s : State) : Word := s.crcState ^^^ 0xFFFFFFFF

/-- CRC_INIT (R133). -/
def execCrcInit (s : State) : Host.Outcome State Fault Refusal :=
  s.commit (.ok { s with crcState := 0xFFFFFFFF })

/-- CRC_BYTE b (R134). -/
def execCrcByte (b : BitVec 8) (s : State) : Host.Outcome State Fault Refusal :=
  s.commit (.ok { s with crcState := crcStep s.crcState b })

/-- The pseudocode of CRC_BUF (R135). -/
def crcBuf (m : BitVec 1) (s : State) : Except ErrorCode State :=
  let o := s.operands.a0.toNat
  let n := s.operands.a1.toNat
  if (crcSpace m).size s.params < o + n then .error .badArg
  else .ok { s with crcState := crcFold s.crcState (s.memRead (crcSpace m) o n) }

/-- CRC_BUF (R135). -/
def execCrcBuf (m : BitVec 1) (s : State) : Host.Outcome State Fault Refusal := s.commit (crcBuf m s)

end Sys2Proof.Machine
end

