-- ==== Sys2Proof/Machine/Binary64.lean ====
section
/-! DEFINITION. Exact binary64 arithmetic with round-to-nearest-ties-to-even (00_scope.md R11, R12).

A finite binary64 value is an integer multiple of 2^-1074, so its magnitude is held as that integer, its number of
units; every operation computes the exact real as a ratio of integers and rounds it once with `fl`. -/

namespace Sys2Proof.Machine

/-- A binary64 value by its bit pattern (R11). -/
abbrev F64 := DWord

/-- The units in 1: a value of `u` units is `u / 2^1074`. -/
@[irreducible] def unitsPerOne : Nat := 2 ^ 1074

/-- The sign, bit 63 (R11). -/
def f64Sign (a : F64) : Bool := a.getLsbD 63

/-- The biased exponent, bits 62:52 (R11). -/
def f64Exp (a : F64) : Nat := (a.extractLsb' 52 11).toNat

/-- The fraction, bits 51:0 (R11). -/
def f64Frac (a : F64) : Nat := (a.extractLsb' 0 52).toNat

/-- A finite value: the exponent field is not all ones. -/
def f64Finite (a : F64) : Bool := f64Exp a != 2047

/-- A NaN: exponent all ones and a non-zero fraction. -/
def f64IsNaN (a : F64) : Bool := f64Exp a == 2047 && f64Frac a != 0

/-- The magnitude `|f64val a|` of a finite value, in units: `m * 2^(e + 1074)` of R11. An infinity counts as 2^1024, above
every finite value, which is what `f64lt` needs. -/
def f64Units (a : F64) : Nat :=
  if f64Exp a = 0 then f64Frac a else (2 ^ 52 + f64Frac a) * 2 ^ (f64Exp a - 1)

/-- The value `f64val a` of a finite pattern, in units. -/
def f64Value (a : F64) : Int := if f64Sign a then -(f64Units a : Int) else f64Units a

/-- `num / den` rounded to the nearest integer, ties to the even one. -/
def roundTiesEven (num den : Nat) : Nat :=
  let q := num / den
  let r := num % den
  if den < 2 * r ∨ (2 * r = den ∧ q % 2 = 1) then q + 1 else q

/-- The pattern of +inf without its sign. -/
def infMagnitude : Nat := 2047 * 2 ^ 52

/-- The magnitude from which on a real rounds to an infinity (R11). -/
@[irreducible] def overflowBound : Nat := 2 ^ 1024 - 2 ^ 970

/-- The pattern, without its sign, of `fl (num / den)` for `num / den ≥ 0` (R11): the nearest finite value, ties to the even
significand, or infinity from 2^1024 - 2^970 up. With `k` units as the spacing of binary64 values around the number and
`m` the significand, the pattern is `e * 2^52 + m`, `2^e = k`: a significand of 2^53 carries into the exponent. -/
@[irreducible] def flMagnitude (num den : Nat) : Nat :=
  if overflowBound * den ≤ num then infMagnitude
  else
    let e := (num * unitsPerOne / den).log2 - 52
    e * 2 ^ 52 + roundTiesEven (num * unitsPerOne) (den * 2 ^ e)

/-- `fl` of the real number with this sign and the magnitude `num / den` (R11). Only a zero keeps the sign it is given. -/
def fl (neg : Bool) (num den : Nat) : F64 :=
  BitVec.ofNat 64 ((if neg then 2 ^ 63 else 0) + flMagnitude num den)

/-- 1.0 (R11). -/
def f64One : F64 := 0x3FF0000000000000

/-- `f64add a b = fl (a + b)`; an exact zero sum is +0 (R11). -/
def f64add (a b : F64) : F64 :=
  let v := f64Value a + f64Value b
  fl (v < 0) v.natAbs unitsPerOne

/-- `a` with its sign turned. -/
def f64neg (a : F64) : F64 := a ^^^ (1 <<< 63)

/-- `f64sub a b = fl (a - b)`; an exact zero difference is +0 (R11). -/
def f64sub (a b : F64) : F64 := f64add a (f64neg b)

/-- `f64mul a b = fl (a * b)` (R11). A zero product has the sign of the operands' product, as IEEE 754 and 43_sampler.md R183
have it (DEDUCED, log 11). -/
def f64mul (a b : F64) : F64 :=
  fl (f64Sign a ^^ f64Sign b) (f64Units a * f64Units b) (unitsPerOne * unitsPerOne)

/-- `f64div a b = fl (a / b)` for `b ≠ 0` (R11). A zero quotient has the sign of the operands' quotient (DEDUCED, log 11). -/
def f64div (a b : F64) : F64 := fl (f64Sign a ^^ f64Sign b) (f64Units a) (f64Units b)

/-- `f64lt a b`: `a < b` as reals; false when either is NaN; -0 and +0 compare equal (R11). -/
def f64lt (a b : F64) : Bool := !f64IsNaN a && !f64IsNaN b && f64Value a < f64Value b

/-- `toF64 k = fl k` for an integer `k ≥ 0` (R11). -/
def toF64 (k : Nat) : F64 := fl false k 1

/-- `trunc a`, the largest integer not above a finite `a ≥ 0` (R11). -/
def f64trunc (a : F64) : Nat := f64Units a / unitsPerOne

/-- RNE53 (R12): the integer `v` rounded to 53 significant bits, ties to even. -/
def rne53 (v : Nat) : Nat :=
  if v < 2 ^ 53 then v
  else
    let e := v.log2 - 52
    let q := v / 2 ^ e
    let r := v % 2 ^ e
    if r > 2 ^ (e - 1) ∨ (r = 2 ^ (e - 1) ∧ q % 2 = 1) then (q + 1) * 2 ^ e else q * 2 ^ e

end Sys2Proof.Machine
end

