-- ==== Sys2Proof/Machine/Sha256.lean ====
section
/-! DEFINITION. The parameter SHA256 (00_scope.md R6, R10): the reference instance FIPS 180-4, PRESUMED from general
knowledge as R10 says and checked against the digests that R10, 42_prng.md R156 and R157 give (log 2), and any other
instance as an opaque constant. -/

namespace Sys2Proof.Machine

/-- The round constants of FIPS 180-4, section 4.2.2. -/
def sha256K : List Word :=
  [0x428a2f98, 0x71374491, 0xb5c0fbcf, 0xe9b5dba5, 0x3956c25b, 0x59f111f1, 0x923f82a4, 0xab1c5ed5] ++
  [0xd807aa98, 0x12835b01, 0x243185be, 0x550c7dc3, 0x72be5d74, 0x80deb1fe, 0x9bdc06a7, 0xc19bf174] ++
  [0xe49b69c1, 0xefbe4786, 0x0fc19dc6, 0x240ca1cc, 0x2de92c6f, 0x4a7484aa, 0x5cb0a9dc, 0x76f988da] ++
  [0x983e5152, 0xa831c66d, 0xb00327c8, 0xbf597fc7, 0xc6e00bf3, 0xd5a79147, 0x06ca6351, 0x14292967] ++
  [0x27b70a85, 0x2e1b2138, 0x4d2c6dfc, 0x53380d13, 0x650a7354, 0x766a0abb, 0x81c2c92e, 0x92722c85] ++
  [0xa2bfe8a1, 0xa81a664b, 0xc24b8b70, 0xc76c51a3, 0xd192e819, 0xd6990624, 0xf40e3585, 0x106aa070] ++
  [0x19a4c116, 0x1e376c08, 0x2748774c, 0x34b0bcb5, 0x391c0cb3, 0x4ed8aa4a, 0x5b9cca4f, 0x682e6ff3] ++
  [0x748f82ee, 0x78a5636f, 0x84c87814, 0x8cc70208, 0x90befffa, 0xa4506ceb, 0xbef9a3f7, 0xc67178f2]

/-- The eight working variables, and the hash value between blocks. -/
structure ShaState where
  a : Word
  b : Word
  c : Word
  d : Word
  e : Word
  f : Word
  g : Word
  h : Word
deriving DecidableEq, Repr

/-- The initial hash value, section 5.3.3. -/
def sha256Init : ShaState :=
  ⟨0x6a09e667, 0xbb67ae85, 0x3c6ef372, 0xa54ff53a, 0x510e527f, 0x9b05688c, 0x1f83d9ab, 0x5be0cd19⟩

/-- The functions of section 4.1.2. -/
def shaBigSigma0 (x : Word) : Word := x.rotateRight 2 ^^^ x.rotateRight 13 ^^^ x.rotateRight 22
@[inherit_doc shaBigSigma0] def shaBigSigma1 (x : Word) : Word :=
  x.rotateRight 6 ^^^ x.rotateRight 11 ^^^ x.rotateRight 25
@[inherit_doc shaBigSigma0] def shaSmallSigma0 (x : Word) : Word := x.rotateRight 7 ^^^ x.rotateRight 18 ^^^ (x >>> 3)
@[inherit_doc shaBigSigma0] def shaSmallSigma1 (x : Word) : Word :=
  x.rotateRight 17 ^^^ x.rotateRight 19 ^^^ (x >>> 10)
@[inherit_doc shaBigSigma0] def shaCh (x y z : Word) : Word := (x &&& y) ^^^ (~~~x &&& z)
@[inherit_doc shaBigSigma0] def shaMaj (x y z : Word) : Word := (x &&& y) ^^^ (x &&& z) ^^^ (y &&& z)

/-- The padded message, section 5.1.1. -/
def sha256Pad (msg : List Byte) : List Byte :=
  msg ++ 0x80 :: List.replicate ((119 - msg.length % 64) % 64) 0 ++ (toLE 8 (8 * msg.length)).reverse

/-- The big-endian words of a byte string, at most `n` of them. -/
def wordsBE : Nat → List Byte → List Word
  | 0, _ => []
  | n + 1, bs => BitVec.ofNat 32 (fromBE (bs.take 4)) :: wordsBE n (bs.drop 4)

/-- `n` more words of the message schedule, section 6.2.2 step 1; the schedule is held newest word first. -/
def shaSchedule : Nat → List Word → List Word
  | 0, w => w
  | n + 1, w =>
    shaSchedule n
      ((shaSmallSigma1 (w.getD 1 0) + w.getD 6 0 + shaSmallSigma0 (w.getD 14 0) + w.getD 15 0) :: w)

/-- One round, section 6.2.2 step 3, with constant plus schedule word `kw`. -/
def shaRound (s : ShaState) (kw : Word) : ShaState :=
  let t1 := s.h + shaBigSigma1 s.e + shaCh s.e s.f s.g + kw
  let t2 := shaBigSigma0 s.a + shaMaj s.a s.b s.c
  ⟨t1 + t2, s.a, s.b, s.c, s.d + t1, s.e, s.f, s.g⟩

/-- One 64-byte block, section 6.2.2. -/
def shaBlock (s : ShaState) (block : List Byte) : ShaState :=
  let w := (shaSchedule 48 (wordsBE 16 block).reverse).reverse
  let t := (List.zipWith (· + ·) sha256K w).foldl shaRound s
  ⟨s.a + t.a, s.b + t.b, s.c + t.c, s.d + t.d, s.e + t.e, s.f + t.f, s.g + t.g, s.h + t.h⟩

/-- `n` blocks of the padded message. -/
def shaBlocks : Nat → ShaState → List Byte → ShaState
  | 0, s, _ => s
  | n + 1, s, bs => shaBlocks n (shaBlock s (bs.take 64)) (bs.drop 64)

/-- The 32 bytes of the final hash value. -/
def ShaState.digest (s : ShaState) : Digest :=
  ⟨((List.range 32).map fun i =>
      ([s.a, s.b, s.c, s.d, s.e, s.f, s.g, s.h].getD (i / 4) 0).extractLsb' (24 - 8 * (i % 4)) 8).toArray,
    by simp⟩

/-- FIPS 180-4 SHA-256 of a byte string. -/
def fipsSha256 (msg : List Byte) : Digest :=
  (shaBlocks ((msg.length + 72) / 64) sha256Init (sha256Pad msg)).digest

/-- SHA256 of R10 under the hash parameter of R6. -/
def hashOf (p : Params) (msg : List Byte) : Digest :=
  match p.hash with
  | .fips180 => fipsSha256 msg
  | .other k => Config.sha256 k msg

end Sys2Proof.Machine
end

