-- ==== Sys2Proof/Machine/Prng.lean ====
section
/-! DEFINITION. The PRNG unit (42_prng.md). -/

namespace Sys2Proof.Machine

/-- next of R150: the raw output and the lanes after the step. Each line reads the lanes as the line before left them, and
`t` is taken from S[1] before any update. -/
def prngNext (l : Lanes) : DWord × Lanes :=
  let x := (l.s1 * 5).rotateLeft 7 * 9
  let t := l.s1 <<< 17
  let s2 := l.s2 ^^^ l.s0
  let s3 := l.s3 ^^^ l.s1
  let s1 := l.s1 ^^^ s2
  let s0 := l.s0 ^^^ s3
  let s2 := s2 ^^^ t
  let s3 := s3.rotateLeft 45
  (x, ⟨s0, s1, s2, s3⟩)

/-- Eight bytes of a digest from byte `k` up, as a big-endian number (R151). -/
def digestLane (d : Digest) (k : Nat) : DWord := BitVec.ofNat 64 (fromBE ((d.toList.drop k).take 8))

/-- lanes of R151. -/
def lanesOf (d : Digest) : Lanes := ⟨digestLane d 0, digestLane d 8, digestLane d 16, digestLane d 24⟩

/-- The PRNG seeded with a byte string (R151). -/
def seedLanes (p : Params) (seed : List Byte) : Lanes := lanesOf (hashOf p seed)

/-- u2d of R152: the binary64 value of a raw output divided by 2^64. -/
def u2d (x : DWord) : F64 := f64div (toF64 x.toNat) (toF64 (2 ^ 64))

/-- PRNG_DBL (10_state.md R43), a view of PRNG_OUT. -/
def State.prngDbl (s : State) : DWord := u2d s.prngOut

/-- What a draw gives: its value, the raw output of its last step, and the lanes after it. -/
structure Drawn where
  value : Nat
  raw : DWord
  lanes : Lanes
deriving DecidableEq, Repr

/-- nextInt of R153, for `low ≤ high`. -/
def nextInt (l : Lanes) (low high : Nat) : Except ErrorCode Drawn :=
  let st := prngNext l
  let d := u2d st.1
  if d = f64One then .error .rngRange
  else .ok ⟨low + f64trunc (f64mul (toF64 (high - low + 1)) d), st.1, st.2⟩

/-- What a shuffle gives: the permutation, the raw output of its last step, and the lanes after it. -/
structure Shuffled where
  perm : List Nat
  raw : DWord
  lanes : Lanes
deriving DecidableEq, Repr

/-- The loop of shuffle (R154): `k` removals from `remaining`; `x` is the raw output of the last step so far. -/
def shuffleLoop : Nat → Lanes → DWord → List Nat → Except ErrorCode Shuffled
  | 0, l, x, _ => .ok ⟨[], x, l⟩
  | k + 1, l, _, remaining =>
    match nextInt l 0 (remaining.length - 1) with
    | .error e => .error e
    | .ok d =>
      match shuffleLoop k d.lanes d.raw (remaining.eraseIdx d.value) with
      | .error e => .error e
      | .ok r => .ok ⟨remaining.getD d.value 0 :: r.perm, r.raw, r.lanes⟩

/-- shuffle of R154: `n` removals from [0, …, n-1]. `x` is the raw output before it. -/
def shuffle (l : Lanes) (x : DWord) (n : Nat) : Except ErrorCode Shuffled := shuffleLoop n l x (List.range n)

/-- The pseudocode of PRNG_SEED (R156). -/
def prngSeed (s : State) : Except ErrorCode State :=
  let len := s.operands.a0.toNat
  if s.params.seedRamSize < len then .error .badArg
  else .ok { s with lanes := seedLanes s.params (s.memRead .seedRam 0 len) }

/-- PRNG_SEED (R156). -/
def execPrngSeed (s : State) : Host.Outcome State Fault Refusal := s.commit (prngSeed s)

/-- PRNG_SEED_PAIR (R157). -/
def execPrngSeedPair (s : State) : Host.Outcome State Fault Refusal :=
  s.commit (.ok { s with lanes := seedLanes s.params (be32 s.operands.a0 ++ be32 s.operands.a1) })

/-- The low half of a 64-bit value. -/
def lowHalf (x : DWord) : Word := x.extractLsb' 0 32

/-- The high half of a 64-bit value. -/
def highHalf (x : DWord) : Word := x.extractLsb' 32 32

/-- One step of the host stream whose results are the halves of `f x` (R158, R159). -/
def stepHostStream (f : DWord → DWord) (s : State) : State :=
  let st := prngNext s.lanes
  { s with lanes := st.2, prngOut := st.1, res0 := lowHalf (f st.1), res1 := highHalf (f st.1) }

/-- PRNG_NEXT (R158). -/
def execPrngNext (s : State) : Host.Outcome State Fault Refusal := s.commit (.ok (stepHostStream (fun x => x) s))

/-- PRNG_DOUBLE (R159). -/
def execPrngDouble (s : State) : Host.Outcome State Fault Refusal := s.commit (.ok (stepHostStream u2d s))

/-- One nextInt of the host stream, its value in RES0 and 0 in RES1 (R160, R161). -/
def drawHostInt (low high : Nat) (s : State) : Except ErrorCode State :=
  match nextInt s.lanes low high with
  | .error e => .error e
  | .ok d => .ok { s with lanes := d.lanes, prngOut := d.raw, res0 := BitVec.ofNat 32 d.value, res1 := 0 }

/-- The pseudocode of PRNG_INT (R160). -/
def prngInt (s : State) : Except ErrorCode State :=
  let low := s.operands.a0.toNat
  let high := s.operands.a1.toNat
  if high < low then .error .badArg else drawHostInt low high s

/-- PRNG_INT (R160). -/
def execPrngInt (s : State) : Host.Outcome State Fault Refusal := s.commit (prngInt s)

/-- PRNG_BYTE (R161). -/
def execPrngByte (s : State) : Host.Outcome State Fault Refusal := s.commit (drawHostInt 0 255 s)

/-- A selection as the 32-bit entries of SEL_RAM (R162, 44_fountain.md R206). -/
def selEntries (sel : List Nat) : List Word := sel.map (BitVec.ofNat 32)

/-- The first entries of SEL_RAM written with a selection, with SEL_COUNT and SEL_SEQ (10_state.md R50, R51, R55). -/
def State.writeSel (s : State) (sel : List Nat) (seq : Word) : State :=
  { s.memWrite .selRam 0 (bytes32 (selEntries sel)) with selCount := BitVec.ofNat 32 sel.length, selSeq := seq }

/-- The pseudocode of PRNG_SHUFFLE (R162). -/
def prngShuffle (s : State) : Except ErrorCode State :=
  let n := s.operands.a0.toNat
  let k := s.operands.a1.toNat
  if n = 0 ∨ s.params.maxFrags < n then .error .badArg
  else if n < k then .error .badArg
  else
    match shuffle s.lanes s.prngOut n with
    | .error e => .error e
    | .ok r =>
      .ok { s.writeSel (r.perm.take k) 0 with lanes := r.lanes, prngOut := r.raw, res0 := s.operands.a1 }

/-- PRNG_SHUFFLE (R162). -/
def execPrngShuffle (s : State) : Host.Outcome State Fault Refusal := s.commit (prngShuffle s)

end Sys2Proof.Machine
end

