-- ==== Sys2Proof/Machine/Sampler.lean ====
section
/-! DEFINITION. The alias-method sampler unit (43_sampler.md). -/

namespace Sys2Proof.Machine

/-- The harmonic weights of R180: 1 / (i + 1), each rounded to binary64. -/
def harmonicWeights (n : Nat) : List F64 := (List.range n).map fun i => f64div f64One (toF64 (i + 1))

/-- The weight vector of SMP_BUILD (R180). -/
def State.weights (s : State) (m : BitVec 1) (n : Nat) : List F64 :=
  if tableWeights m then (List.range n).map s.wgt else harmonicWeights n

/-- A weight that check 1 of R181 rejects: a NaN, an infinity, or a finite value below zero; -0 is accepted. -/
def badWeight (w : F64) : Bool := !f64Finite w || f64Value w < 0

/-- The sum of check 2 of R181, left to right. An infinite sum stays infinite: adding to it is more than R11 defines (DEDUCED,
log 12). -/
def weightSum (w : List F64) : F64 := w.foldl f64add 0

/-- The checks of R181, in their order; each failing check raises the same error. -/
def weightsOk (w : List F64) (n : Nat) : Bool :=
  !w.any badWeight && (f64Finite (weightSum w) && f64Units (weightSum w) != 0)
    && w.all (fun a => f64Finite (f64mul a (toF64 n)))

/-- An alias table: the probabilities and the aliases, entry by entry (R182). -/
structure AliasTable where
  prob : List F64
  other : List Nat
deriving DecidableEq, Repr

/-- The working state of buildAlias (R182): the scaled weights, the table so far, and the two stacks, top first. -/
structure AliasBuild where
  scaled : List F64
  table : AliasTable
  small : List Nat
  large : List Nat
deriving DecidableEq, Repr

/-- The scaled, normalised weights (R182, line 1). -/
def scaledWeights (w : List F64) (n : Nat) : List F64 :=
  w.map fun a => f64div (f64mul a (toF64 n)) (weightSum w)

/-- The two stacks after the pushes of index n-1 down to 0 (R182). -/
def initialStacks (scaled : List F64) (n : Nat) : List Nat × List Nat :=
  (List.range n).foldr
    (fun i st => if f64lt (scaled.getD i 0) f64One then (i :: st.1, st.2) else (st.1, i :: st.2)) ([], [])

/-- buildAlias before its loops (R182). -/
def aliasStart (w : List F64) (n : Nat) : AliasBuild :=
  let scaled := scaledWeights w n
  let st := initialStacks scaled n
  ⟨scaled, ⟨List.replicate n Config.undefinedProb, List.replicate n 0⟩, st.1, st.2⟩

/-- One turn of the pairing loop with the light index `a` and the heavy index `g` popped (R182). -/
def aliasPair (b : AliasBuild) (a g : Nat) (small large : List Nat) : AliasBuild :=
  let pa := b.scaled.getD a 0
  let pg := f64add (b.scaled.getD g 0) (f64sub pa f64One)
  let table : AliasTable := ⟨b.table.prob.set a pa, b.table.other.set a g⟩
  if f64lt pg f64One then ⟨b.scaled.set g pg, table, g :: small, large⟩
  else ⟨b.scaled.set g pg, table, small, g :: large⟩

/-- The pairing loop (R182), at most `k` turns; the rule says that it takes at most `n`. -/
def aliasLoop : Nat → AliasBuild → AliasBuild
  | 0, b => b
  | k + 1, b =>
    match b.small, b.large with
    | a :: small, g :: large => aliasLoop k (aliasPair b a g small large)
    | _, _ => b

/-- The leftover rule (R182): probability 1.0 for every index still in a stack. -/
def fillOnes (prob : List F64) (indices : List Nat) : List F64 := indices.foldl (fun p i => p.set i f64One) prob

/-- buildAlias of R182. -/
def buildAlias (w : List F64) (n : Nat) : AliasTable :=
  let b := aliasLoop n (aliasStart w n)
  ⟨fillOnes (fillOnes b.table.prob b.large) b.small, b.table.other⟩

/-- What sample of R184 gives: the value, the column, the second raw output, and the lanes. -/
structure Sampled where
  value : Nat
  column : Nat
  raw : DWord
  lanes : Lanes
deriving DecidableEq, Repr

/-- sample of R184, over a table of `n` entries given entry by entry. -/
def sample (l : Lanes) (probAt : Nat → F64) (otherAt : Nat → Nat) (n : Nat) : Except ErrorCode Sampled :=
  let st1 := prngNext l
  let st2 := prngNext st1.2
  if u2d st1.1 = f64One then .error .rngRange
  else
    let i := f64trunc (f64mul (toF64 n) (u2d st1.1))
    .ok ⟨if f64lt (u2d st2.1) (probAt i) then i else otherAt i, i, st2.1, st2.2⟩

/-- What the degree draw gives: the degree and the lanes after it. -/
structure DegreeDrawn where
  degree : Nat
  lanes : Lanes
deriving DecidableEq, Repr

/-- chooseDegree of R186: a draw from the harmonic table of `f` entries, plus one. -/
def chooseDegree (l : Lanes) (f : Nat) : Except ErrorCode DegreeDrawn :=
  let t := buildAlias (harmonicWeights f) f
  match sample l (fun i => t.prob.getD i 0) (fun i => t.other.getD i 0) f with
  | .error e => .error e
  | .ok d => .ok ⟨d.value + 1, d.lanes⟩

/-- The alias table stored from entry 0 up; the entries past it are unchanged (10_state.md R57). -/
def State.writeTable (s : State) (t : AliasTable) : State :=
  (s.memWrite .probRam 0 (bytes64 t.prob)).memWrite .aliasRam 0 (bytes32 (t.other.map (BitVec.ofNat 32)))

/-- The pseudocode of SMP_BUILD (R183). -/
def smpBuild (m : BitVec 1) (s : State) : Except ErrorCode State :=
  let n := s.operands.a0.toNat
  if n = 0 ∨ s.params.maxFrags < n then .error .badArg
  else if !weightsOk (s.weights m n) n then .error .badWeights
  else
    .ok { s.writeTable (buildAlias (s.weights m n) n) with
          smpN := s.operands.a0, smpValid := true, res0 := s.operands.a0 }

/-- SMP_BUILD (R183). -/
def execSmpBuild (m : BitVec 1) (s : State) : Host.Outcome State Fault Refusal := s.commit (smpBuild m s)

/-- The pseudocode of SMP_SAMPLE (R185). -/
def smpSample (s : State) : Except ErrorCode State :=
  if !s.smpValid then .error .notConfigured
  else
    match sample s.lanes s.prob (fun i => (s.aliasOf i).toNat) s.smpN.toNat with
    | .error e => .error e
    | .ok d =>
      .ok { s with
            lanes := d.lanes, prngOut := d.raw, res0 := BitVec.ofNat 32 d.value, res1 := BitVec.ofNat 32 d.column }

/-- SMP_SAMPLE (R185). -/
def execSmpSample (s : State) : Host.Outcome State Fault Refusal := s.commit (smpSample s)

end Sys2Proof.Machine
end

