-- ==== Sys2Proof/Machine/Fountain.lean ====
section
/-! DEFINITION. The fountain selector and mixer unit (44_fountain.md). -/

namespace Sys2Proof.Machine

/-- ceil (a / b) for a positive `b` (00_scope.md R7). -/
def ceilDiv (a b : Nat) : Nat := (a + b - 1) / b

/-- The fragment count of R200: the smallest f ≥ 1 with ceil (L / f) ≤ max, by the closed form ceil (L / max) that R200
gives a datapath. -/
def fragCount (len max : Nat) : Nat := ceilDiv len max

/-- The fragment length of R200. -/
def fragLen (len max : Nat) : Nat := ceilDiv len (fragCount len max)

/-- The checks of R202: true when FTN_CONFIG's operands pass them all. Each failing check raises the same error. -/
def ftnParamsOk (p : Params) (len max min : Nat) : Bool :=
  len != 0 && max != 0 && min != 0 && min ≤ max && len ≤ p.msgRamSize
    && fragCount len max ≤ p.maxFrags && fragLen len max ≤ p.outRamSize

/-- The pseudocode of FTN_CONFIG (R203). The checksum is computed from a fresh remainder over the unpadded message. -/
def ftnConfig (s : State) : Except ErrorCode State :=
  let len := s.operands.a0.toNat
  let max := s.operands.a1.toNat
  let min := s.operands.a2.toNat
  if !ftnParamsOk s.params len max min then .error .badFtnParams
  else
    let f : Word := BitVec.ofNat 32 (fragCount len max)
    let m : Word := BitVec.ofNat 32 (fragLen len max)
    .ok { s with
          ftnMsgLen := s.operands.a0, ftnFragLen := m, ftnFragCount := f,
          ftnChecksum := crc32 (s.memRead .msgRam 0 len), ftnSeqNum := s.operands.a3,
          ftnValid := true, res0 := f, res1 := m }

/-- FTN_CONFIG (R203). -/
def execFtnConfig (s : State) : Host.Outcome State Fault Refusal := s.commit (ftnConfig s)

/-- fragByte of R201, with the virtual zero padding from FTN_MSG_LEN up. -/
def State.fragByte (s : State) (i j : Nat) : Byte :=
  let o := i * s.ftnFragLen.toNat + j
  if o < s.ftnMsgLen.toNat then s.mem.read (Ram.base .msgRam + o) else 0

/-- mix of R207: the exclusive-or of the listed fragments, byte by byte. -/
def State.mix (s : State) (sel : List Nat) : List Byte :=
  (List.range s.ftnFragLen.toNat).map fun j => sel.foldl (fun acc i => acc ^^^ s.fragByte i j) 0

/-- chooseFragments of R205: the pure pass for `seq ≤ f`, else the first `d` indices of a permutation drawn, after the degree
`d`, from a private PRNG seeded with BE32(seq) ‖ BE32(checksum). -/
def chooseFragments (p : Params) (seq f checksum : Word) : Except ErrorCode (List Nat) :=
  if seq.toNat ≤ f.toNat then .ok [seq.toNat - 1]
  else
    match chooseDegree (seedLanes p (be32 seq ++ be32 checksum)) f.toNat with
    | .error e => .error e
    | .ok d =>
      match shuffle d.lanes 0 f.toNat with
      | .error e => .error e
      | .ok r => .ok (r.perm.take d.degree)

/-- The pseudocode of FTN_CHOOSE (R206). -/
def ftnChoose (s : State) : Except ErrorCode State :=
  let seq := s.operands.a0
  if !s.ftnValid then .error .notConfigured
  else if seq = 0 then .error .badArg
  else
    match chooseFragments s.params seq s.ftnFragCount s.ftnChecksum with
    | .error e => .error e
    | .ok sel => .ok { s.writeSel sel seq with res0 := BitVec.ofNat 32 sel.length, res1 := seq }

/-- FTN_CHOOSE (R206). -/
def execFtnChoose (s : State) : Host.Outcome State Fault Refusal := s.commit (ftnChoose s)

/-- The pseudocode of FTN_MIX (R208). -/
def ftnMix (s : State) : Except ErrorCode State :=
  let sel := s.selList s.selCount.toNat
  if !s.ftnValid then .error .notConfigured
  else if sel.any (fun i => s.ftnFragCount.toNat ≤ i.toNat) then .error .badIndex
  else .ok { s.memWrite .outRam 0 (s.mix (sel.map BitVec.toNat)) with res0 := s.selCount, res1 := s.selSeq }

/-- FTN_MIX (R208). -/
def execFtnMix (s : State) : Host.Outcome State Fault Refusal := s.commit (ftnMix s)

/-- The pseudocode of FTN_NEXT (R209): the next part. -/
def ftnNext (s : State) : Except ErrorCode State :=
  if !s.ftnValid then .error .notConfigured
  else if s.ftnSeqNum = 0xFFFFFFFF then .error .seqOverflow
  else
    let seq := s.ftnSeqNum + 1
    match chooseFragments s.params seq s.ftnFragCount s.ftnChecksum with
    | .error e => .error e
    | .ok sel =>
      .ok { (s.writeSel sel seq).memWrite .outRam 0 (s.mix sel) with
            ftnSeqNum := seq, res0 := BitVec.ofNat 32 sel.length, res1 := seq }

/-- FTN_NEXT (R209). -/
def execFtnNext (s : State) : Host.Outcome State Fault Refusal := s.commit (ftnNext s)

/-- The pseudocode of FTN_SEEK (R210). -/
def ftnSeek (s : State) : Except ErrorCode State :=
  if !s.ftnValid then .error .notConfigured else .ok { s with ftnSeqNum := s.operands.a0 }

/-- FTN_SEEK (R210). -/
def execFtnSeek (s : State) : Host.Outcome State Fault Refusal := s.commit (ftnSeek s)

/-- FTN_CLEAR (R211). -/
def execFtnClear (s : State) : Host.Outcome State Fault Refusal := s.commit (.ok { s with ftnValid := false })

end Sys2Proof.Machine
end

