-- ==== Sys2Proof/Machine/Bus.lean ====
section
/-! DEFINITION. The host port: the register map (10_state.md R21), the address map and the legal accesses (20_memory.md R70 to
R79), what reads and writes do, and the busy rules (70_reset_and_hazards.md R274 to R276). -/

namespace Sys2Proof.Machine

/-! ### The maps -/

/-- The register map of 10_state.md R21: offset and register. -/
def registerMap : List (Nat × Reg) :=
  [(0x000, .id), (0x004, .version), (0x008, .ctrl), (0x00C, .status), (0x010, .cmd),
   (0x014, .arg0), (0x018, .arg1), (0x01C, .arg2), (0x020, .arg3), (0x024, .res0), (0x028, .res1),
   (0x030, .crcState), (0x034, .crcResult),
   (0x040, .prngS0Lo), (0x044, .prngS0Hi), (0x048, .prngS1Lo), (0x04C, .prngS1Hi),
   (0x050, .prngS2Lo), (0x054, .prngS2Hi), (0x058, .prngS3Lo), (0x05C, .prngS3Hi),
   (0x060, .prngOutLo), (0x064, .prngOutHi), (0x068, .prngDblLo), (0x06C, .prngDblHi), (0x070, .smpN),
   (0x080, .ftnMsgLen), (0x084, .ftnFragLen), (0x088, .ftnFragCount), (0x08C, .ftnChecksum), (0x090, .ftnSeqNum),
   (0x094, .selCount), (0x098, .selSeq)]

/-- The register at an offset of the register window; none where the window is unmapped (R21). -/
def regAt (offset : Nat) : Option Reg := registerMap.lookup offset

/-- The RAM of a window by the window's number, address bits 18:16 (20_memory.md R71); none for the register window. -/
def windowRam : Nat → Option Ram
  | 1 => some .msgRam
  | 2 => some .seedRam
  | 3 => some .outRam
  | 4 => some .selRam
  | 5 => some .wgtRam
  | 6 => some .probRam
  | 7 => some .aliasRam
  | _ => none

/-- The bytes of an access (R70). -/
def Size.bytes : Size → Nat
  | .byte => 1
  | .half => 2
  | .word => 4

/-- What a legal access addresses: a register, or a RAM from an offset up. -/
inductive Target where
  | reg (r : Reg)
  | ram (r : Ram) (offset : Nat)
deriving DecidableEq, Repr

/-- The target of an access, or a bus error (R72, R73, R74). -/
def busTarget (p : Params) (size : Size) (addr : BusAddr) : Except Fault Target :=
  let o := addr.toNat % 0x10000
  match windowRam (addr.toNat / 0x10000) with
  | none =>
    match regAt o with
    | some r => if size = .word then .ok (.reg r) else .error (.busError addr)
    | none => .error (.busError addr)
  | some r =>
    if o % size.bytes = 0 ∧ o + size.bytes ≤ r.size p then .ok (.ram r o) else .error (.busError addr)

/-! ### Reads -/

/-- What a register reads as (10_state.md R22 to R51). -/
def State.readReg (s : State) : Reg → Word
  | .id => 0x55524643
  | .version => 0x00010007
  | .ctrl => s.ctrlWord
  | .status => s.statusWord
  | .cmd => s.cmdLast
  | .arg0 => s.args.a0
  | .arg1 => s.args.a1
  | .arg2 => s.args.a2
  | .arg3 => s.args.a3
  | .res0 => s.res0
  | .res1 => s.res1
  | .crcState => s.crcState
  | .crcResult => s.crcResult
  | .prngS0Lo => lowHalf s.lanes.s0
  | .prngS0Hi => highHalf s.lanes.s0
  | .prngS1Lo => lowHalf s.lanes.s1
  | .prngS1Hi => highHalf s.lanes.s1
  | .prngS2Lo => lowHalf s.lanes.s2
  | .prngS2Hi => highHalf s.lanes.s2
  | .prngS3Lo => lowHalf s.lanes.s3
  | .prngS3Hi => highHalf s.lanes.s3
  | .prngOutLo => lowHalf s.prngOut
  | .prngOutHi => highHalf s.prngOut
  | .prngDblLo => lowHalf s.prngDbl
  | .prngDblHi => highHalf s.prngDbl
  | .smpN => s.smpN
  | .ftnMsgLen => s.ftnMsgLen
  | .ftnFragLen => s.ftnFragLen
  | .ftnFragCount => s.ftnFragCount
  | .ftnChecksum => s.ftnChecksum
  | .ftnSeqNum => s.ftnSeqNum
  | .selCount => s.selCount
  | .selSeq => s.selSeq

/-- The registers and RAMs that no command writes: their reads are defined while busy (70_reset_and_hazards.md R276). -/
def Target.stableWhileBusy : Target → Bool
  | .reg .id | .reg .version | .reg .ctrl | .reg .status | .reg .cmd => true
  | .reg .arg0 | .reg .arg1 | .reg .arg2 | .reg .arg3 => true
  | .reg _ => false
  | .ram .msgRam _ | .ram .seedRam _ | .ram .wgtRam _ => true
  | .ram .outRam _ | .ram .selRam _ | .ram .probRam _ | .ram .aliasRam _ => false

/-- The value a defined read returns; RAM bytes travel little-endian (20_memory.md R75). -/
def State.readTarget (s : State) (size : Size) : Target → Word
  | .reg r => s.readReg r
  | .ram r o => BitVec.ofNat 32 (fromLE (s.memRead r o size.bytes))

/-- Read data in the data bits of an access of this size (R75). -/
def readData (size : Size) (v : Word) : Response :=
  match size with
  | .byte => .data8 (v.setWidth 8)
  | .half => .data16 (v.setWidth 16)
  | .word => .data32 v

/-- A legal read (R82: it changes nothing). While busy, a read of state that a command may write returns a free value, a fresh
one each time (R276, log 8). -/
def State.serveRead (s : State) (size : Size) (t : Target) : State :=
  if s.busy && !t.stableWhileBusy then
    { s with resp := some (readData size (Config.busyRead s.draws)), draws := s.draws + 1 }
  else { s with resp := some (readData size (s.readTarget size t)) }

/-! ### Writes -/

/-- A write to CTRL (10_state.md R24): SRST starts a soft reset and the other bits are then ignored (R271); else IE is
written. -/
def State.writeCtrl (s : State) (v : Word) : State :=
  if v.getLsbD 1 then s.softReset else { s with ie := v.getLsbD 0 }

/-- The clock cycles that the command `w` takes, at least one (R281, log 3). -/
def latencyOf (p : Params) (draw : Nat) (w : Word) : Nat :=
  match p.latency with
  | .fixed extra => extra + 1
  | .other k => Config.latency k draw w + 1

/-- Acceptance (40_control.md R110): the word and the four arguments are latched, and BUSY rises. -/
def State.accept (s : State) (w : Word) : State :=
  { s with
    cmdLast := w
    pending := some ⟨w, s.args, latencyOf s.params s.draws w⟩
    draws := s.draws + 1 }

/-- A write to CMD (10_state.md R35): accepted when idle, rejected with CMDREJ while busy (R274). -/
def State.writeCmd (s : State) (w : Word) : State := if s.busy then { s with cmdRej := true } else s.accept w

/-- A write to writable state is dropped with WDROP while busy (R275). -/
def State.unlessBusy (s : State) (t : State) : State := if s.busy then { s with wDrop := true } else t

/-- A lane with its low half replaced (10_state.md R41). -/
def withLowHalf (x : DWord) (v : Word) : DWord := highHalf x ++ v

/-- A lane with its high half replaced (R41). -/
def withHighHalf (x : DWord) (v : Word) : DWord := v ++ lowHalf x

/-- A write to a register. A write to a read-only register is ignored and sets no flag (R24). -/
def State.writeReg (s : State) (v : Word) : Reg → State
  | .ctrl => s.writeCtrl v
  | .status => s.writeStatus v
  | .cmd => s.writeCmd v
  | .arg0 => s.unlessBusy { s with args.a0 := v }
  | .arg1 => s.unlessBusy { s with args.a1 := v }
  | .arg2 => s.unlessBusy { s with args.a2 := v }
  | .arg3 => s.unlessBusy { s with args.a3 := v }
  | .prngS0Lo => s.unlessBusy { s with lanes.s0 := withLowHalf s.lanes.s0 v }
  | .prngS0Hi => s.unlessBusy { s with lanes.s0 := withHighHalf s.lanes.s0 v }
  | .prngS1Lo => s.unlessBusy { s with lanes.s1 := withLowHalf s.lanes.s1 v }
  | .prngS1Hi => s.unlessBusy { s with lanes.s1 := withHighHalf s.lanes.s1 v }
  | .prngS2Lo => s.unlessBusy { s with lanes.s2 := withLowHalf s.lanes.s2 v }
  | .prngS2Hi => s.unlessBusy { s with lanes.s2 := withHighHalf s.lanes.s2 v }
  | .prngS3Lo => s.unlessBusy { s with lanes.s3 := withLowHalf s.lanes.s3 v }
  | .prngS3Hi => s.unlessBusy { s with lanes.s3 := withHighHalf s.lanes.s3 v }
  | .id | .version | .res0 | .res1 | .crcState | .crcResult | .prngOutLo | .prngOutHi | .prngDblLo | .prngDblHi
  | .smpN | .ftnMsgLen | .ftnFragLen | .ftnFragCount | .ftnChecksum | .ftnSeqNum | .selCount | .selSeq => s

/-- A write to a RAM: MSG_RAM is locked by FTN_VALID (20_memory.md R79), OUT_RAM, PROB_RAM and ALIAS_RAM ignore it (R78), and
while busy it is dropped (R275). -/
def State.writeRam (s : State) (r : Ram) (o : Nat) (bytes : List Byte) : State :=
  match r with
  | .msgRam => if s.ftnValid then { s with wDrop := true } else s.unlessBusy (s.memWrite r o bytes)
  | .seedRam | .selRam | .wgtRam => s.unlessBusy (s.memWrite r o bytes)
  | .outRam | .probRam | .aliasRam => s

/-- A legal write: the low data bits of the access's width (R75). -/
def State.serveWrite (s : State) (size : Size) (t : Target) (v : Word) : State :=
  { (match t with
     | .reg r => s.writeReg v r
     | .ram r o => s.writeRam r o (toLE size.bytes v.toNat)) with resp := some .ack }

/-! ### One access -/

/-- A host access served, or its fault (R74). -/
def State.access (s : State) : Access → Except Fault State
  | .read size addr =>
    match busTarget s.params size addr with
    | .ok t => .ok (s.serveRead size t)
    | .error e => .error e
  | .write size addr v =>
    match busTarget s.params size addr with
    | .ok t => .ok (s.serveWrite size t v)
    | .error e => .error e

/-- The error response of R74: read data 0 for a read. -/
def errorResponse : Access → Response
  | .read _ _ => .errorRead 0
  | .write _ _ _ => .errorWrite

/-- A host access with its response. A bus error changes no state of the block, and the host gets the error response
(R74, log 7). -/
def State.hostAccess (s : State) (a : Access) : State :=
  match s.access a with
  | .ok t => t
  | .error _ => { s with resp := some (errorResponse a) }

/-- The host's part of a clock cycle: the next place of its accesses (log 6). -/
def State.hostPhase (s : State) : State :=
  match s.host with
  | [] => s
  | none :: rest => { s with host := rest }
  | some a :: rest => State.hostAccess { s with host := rest } a

end Sys2Proof.Machine
end

