-- ==== Sys2Proof/Machine/Control.lean ====
section
/-! DEFINITION. The control family (40_control.md): NOP. -/

namespace Sys2Proof.Machine

/-- NOP (R113): nothing but the completion. -/
def execNop (s : State) : Host.Outcome State Fault Refusal := s.commit (.ok s)

end Sys2Proof.Machine
end

