-- ==== Sys2Proof/Machine/Dispatch.lean ====
section
/-! DEFINITION. exec: one arm per command, each a direct call of its meaning. -/

namespace Sys2Proof.Machine

/-- The effect of a command, run to its completion (40_control.md R111). -/
def exec (i : Instr) (s : State) : Host.Outcome State Fault Refusal :=
  match i with
  -- control (40_control.md)
  | .nop => Sys2Proof.Machine.execNop s
  -- CRC32 unit (41_crc.md)
  | .crcInit => Sys2Proof.Machine.execCrcInit s
  | .crcByte b => Sys2Proof.Machine.execCrcByte b s
  | .crcBuf m => Sys2Proof.Machine.execCrcBuf m s
  -- PRNG unit (42_prng.md)
  | .prngSeed => Sys2Proof.Machine.execPrngSeed s
  | .prngSeedPair => Sys2Proof.Machine.execPrngSeedPair s
  | .prngNext => Sys2Proof.Machine.execPrngNext s
  | .prngDouble => Sys2Proof.Machine.execPrngDouble s
  | .prngInt => Sys2Proof.Machine.execPrngInt s
  | .prngByte => Sys2Proof.Machine.execPrngByte s
  | .prngShuffle => Sys2Proof.Machine.execPrngShuffle s
  -- sampler unit (43_sampler.md)
  | .smpBuild m => Sys2Proof.Machine.execSmpBuild m s
  | .smpSample => Sys2Proof.Machine.execSmpSample s
  -- fountain unit (44_fountain.md)
  | .ftnConfig => Sys2Proof.Machine.execFtnConfig s
  | .ftnNext => Sys2Proof.Machine.execFtnNext s
  | .ftnChoose => Sys2Proof.Machine.execFtnChoose s
  | .ftnMix => Sys2Proof.Machine.execFtnMix s
  | .ftnSeek => Sys2Proof.Machine.execFtnSeek s
  | .ftnClear => Sys2Proof.Machine.execFtnClear s

end Sys2Proof.Machine
end

