-- ==== Sys2Proof/Machine/Sequencer.lean ====
section
/-! DEFINITION. The sequencer (40_control.md R110, R111): it decodes the pending word, runs the command and completes it when
its cycles are over. -/

namespace Sys2Proof.Machine

/-- The error code of a word that is no command (30_encoding.md R91). -/
def decodeErrorCode : DecodeError → ErrorCode
  | .illegalOpcode => .illegalOpcode
  | .reservedField => .reservedField

/-- The command in the word `w`, run to its completion; a word that is no command completes with its error (R91, R94, R95). -/
def runWord (w : Word) (s : State) : Host.Outcome State Fault Refusal :=
  match decode w with
  | .ok i => exec i s
  | .error e => s.commit (.error (decodeErrorCode e))

/-- The sequencer's part of a clock cycle: nothing when idle, one cycle less when the command has more than one left, else
the completion (R111, R281). -/
def sequencerPhase (s : State) : Host.Outcome State Fault Refusal :=
  match s.pending with
  | none => .next s
  | some p =>
    if p.cyclesLeft ≤ 1 then runWord p.word s
    else .next { s with pending := some { p with cyclesLeft := p.cyclesLeft - 1 } }

/-- One clock cycle: the host's access, then the sequencer, which works on a command that was pending when the cycle began
(DEDUCED, log 5). A completion in the cycle of a W1C write so ends with its bit set (10_state.md R25), and a soft reset in the
cycle of a completion aborts the command. -/
def cycle (s : State) : Host.Outcome State Fault Refusal :=
  if s.busy then sequencerPhase s.hostPhase else .next s.hostPhase

/-- The state in which the very next cycle completes a command with word `w`: it has been accepted (R110) with the ARG
registers as they stand, its last cycle has come, and the host makes no access in that cycle (log 6). -/
def State.withPendingWord (s : State) (w : Word) : State :=
  { s with cmdLast := w, pending := some ⟨w, s.args, 1⟩, host := none :: s.host }

end Sys2Proof.Machine
end

