-- ==== Sys2Proof/Machine/Step.lean ====
section
/-! DEFINITION. The step of the machine: one clock cycle. -/

namespace Sys2Proof.Machine

/-- One step: one clock cycle of the block and its host. -/
def step (s : State) : Host.Outcome State Fault Refusal := cycle s

/-- `s` with the command word `w mod 2^nbits` pending, so that the very next step runs it (log 6). -/
def State.withFetchWord (s : State) (nbits w : Nat) : State := s.withPendingWord (BitVec.ofNat 32 (w % 2 ^ nbits))

end Sys2Proof.Machine
end

