-- ==== Sys2Proof/WellFormed.lean ====
section
/-! DEFINITION. Well-formedness. The fields of a command have exactly the widths of format C (30_encoding.md R90), so
every command is well formed and no ill-formed one can be built. The checks that can fail are those on the parameters:
the legal ranges of 00_scope.md R6. -/

namespace Sys2Proof

/-- A command is well formed when its fields fit format C (R90): their types say so. -/
def Instr.wellFormed : Instr → Bool
  | .nop | .crcInit | .prngSeed | .prngSeedPair | .prngNext | .prngDouble | .prngInt | .prngByte | .prngShuffle
  | .smpSample | .ftnConfig | .ftnNext | .ftnChoose | .ftnMix | .ftnSeek | .ftnClear => true
  | .crcByte b => b.toNat < 256
  | .crcBuf m | .smpBuild m => m.toNat < 2

/-- MSG_RAM_SIZE is in its legal range (R6). -/
def Params.msgRamSizeLegal (p : Params) : Bool := 1 ≤ p.msgRamSize && p.msgRamSize ≤ 65536

/-- SEED_RAM_SIZE is in its legal range (R6). -/
def Params.seedRamSizeLegal (p : Params) : Bool := 8 ≤ p.seedRamSize && p.seedRamSize ≤ 65536

/-- OUT_RAM_SIZE is in its legal range (R6). -/
def Params.outRamSizeLegal (p : Params) : Bool := 1 ≤ p.outRamSize && p.outRamSize ≤ 65536

/-- MAX_FRAGS is in its legal range (R6). -/
def Params.maxFragsLegal (p : Params) : Bool := 1 ≤ p.maxFrags && p.maxFrags ≤ 8192

/-- The parameters are in the legal ranges of R6. -/
def Params.wellFormed (p : Params) : Bool :=
  p.msgRamSizeLegal && p.seedRamSizeLegal && p.outRamSizeLegal && p.maxFragsLegal

end Sys2Proof
end

