-- ==== Sys2Proof/Safety.lean ====
section
/-! DEFINITION. What counts as a safe run, in the terms that claims use: the invariant that power-on establishes and every
step keeps. No step of this machine stops, so a run is safe when every state of it meets the invariant. -/

namespace Sys2Proof.Machine

/-- The latch (10_state.md R58, 40_control.md R110, 20_memory.md R86): while a command is pending, CMD reads its word, the ARG
registers still hold the latched arguments, and it has at least one cycle left (R281). -/
def State.latchOk (s : State) : Prop :=
  ∀ p, s.pending = some p → p.word = s.cmdLast ∧ p.args = s.args ∧ 1 ≤ p.cyclesLeft

/-- The held table (10_state.md R32, R44; 43_sampler.md R187): while SMP_VALID is 1, SMP_N is a legal size and every alias is
an index of the table. -/
def State.samplerOk (s : State) : Prop :=
  s.smpValid = true →
    1 ≤ s.smpN.toNat ∧ s.smpN.toNat ≤ s.params.maxFrags ∧
      ∀ i, i < s.smpN.toNat → (s.aliasOf i).toNat < s.smpN.toNat

/-- The held configuration (20_memory.md R79; 44_fountain.md R200, R202, R203): while FTN_VALID is 1 the message lies in
MSG_RAM, the fragments fit the tables and cover the message, and FTN_CHECKSUM is the CRC32 of the message as it stands. -/
def State.fountainOk (s : State) : Prop :=
  s.ftnValid = true →
    (1 ≤ s.ftnMsgLen.toNat ∧ s.ftnMsgLen.toNat ≤ s.params.msgRamSize) ∧
    (1 ≤ s.ftnFragCount.toNat ∧ s.ftnFragCount.toNat ≤ s.params.maxFrags) ∧
    (1 ≤ s.ftnFragLen.toNat ∧ s.ftnFragLen.toNat ≤ s.params.outRamSize) ∧
    (s.ftnFragCount.toNat - 1) * s.ftnFragLen.toNat < s.ftnMsgLen.toNat ∧
    s.ftnMsgLen.toNat ≤ s.ftnFragCount.toNat * s.ftnFragLen.toNat ∧
    s.ftnChecksum = crc32 (s.memRead .msgRam 0 s.ftnMsgLen.toNat)

/-- The invariant of the block. -/
structure State.Inv (s : State) : Prop where
  /-- The parameters are in their legal ranges (00_scope.md R6). -/
  params : s.params.wellFormed = true
  /-- The memory is in its canonical form. -/
  mem : s.mem.wf = true
  /-- The latch. -/
  latch : s.latchOk
  /-- The selection fits SEL_RAM (10_state.md R50, R55). -/
  sel : s.selCount.toNat ≤ s.params.maxFrags
  /-- The held table. -/
  sampler : s.samplerOk
  /-- The held configuration. -/
  fountain : s.fountainOk

end Sys2Proof.Machine
end

