-- ==== Sys2Proof/Certificates/Slice0/Obligations.lean ====
section
/-! DEFINITION. The statements for the provers, each a Prop that formalises rules of spec/, after the few notions they share. -/

namespace Sys2Proof.Machine

/-- The row of the opcode map for one opcode: every word with it is the command of the row when its fixed bits match, and
RESERVED_FIELD otherwise (30_encoding.md R91, R93, R95). -/
def encodedAs (opc : Byte) (mask fixed : Word) (i : Word → Instr) : Prop :=
  ∀ w : Word, w.extractLsb' 0 8 = opc → decode w = if w &&& mask = fixed then .ok (i w) else .error .reservedField

/-- A completion with OK (40_control.md R111): DONE set, ERRCODE 0x00, not busy, nothing else. -/
def okState (t : State) : State := { t with errCode := .ok, done := true, pending := none }

/-- A completion with an error (60_exceptions.md R243): DONE and ERR set, the code, not busy, nothing else. -/
def errorState (s : State) (e : ErrorCode) : State := { s with errCode := e, err := true, done := true, pending := none }

/-- `s` as a command finds it in its last cycle: the host has written the arguments to the ARG registers and the command's word
to CMD, and it was accepted with the arguments latched (40_control.md R110). -/
def State.issued (s : State) (i : Instr) (a : Args) : State :=
  { s with args := a, cmdLast := encode i, pending := some ⟨encode i, a, 1⟩ }

/-- The state after commands issued one after another with their arguments; none as soon as one does not complete with OK. -/
def runIssued : List (Instr × Args) → State → Option State
  | [], s => some s
  | c :: cs, s =>
    match exec c.1 (s.issued c.1 c.2) with
    | .next t => if t.errCode = .ok then runIssued cs t else none
    | .fault _ => none
    | .refused _ => none

/-- A CRC_BYTE, or a CRC_BUF whose range lies in its RAM (41_crc.md R134, R135). -/
abbrev crcPieceOk (s : State) (c : Instr × Args) : Prop :=
  match c.1 with
  | .crcByte _ => True
  | .crcBuf m => c.2.a0.toNat + c.2.a1.toNat ≤ (if m = 0 then s.params.msgRamSize else s.params.seedRamSize)
  | _ => False

/-- The bytes that a CRC_BYTE or a CRC_BUF folds in. -/
def crcPieceBytes (s : State) (c : Instr × Args) : List Byte :=
  match c.1 with
  | .crcByte b => [b]
  | .crcBuf m =>
    (List.range c.2.a1.toNat).map fun k => s.mem.read ((if m = 0 then 0x10000 else 0x20000) + c.2.a0.toNat + k)
  | _ => []

/-- `s` idle with these arguments in the ARG registers; exec there is the command run at its acceptance (log 14). -/
def State.withArgs (s : State) (a : Args) : State := { s with args := a, pending := none }

/-- BE32 of 00_scope.md R8, byte by byte: the most significant byte first. -/
def bigEndianBytes (v : Word) : List Byte :=
  [v.extractLsb' 24 8, v.extractLsb' 16 8, v.extractLsb' 8 8, v.extractLsb' 0 8]

/-- The lanes of a digest, byte by byte (42_prng.md R151): eight bytes a lane, the first of them the most significant (R8). -/
def bigEndianLanes (d : Digest) : Lanes :=
  ⟨d[0] ++ d[1] ++ d[2] ++ d[3] ++ d[4] ++ d[5] ++ d[6] ++ d[7],
   d[8] ++ d[9] ++ d[10] ++ d[11] ++ d[12] ++ d[13] ++ d[14] ++ d[15],
   d[16] ++ d[17] ++ d[18] ++ d[19] ++ d[20] ++ d[21] ++ d[22] ++ d[23],
   d[24] ++ d[25] ++ d[26] ++ d[27] ++ d[28] ++ d[29] ++ d[30] ++ d[31]⟩

/-- The lanes after `k` steps of the PRNG (42_prng.md R150). -/
def lanesAfter (l : Lanes) : Nat → Lanes
  | 0 => l
  | k + 1 => (prngNext (lanesAfter l k)).2

/-- The raw output of step `k`, from 0. -/
def rawAt (l : Lanes) (k : Nat) : DWord := (prngNext (lanesAfter l k)).1

/-- The raw outputs that form an index: their nextDouble is not 1.0 (42_prng.md R152). -/
abbrev drawable (x : DWord) : Prop := x.toNat < 2 ^ 64 - 1024

/-- The integer form of nextInt's index over `n` values (42_prng.md R153). -/
def intDraw (n : Nat) (x : DWord) : Nat := rne53 (n * rne53 x.toNat) / 2 ^ 64

/-- Removal without replacement, `k` times, by the integer form of the index (42_prng.md R154). -/
def removal (l : Lanes) : Nat → List Nat → List Nat
  | 0, _ => []
  | k + 1, rem =>
    rem.getD (intDraw rem.length (rawAt l 0)) 0
      :: removal (lanesAfter l 1) k (rem.eraseIdx (intDraw rem.length (rawAt l 0)))

/-- The value of a finite binary64 pattern, (-1)^s * m * 2^e (00_scope.md R11). -/
def f64Real (a : F64) : ℚ :=
  (if a.getLsbD 63 then -1 else 1) *
    (if a.extractLsb' 52 11 = 0 then ((a.extractLsb' 0 52).toNat : ℚ) * 2 ^ (-1074 : ℤ)
     else ((2 ^ 52 + (a.extractLsb' 0 52).toNat : ℕ) : ℚ) * 2 ^ (((a.extractLsb' 52 11).toNat : ℤ) - 1075))

/-- A binary64 pattern whose exponent field is all ones: an infinity or a NaN (00_scope.md R11). -/
abbrev notFinite (a : F64) : Prop := a.extractLsb' 52 11 = 0x7FF

/-- `c` is the real `r` rounded to binary64 (R11): an infinity of its sign from 2^1024 - 2^970 up, else a finite value nearest
`r`, on a tie the one whose significand is even. The sign of a zero is left open. -/
def roundsTo (r : ℚ) (c : F64) : Prop :=
  ((2 : ℚ) ^ 1024 - 2 ^ 970 ≤ |r| → c = if r < 0 then 0xFFF0000000000000 else 0x7FF0000000000000) ∧
  (|r| < (2 : ℚ) ^ 1024 - 2 ^ 970 →
    ¬notFinite c ∧
    ∀ d : F64, ¬notFinite d →
      |f64Real c - r| ≤ |f64Real d - r| ∧
      (f64Real d ≠ f64Real c → |f64Real d - r| = |f64Real c - r| → c.getLsbD 0 = false))

/-- A pattern below zero: its sign is set and the rest is not zero, so -0 is not one (R11). -/
abbrev belowZero (a : F64) : Prop := a.getLsbD 63 = true ∧ a.extractLsb' 0 63 ≠ 0

/-- The three checks of 43_sampler.md R181, one of which fails: a weight that is a NaN, infinite or below zero; a sum, from left
to right, that is infinite or zero; a weight whose product with `n` is infinite. -/
def badWeights (w : List F64) (n : Nat) : Prop :=
  (∃ a ∈ w, notFinite a ∨ belowZero a) ∨
  (notFinite (w.foldl f64add 0) ∨ (w.foldl f64add 0).extractLsb' 0 63 = 0) ∨
  ∃ a ∈ w, notFinite (f64mul a (toF64 n))

/-- The harmonic weights of 43_sampler.md R180: 1.0 divided by i + 1. -/
def harmonicList (n : Nat) : List F64 := (List.range n).map fun i => f64div 0x3FF0000000000000 (toF64 (i + 1))

/-- A table is what the pseudocode of 43_sampler.md R182 leaves for the weights `w` over `n` entries: there is a run of `k`
turns, with the scaled weights `P j` and the stacks `small j` and `large j`, top first, before turn `j`.
- It starts from the weights times `n` by their sum, the light ones below 1.0 in one stack and the others in the other, the
  lowest index on top.
- A turn pops a light index and a heavy one, settles the probability and the alias of the light one, gives the surplus away,
  and pushes the heavy one where it now belongs.
- It ends when a stack is empty, with probability 1.0 and alias 0 for every index left over; every index was settled or is left
  over; and one that was never light has probability 1.0 and alias 0 (R187). -/
def aliasTableOf (w : List F64) (n : Nat) (table : AliasTable) : Prop :=
  ∃ (k : Nat) (P : Nat → Nat → F64) (small large : Nat → List Nat),
    (∀ i, i < n → P 0 i = f64div (f64mul (w.getD i 0) (toF64 n)) (w.foldl f64add 0)) ∧
    small 0 = (List.range n).filter (fun i => f64lt (P 0 i) 0x3FF0000000000000) ∧
    large 0 = (List.range n).filter (fun i => !f64lt (P 0 i) 0x3FF0000000000000) ∧
    (∀ j, j < k → ∃ (a g : Nat) (lights heavies : List Nat),
      small j = a :: lights ∧ large j = g :: heavies ∧
      table.prob.getD a 0 = P j a ∧ table.other.getD a 0 = g ∧
      P (j + 1) g = f64add (P j g) (f64sub (P j a) 0x3FF0000000000000) ∧
      (∀ i, i ≠ g → P (j + 1) i = P j i) ∧
      if f64lt (P (j + 1) g) 0x3FF0000000000000 then small (j + 1) = g :: lights ∧ large (j + 1) = heavies
      else small (j + 1) = lights ∧ large (j + 1) = g :: heavies) ∧
    (small k = [] ∨ large k = []) ∧
    (∀ i ∈ small k ++ large k, table.prob.getD i 0 = 0x3FF0000000000000 ∧ table.other.getD i 0 = 0) ∧
    (∀ i, i < n → i ∈ small k ++ large k ∨ ∃ j, j < k ∧ (small j).head? = some i) ∧
    ∀ i, i < n → (∀ j, j ≤ k → i ∉ small j) →
      table.prob.getD i 0 = 0x3FF0000000000000 ∧ table.other.getD i 0 = 0

/-- The degree drawn over `f` fragments by the first two raw outputs from `l`: one more than the column of the harmonic table,
in the integer form of the index, or than its alias (43_sampler.md R184, R186). -/
def degreeOf (l : Lanes) (f : Nat) : Nat :=
  let table := buildAlias (harmonicList f) f
  let column := intDraw f (rawAt l 0)
  1 + if f64lt (u2d (rawAt l 1)) (table.prob.getD column 0) then column else table.other.getD column 0

/-- The private generator of a fountain selection (44_fountain.md R205). -/
def privateLanes (p : Params) (seq checksum : Word) : Lanes :=
  bigEndianLanes (hashOf p (bigEndianBytes seq ++ bigEndianBytes checksum))

/-- No index draw of the selection of `seq` gives 1.0: the degree's column, which is step 0, and the `f` steps of the shuffle,
which start at step 2. Step 1 forms no index (43_sampler.md R184). -/
abbrev drawsInRange (p : Params) (seq f checksum : Word) : Prop :=
  seq.toNat ≤ f.toNat ∨
    (drawable (rawAt (privateLanes p seq checksum) 0) ∧
      ∀ j, j < f.toNat → drawable (rawAt (privateLanes p seq checksum) (2 + j)))

/-- Every byte of memory outside `n` bytes from `lo` up reads as before. -/
def sameOutside (s t : State) (lo n : Nat) : Prop := ∀ a, a < lo ∨ lo + n ≤ a → t.mem.read a = s.mem.read a

/-- `s` after the host's part of a cycle: its next place is taken from the list, and the access that stands there, if any, is
served (20_memory.md R83; the list is log 6's). -/
def State.served (s : State) : State :=
  match s.host with
  | some a :: rest => State.hostAccess { s with host := rest } a
  | _ => { s with host := s.host.tail }

/-- The host's access of this cycle starts a soft reset (10_state.md R24, 70_reset_and_hazards.md R271). -/
abbrev resetNow (s : State) : Prop :=
  ∃ (v : Word) (rest : List (Option Access)), s.host = some (.write .word 0x00008 v) :: rest ∧ v.getLsbD 1 = true

/-- The opcodes of the map (30_encoding.md R93). -/
def legalOpcodes : List Byte :=
  [0x00, 0x01, 0x02, 0x03, 0x10, 0x11, 0x12, 0x13, 0x14, 0x15, 0x16, 0x20, 0x21, 0x30, 0x31, 0x32, 0x33, 0x34, 0x35]

/-- The offsets of the register window and what a read there returns after power-on (10_state.md R21,
70_reset_and_hazards.md R270). -/
def resetReads : List (Nat × Word) :=
  [(0x000, 0x55524643), (0x004, 0x00010007), (0x008, 0), (0x00C, 0), (0x010, 0), (0x014, 0), (0x018, 0), (0x01C, 0)] ++
  [(0x020, 0), (0x024, 0), (0x028, 0), (0x030, 0xFFFFFFFF), (0x034, 0), (0x040, 0), (0x044, 0), (0x048, 0)] ++
  [(0x04C, 0), (0x050, 0), (0x054, 0), (0x058, 0), (0x05C, 0), (0x060, 0), (0x064, 0), (0x068, 0), (0x06C, 0)] ++
  [(0x070, 0), (0x080, 0), (0x084, 0), (0x088, 0), (0x08C, 0), (0x090, 0), (0x094, 0), (0x098, 0)]

/-- What a read of each register of the register window returns, by offset (10_state.md R21 to R51). -/
def registerValues (s : State) : List (Nat × Word) :=
  [(0x000, 0x55524643), (0x004, 0x00010007), (0x008, if s.ie then 1 else 0), (0x00C, s.statusWord), (0x010, s.cmdLast),
   (0x014, s.args.a0), (0x018, s.args.a1), (0x01C, s.args.a2), (0x020, s.args.a3), (0x024, s.res0), (0x028, s.res1),
   (0x030, s.crcState), (0x034, s.crcState ^^^ 0xFFFFFFFF),
   (0x040, s.lanes.s0.extractLsb' 0 32), (0x044, s.lanes.s0.extractLsb' 32 32),
   (0x048, s.lanes.s1.extractLsb' 0 32), (0x04C, s.lanes.s1.extractLsb' 32 32),
   (0x050, s.lanes.s2.extractLsb' 0 32), (0x054, s.lanes.s2.extractLsb' 32 32),
   (0x058, s.lanes.s3.extractLsb' 0 32), (0x05C, s.lanes.s3.extractLsb' 32 32),
   (0x060, s.prngOut.extractLsb' 0 32), (0x064, s.prngOut.extractLsb' 32 32),
   (0x068, (u2d s.prngOut).extractLsb' 0 32), (0x06C, (u2d s.prngOut).extractLsb' 32 32), (0x070, s.smpN),
   (0x080, s.ftnMsgLen), (0x084, s.ftnFragLen), (0x088, s.ftnFragCount), (0x08C, s.ftnChecksum), (0x090, s.ftnSeqNum),
   (0x094, s.selCount), (0x098, s.selSeq)]

/-- The little-endian word at bus address `a` (20_memory.md R75, R77). -/
def wordAt (m : Memory) (a : Nat) : Word := m.read (a + 3) ++ m.read (a + 2) ++ m.read (a + 1) ++ m.read a

/-- What a RAM read from bus address `a` up returns: its bytes, little-endian (20_memory.md R75). -/
def ramData (m : Memory) (size : Size) (a : Nat) : Response :=
  match size with
  | .byte => .data8 (m.read a)
  | .half => .data16 (m.read (a + 1) ++ m.read a)
  | .word => .data32 (wordAt m a)

/-- The mapped bytes of a RAM window by its number, address bits 18:16 (20_memory.md R71). -/
def windowSize (p : Params) (window : Nat) : Nat :=
  match window with
  | 1 => p.msgRamSize
  | 2 => p.seedRamSize
  | 3 => p.outRamSize
  | 4 => 4 * p.maxFrags
  | 5 => 8 * p.maxFrags
  | 6 => 8 * p.maxFrags
  | 7 => 4 * p.maxFrags
  | _ => 0

/-- The RAMs and their windows (20_memory.md R71). -/
def ramWindows : List (Ram × Nat) :=
  [(.msgRam, 1), (.seedRam, 2), (.outRam, 3), (.selRam, 4), (.wgtRam, 5), (.probRam, 6), (.aliasRam, 7)]

/-- The registers in the order of the map (10_state.md R21). -/
def registers : List Reg :=
  [.id, .version, .ctrl, .status, .cmd, .arg0, .arg1, .arg2, .arg3, .res0, .res1, .crcState, .crcResult,
   .prngS0Lo, .prngS0Hi, .prngS1Lo, .prngS1Hi, .prngS2Lo, .prngS2Hi, .prngS3Lo, .prngS3Hi,
   .prngOutLo, .prngOutHi, .prngDblLo, .prngDblHi, .smpN,
   .ftnMsgLen, .ftnFragLen, .ftnFragCount, .ftnChecksum, .ftnSeqNum, .selCount, .selSeq]

/-- The legal accesses (20_memory.md R72, R73). -/
abbrev legalAccess (p : Params) (size : Size) (addr : BusAddr) : Prop :=
  (addr.toNat < 0x10000 ∧ size = .word ∧ addr.toNat ∈ resetReads.map Prod.fst) ∨
  (0x10000 ≤ addr.toNat ∧ addr.toNat % 0x10000 % size.bytes = 0 ∧
    addr.toNat % 0x10000 + size.bytes ≤ windowSize p (addr.toNat / 0x10000))

/-- The writable targets whose writes are dropped while busy (70_reset_and_hazards.md R275). -/
def droppedWhileBusy : List Reg :=
  [.arg0, .arg1, .arg2, .arg3, .prngS0Lo, .prngS0Hi, .prngS1Lo, .prngS1Hi, .prngS2Lo, .prngS2Hi, .prngS3Lo, .prngS3Hi]

/-- The read-only registers (10_state.md R21). -/
def readOnlyRegs : List Reg :=
  [.id, .version, .res0, .res1, .crcState, .crcResult, .prngOutLo, .prngOutHi, .prngDblLo, .prngDblHi, .smpN,
   .ftnMsgLen, .ftnFragLen, .ftnFragCount, .ftnChecksum, .ftnSeqNum, .selCount, .selSeq]

end Sys2Proof.Machine

open Sys2Proof Sys2Proof.Machine

/-! ### The commands: encoding, effect, exceptions and frame, command by command -/

/-- NOP (40_control.md R113). -/
def Obligations.NopOnlyCompletes : Prop :=
  encodedAs 0x00 0xFFFFFFFF 0x00000000 (fun _ => .nop) ∧ ∀ s : State, exec .nop s = .next (okState s)

/-- CRC_INIT (41_crc.md R133). -/
def Obligations.CrcInitResetsTheRemainder : Prop :=
  encodedAs 0x01 0xFFFFFFFF 0x00000001 (fun _ => .crcInit) ∧
  ∀ s : State, exec .crcInit s = .next (okState { s with crcState := 0xFFFFFFFF })

/-- CRC_BYTE (41_crc.md R134). -/
def Obligations.CrcByteFoldsItsByte : Prop :=
  encodedAs 0x02 0xFF00FFFF 0x00000002 (fun w => .crcByte (w.extractLsb' 16 8)) ∧
  ∀ (b : BitVec 8) (s : State), exec (.crcByte b) s = .next (okState { s with crcState := crcStep s.crcState b })

/-- CRC_BUF (41_crc.md R135): the range is checked without a 32-bit wrap, then folded in. -/
def Obligations.CrcBufFoldsItsRange : Prop :=
  encodedAs 0x03 0xFFFFFEFF 0x00000003 (fun w => .crcBuf (w.extractLsb' 8 1)) ∧
  ∀ (m : BitVec 1) (s : State),
    let r : Ram := if m = 0 then .msgRam else .seedRam
    let size := if m = 0 then s.params.msgRamSize else s.params.seedRamSize
    let o := s.operands.a0.toNat
    let n := s.operands.a1.toNat
    (size < o + n → exec (.crcBuf m) s = .next (errorState s .badArg)) ∧
    (o + n ≤ size →
      exec (.crcBuf m) s =
        .next (okState { s with
          crcState := crcFold s.crcState ((List.range n).map fun i => s.mem.read (r.base + o + i)) }))

/-- PRNG_SEED (42_prng.md R156), the lanes byte by byte (R151). -/
def Obligations.PrngSeedSeedsFromSeedRam : Prop :=
  encodedAs 0x10 0xFFFFFFFF 0x00000010 (fun _ => .prngSeed) ∧
  ∀ s : State,
    let len := s.operands.a0.toNat
    (s.params.seedRamSize < len → exec .prngSeed s = .next (errorState s .badArg)) ∧
    (len ≤ s.params.seedRamSize →
      exec .prngSeed s =
        .next (okState { s with
          lanes := bigEndianLanes (hashOf s.params ((List.range len).map fun i => s.mem.read (0x20000 + i))) }))

/-- PRNG_SEED_PAIR (42_prng.md R157), the seed's eight bytes and the lanes byte by byte (00_scope.md R8, 42_prng.md R151). -/
def Obligations.PrngSeedPairSeedsFromTwoWords : Prop :=
  encodedAs 0x11 0xFFFFFFFF 0x00000011 (fun _ => .prngSeedPair) ∧
  ∀ s : State,
    exec .prngSeedPair s =
      .next (okState { s with
        lanes := bigEndianLanes (hashOf s.params (bigEndianBytes s.operands.a0 ++ bigEndianBytes s.operands.a1)) })

/-- PRNG_NEXT (42_prng.md R158). -/
def Obligations.PrngNextReturnsTheRawOutput : Prop :=
  encodedAs 0x12 0xFFFFFFFF 0x00000012 (fun _ => .prngNext) ∧
  ∀ s : State,
    exec .prngNext s =
      .next (okState { s with
        lanes := lanesAfter s.lanes 1
        prngOut := rawAt s.lanes 0
        res0 := (rawAt s.lanes 0).extractLsb' 0 32
        res1 := (rawAt s.lanes 0).extractLsb' 32 32 })

/-- PRNG_DOUBLE (42_prng.md R159), for every raw output, those of value 1.0 too. -/
def Obligations.PrngDoubleReturnsTheDouble : Prop :=
  encodedAs 0x13 0xFFFFFFFF 0x00000013 (fun _ => .prngDouble) ∧
  ∀ s : State,
    exec .prngDouble s =
      .next (okState { s with
        lanes := lanesAfter s.lanes 1
        prngOut := rawAt s.lanes 0
        res0 := (u2d (rawAt s.lanes 0)).extractLsb' 0 32
        res1 := (u2d (rawAt s.lanes 0)).extractLsb' 32 32 })

/-- PRNG_INT (42_prng.md R160), its value in the integer form of R153, inside [low, high]. -/
def Obligations.PrngIntDrawsBetweenItsBounds : Prop :=
  encodedAs 0x14 0xFFFFFFFF 0x00000014 (fun _ => .prngInt) ∧
  ∀ s : State,
    let low := s.operands.a0.toNat
    let high := s.operands.a1.toNat
    let x := rawAt s.lanes 0
    (high < low → exec .prngInt s = .next (errorState s .badArg)) ∧
    (low ≤ high → ¬drawable x → exec .prngInt s = .next (errorState s .rngRange)) ∧
    (low ≤ high → drawable x →
      exec .prngInt s =
        .next (okState { s with
          lanes := lanesAfter s.lanes 1
          prngOut := x
          res0 := BitVec.ofNat 32 (low + intDraw (high - low + 1) x)
          res1 := 0 }) ∧
      low + intDraw (high - low + 1) x ≤ high)

/-- PRNG_BYTE (42_prng.md R161), its value in the integer form of R153. -/
def Obligations.PrngByteDrawsAByte : Prop :=
  encodedAs 0x15 0xFFFFFFFF 0x00000015 (fun _ => .prngByte) ∧
  ∀ s : State,
    let x := rawAt s.lanes 0
    (¬drawable x → exec .prngByte s = .next (errorState s .rngRange)) ∧
    (drawable x →
      exec .prngByte s =
        .next (okState { s with
          lanes := lanesAfter s.lanes 1
          prngOut := x
          res0 := BitVec.ofNat 32 (intDraw 256 x)
          res1 := 0 }) ∧
      intDraw 256 x ≤ 255)

/-- PRNG_SHUFFLE (42_prng.md R162): `n` steps whatever `k` is, the first `k` entries of the permutation, and its frame. -/
def Obligations.PrngShuffleWritesItsSelection : Prop :=
  encodedAs 0x16 0xFFFFFFFF 0x00000016 (fun _ => .prngShuffle) ∧
  ∀ s : State, s.params.wellFormed = true → s.mem.wf = true →
    let n := s.operands.a0.toNat
    let k := s.operands.a1.toNat
    ((n = 0 ∨ s.params.maxFrags < n ∨ n < k) → exec .prngShuffle s = .next (errorState s .badArg)) ∧
    (1 ≤ n → n ≤ s.params.maxFrags → k ≤ n →
      ((∃ j, j < n ∧ ¬drawable (rawAt s.lanes j)) → exec .prngShuffle s = .next (errorState s .rngRange)) ∧
      ((∀ j, j < n → drawable (rawAt s.lanes j)) →
        ∃ t : State, exec .prngShuffle s = .next t ∧
          (∀ j, j < k → (t.sel j).toNat = (removal s.lanes n (List.range n)).getD j 0) ∧
          sameOutside s t 0x40000 (4 * k) ∧
          t = okState { s with
            mem := t.mem
            lanes := lanesAfter s.lanes n
            prngOut := rawAt s.lanes (n - 1)
            selCount := s.operands.a1
            selSeq := 0
            res0 := s.operands.a1 }))

/-- SMP_BUILD (43_sampler.md R183): the checks, those of R181 spelled out, BAD_WEIGHTS in mode 1 only, and on success the table
of R182 in PROB_RAM and ALIAS_RAM. -/
def Obligations.SmpBuildStoresTheAliasTable : Prop :=
  encodedAs 0x20 0xFFFFFEFF 0x00000020 (fun w => .smpBuild (w.extractLsb' 8 1)) ∧
  ∀ (m : BitVec 1) (s : State), s.params.wellFormed = true → s.mem.wf = true →
    let n := s.operands.a0.toNat
    let w := if m = 0 then harmonicList n else (List.range n).map s.wgt
    ((n = 0 ∨ s.params.maxFrags < n) → exec (.smpBuild m) s = .next (errorState s .badArg)) ∧
    (1 ≤ n → n ≤ s.params.maxFrags → badWeights w n →
      m = 1 ∧ exec (.smpBuild m) s = .next (errorState s .badWeights)) ∧
    (1 ≤ n → n ≤ s.params.maxFrags → ¬badWeights w n →
      ∃ t : State, exec (.smpBuild m) s = .next t ∧
        (∀ i, i < n → t.prob i = (buildAlias w n).prob.getD i 0 ∧
          (t.aliasOf i).toNat = (buildAlias w n).other.getD i 0) ∧
        (∀ a, (a < 0x60000 ∨ 0x60000 + 8 * n ≤ a) → (a < 0x70000 ∨ 0x70000 + 4 * n ≤ a) →
          t.mem.read a = s.mem.read a) ∧
        t = okState { s with
          mem := t.mem, smpN := s.operands.a0, smpValid := true, res0 := s.operands.a0 })

/-- SMP_SAMPLE (43_sampler.md R185), the column in the integer form of 42_prng.md R153. -/
def Obligations.SmpSampleDrawsFromTheTable : Prop :=
  encodedAs 0x21 0xFFFFFFFF 0x00000021 (fun _ => .smpSample) ∧
  ∀ s : State,
    let i := intDraw s.smpN.toNat (rawAt s.lanes 0)
    (s.smpValid = false → exec .smpSample s = .next (errorState s .notConfigured)) ∧
    (s.smpValid = true → ¬drawable (rawAt s.lanes 0) → exec .smpSample s = .next (errorState s .rngRange)) ∧
    (s.smpValid = true → drawable (rawAt s.lanes 0) →
      exec .smpSample s =
        .next (okState { s with
          lanes := lanesAfter s.lanes 2
          prngOut := rawAt s.lanes 1
          res0 := if f64lt (u2d (rawAt s.lanes 1)) (s.prob i) then BitVec.ofNat 32 i else s.aliasOf i
          res1 := BitVec.ofNat 32 i }))

/-- FTN_CONFIG (44_fountain.md R202, R203): the checks, and on success the held configuration. -/
def Obligations.FtnConfigHoldsTheConfiguration : Prop :=
  encodedAs 0x30 0xFFFFFFFF 0x00000030 (fun _ => .ftnConfig) ∧
  ∀ s : State,
    let len := s.operands.a0.toNat
    let max := s.operands.a1.toNat
    let min := s.operands.a2.toNat
    let f := (len + max - 1) / max
    let m := (len + f - 1) / f
    ((len = 0 ∨ max = 0 ∨ min = 0 ∨ max < min ∨ s.params.msgRamSize < len ∨ s.params.maxFrags < f ∨
        s.params.outRamSize < m) →
      exec .ftnConfig s = .next (errorState s .badFtnParams)) ∧
    (1 ≤ len → 1 ≤ max → 1 ≤ min → min ≤ max → len ≤ s.params.msgRamSize → f ≤ s.params.maxFrags →
        m ≤ s.params.outRamSize →
      exec .ftnConfig s =
        .next (okState { s with
          ftnMsgLen := s.operands.a0
          ftnFragLen := BitVec.ofNat 32 m
          ftnFragCount := BitVec.ofNat 32 f
          ftnChecksum := crc32 ((List.range len).map fun i => s.mem.read (0x10000 + i))
          ftnSeqNum := s.operands.a3
          ftnValid := true
          res0 := BitVec.ofNat 32 f
          res1 := BitVec.ofNat 32 m }))

/-- FTN_NEXT (44_fountain.md R209): the next part, its selection in SEL_RAM and its mix in OUT_RAM, and its frame. -/
def Obligations.FtnNextProducesTheNextPart : Prop :=
  encodedAs 0x31 0xFFFFFFFF 0x00000031 (fun _ => .ftnNext) ∧
  ∀ s : State, s.Inv →
    let seq := s.ftnSeqNum + 1
    (s.ftnValid = false → exec .ftnNext s = .next (errorState s .notConfigured)) ∧
    (s.ftnValid = true → s.ftnSeqNum = 0xFFFFFFFF → exec .ftnNext s = .next (errorState s .seqOverflow)) ∧
    (s.ftnValid = true → s.ftnSeqNum ≠ 0xFFFFFFFF →
      (exec .ftnNext s = .next (errorState s .rngRange) ↔
        ¬drawsInRange s.params seq s.ftnFragCount s.ftnChecksum)) ∧
    (s.ftnValid = true → s.ftnSeqNum ≠ 0xFFFFFFFF → drawsInRange s.params seq s.ftnFragCount s.ftnChecksum →
      ∃ (sel : List Nat) (t : State),
        chooseFragments s.params seq s.ftnFragCount s.ftnChecksum = .ok sel ∧ exec .ftnNext s = .next t ∧
        (∀ j, j < sel.length → (t.sel j).toNat = sel.getD j 0) ∧
        (∀ j, j < s.ftnFragLen.toNat →
          t.mem.read (0x30000 + j) = sel.foldl (fun b i => b ^^^ s.fragByte i j) 0) ∧
        (∀ a, (a < 0x40000 ∨ 0x40000 + 4 * sel.length ≤ a) → (a < 0x30000 ∨ 0x30000 + s.ftnFragLen.toNat ≤ a) →
          t.mem.read a = s.mem.read a) ∧
        t = okState { s with
          mem := t.mem
          selCount := BitVec.ofNat 32 sel.length
          selSeq := seq
          ftnSeqNum := seq
          res0 := BitVec.ofNat 32 sel.length
          res1 := seq })

/-- FTN_CHOOSE (44_fountain.md R206): the selection of a given sequence number, and its frame. -/
def Obligations.FtnChooseWritesTheSelection : Prop :=
  encodedAs 0x32 0xFFFFFFFF 0x00000032 (fun _ => .ftnChoose) ∧
  ∀ s : State, s.Inv →
    let seq := s.operands.a0
    (s.ftnValid = false → exec .ftnChoose s = .next (errorState s .notConfigured)) ∧
    (s.ftnValid = true → seq = 0 → exec .ftnChoose s = .next (errorState s .badArg)) ∧
    (s.ftnValid = true → seq ≠ 0 →
      (exec .ftnChoose s = .next (errorState s .rngRange) ↔
        ¬drawsInRange s.params seq s.ftnFragCount s.ftnChecksum)) ∧
    (s.ftnValid = true → seq ≠ 0 → drawsInRange s.params seq s.ftnFragCount s.ftnChecksum →
      ∃ (sel : List Nat) (t : State),
        chooseFragments s.params seq s.ftnFragCount s.ftnChecksum = .ok sel ∧ exec .ftnChoose s = .next t ∧
        (∀ j, j < sel.length → (t.sel j).toNat = sel.getD j 0) ∧
        sameOutside s t 0x40000 (4 * sel.length) ∧
        t = okState { s with
          mem := t.mem
          selCount := BitVec.ofNat 32 sel.length
          selSeq := seq
          res0 := BitVec.ofNat 32 sel.length
          res1 := seq })

/-- FTN_MIX (44_fountain.md R208): BAD_INDEX, or the exclusive-or of the listed fragments in OUT_RAM, and its frame. -/
def Obligations.FtnMixXorsTheListedFragments : Prop :=
  encodedAs 0x33 0xFFFFFFFF 0x00000033 (fun _ => .ftnMix) ∧
  ∀ s : State, s.mem.wf = true →
    let sel := (List.range s.selCount.toNat).map fun k => (s.sel k).toNat
    (s.ftnValid = false → exec .ftnMix s = .next (errorState s .notConfigured)) ∧
    (s.ftnValid = true → (∃ i ∈ sel, s.ftnFragCount.toNat ≤ i) →
      exec .ftnMix s = .next (errorState s .badIndex)) ∧
    (s.ftnValid = true → (∀ i ∈ sel, i < s.ftnFragCount.toNat) →
      ∃ t : State, exec .ftnMix s = .next t ∧
        (∀ j, j < s.ftnFragLen.toNat →
          t.mem.read (0x30000 + j) = sel.foldl (fun b i => b ^^^ s.fragByte i j) 0) ∧
        sameOutside s t 0x30000 s.ftnFragLen.toNat ∧
        t = okState { s with mem := t.mem, res0 := s.selCount, res1 := s.selSeq })

/-- FTN_SEEK (44_fountain.md R210). -/
def Obligations.FtnSeekSetsTheSequenceNumber : Prop :=
  encodedAs 0x34 0xFFFFFFFF 0x00000034 (fun _ => .ftnSeek) ∧
  ∀ s : State,
    (s.ftnValid = false → exec .ftnSeek s = .next (errorState s .notConfigured)) ∧
    (s.ftnValid = true → exec .ftnSeek s = .next (okState { s with ftnSeqNum := s.operands.a0 }))

/-- FTN_CLEAR (44_fountain.md R211). -/
def Obligations.FtnClearDropsTheConfiguration : Prop :=
  encodedAs 0x35 0xFFFFFFFF 0x00000035 (fun _ => .ftnClear) ∧
  ∀ s : State, exec .ftnClear s = .next (okState { s with ftnValid := false })

/-! ### All commands -/

/-- A command that ends with an error commits none of its writes (40_control.md R112, 60_exceptions.md R243). -/
def Obligations.FailedCommandsCommitNothing : Prop :=
  ∀ (i : Instr) (s t : State), exec i s = .next t → t.errCode ≠ .ok → t = errorState s t.errCode

/-- Every command completes: DONE set, not busy, ERR sticky and set by an error (40_control.md R111; 10_state.md R26, R27, R28,
R34). -/
def Obligations.EveryCommandCompletesWithItsFlags : Prop :=
  ∀ (i : Instr) (s : State), ∃ t : State, exec i s = .next t ∧ t.done = true ∧ t.busy = false ∧
    t.err = (s.err || t.errCode != .ok)

/-- What no command writes: the parameters, CTRL, CMDREJ, WDROP, CMD_LAST, ARG0 to ARG3, MSG_RAM and SEED_RAM, and from a
state that meets the invariant WGT_RAM (10_state.md R36, R52, R53, R56). -/
def Obligations.NoCommandWritesWhatTheHostOwns : Prop :=
  ∀ (i : Instr) (s t : State), exec i s = .next t →
    (t.params = s.params ∧ t.ie = s.ie ∧ t.cmdRej = s.cmdRej ∧ t.wDrop = s.wDrop ∧ t.cmdLast = s.cmdLast ∧
      t.args = s.args ∧ t.resp = s.resp ∧ t.host = s.host ∧ t.draws = s.draws) ∧
    (∀ a, a < 0x30000 → t.mem.read a = s.mem.read a) ∧
    (s.Inv → ∀ a, 0x50000 ≤ a → a < 0x60000 → t.mem.read a = s.mem.read a)

/-- The fountain commands never touch the host stream, the sampler's table or the CRC remainder (10_state.md R60, R38). -/
def Obligations.FountainLeavesTheOtherUnits : Prop :=
  ∀ (i : Instr) (s t : State), i ∈ [Instr.ftnConfig, .ftnNext, .ftnChoose, .ftnMix, .ftnSeek, .ftnClear] →
    exec i s = .next t →
    (t.lanes = s.lanes ∧ t.prngOut = s.prngOut ∧ t.smpN = s.smpN ∧ t.smpValid = s.smpValid ∧
      t.crcState = s.crcState) ∧
    (s.Inv → ∀ a, 0x60000 ≤ a → t.mem.read a = s.mem.read a)

/-! ### The algorithms -/

/-- crc_step (41_crc.md R130): eight turns of the shift and the reflected polynomial from the remainder with the byte folded
in; and its byte-table form: the remainder shifted by a byte, and the step from 0 of the byte that leaves. -/
def Obligations.CrcStepHasTheTableForm : Prop :=
  ∀ (s : Word) (b : Byte),
    (let turn := fun r : Word => if r.getLsbD 0 then (r >>> 1) ^^^ 0xEDB88320 else r >>> 1
     crcStep s b = turn (turn (turn (turn (turn (turn (turn (turn (s ^^^ b.setWidth 32))))))))) ∧
    crcStep s b = (s >>> 8) ^^^ crcStep 0 ((s ^^^ b.setWidth 32).setWidth 8)

/-- Streaming (41_crc.md R136): folding two strings one after the other is folding the whole; and after one CRC_INIT any list of
CRC_BYTE and CRC_BUF commands, in both modes and in any mixture, each with its range in its RAM, completes with OK command by
command and leaves CRC_RESULT equal to the CRC32 of all their bytes in order. -/
def Obligations.CrcCommandsStream : Prop :=
  (∀ (r : Word) (x y : List Byte), crcFold (crcFold r x) y = crcFold r (x ++ y)) ∧
  (∀ x : List Byte, crc32 x = x.foldl crcStep 0xFFFFFFFF ^^^ 0xFFFFFFFF) ∧
  ∀ (s : State) (a : Args) (pieces : List (Instr × Args)), (∀ c ∈ pieces, crcPieceOk s c) →
    ∃ t : State, runIssued ((.crcInit, a) :: pieces) s = some t ∧
      t.crcResult = crc32 (pieces.flatMap (crcPieceBytes s)) ∧ t.crcState = t.crcResult ^^^ 0xFFFFFFFF ∧
      t.errCode = .ok ∧ t.mem = s.mem

/-- The PRNG step is the formula of 42_prng.md R150, a bijection on the states, and keeps the all-zero state with output 0. -/
def Obligations.PrngStepIsABijection : Prop :=
  (∀ a b c d : DWord,
    prngNext ⟨a, b, c, d⟩ =
      ((b * 5).rotateLeft 7 * 9, ⟨a ^^^ (d ^^^ b), b ^^^ (c ^^^ a), c ^^^ a ^^^ (b <<< 17), (d ^^^ b).rotateLeft 45⟩)) ∧
  (∀ l l' : Lanes, (prngNext l).2 = (prngNext l').2 → l = l') ∧
  (∀ l' : Lanes, ∃ l : Lanes, (prngNext l).2 = l') ∧
  prngNext ⟨0, 0, 0, 0⟩ = (0, ⟨0, 0, 0, 0⟩)

/-- Binary64 arithmetic (00_scope.md R11, R12): every operation is the exact result rounded once, an exact zero sum or
difference is +0, comparison is that of the reals and false for a NaN, truncation is the floor, and an integer rounds to its
RNE53. The sign of a zero product or quotient is log 11's. And nextDouble's value (42_prng.md R152): the quotient by 2^64,
exactly RNE53(x) / 2^64, and 1.0 for exactly the 1024 largest raw outputs. -/
def Obligations.NextDoubleIsTheRoundedQuotient : Prop :=
  (∀ a b : F64, ¬notFinite a → ¬notFinite b →
    (roundsTo (f64Real a + f64Real b) (f64add a b) ∧ (f64Real a + f64Real b = 0 → f64add a b = 0)) ∧
    (roundsTo (f64Real a - f64Real b) (f64sub a b) ∧ (f64Real a - f64Real b = 0 → f64sub a b = 0)) ∧
    (roundsTo (f64Real a * f64Real b) (f64mul a b) ∧
      (f64Real a * f64Real b = 0 →
        f64mul a b = if a.getLsbD 63 = b.getLsbD 63 then 0 else 0x8000000000000000)) ∧
    (f64Real b ≠ 0 →
      roundsTo (f64Real a / f64Real b) (f64div a b) ∧
      (f64Real a = 0 → f64div a b = if a.getLsbD 63 = b.getLsbD 63 then 0 else 0x8000000000000000)) ∧
    (f64lt a b = true ↔ f64Real a < f64Real b) ∧
    (0 ≤ f64Real a → (f64trunc a : ℤ) = ⌊f64Real a⌋)) ∧
  (∀ a b : F64, (notFinite a ∧ a.extractLsb' 0 52 ≠ 0) ∨ (notFinite b ∧ b.extractLsb' 0 52 ≠ 0) →
    f64lt a b = false) ∧
  (∀ v : Nat, roundsTo v (toF64 v) ∧ ((v : ℚ) < 2 ^ 1024 - 2 ^ 970 → f64Real (toF64 v) = rne53 v)) ∧
  ∀ x : DWord,
    (u2d x = f64div (toF64 x.toNat) (toF64 (2 ^ 64)) ∧ ¬notFinite (u2d x) ∧ (u2d x).getLsbD 63 = false ∧
      f64Real (u2d x) = rne53 x.toNat / 2 ^ 64) ∧
    (u2d x = 0x3FF0000000000000 ↔ ¬drawable x)

/-- nextInt in its integer form, inside its bounds, and RNG_RANGE exactly where nextDouble is 1.0 (42_prng.md R153). -/
def Obligations.NextIntHasTheIntegerForm : Prop :=
  ∀ (l : Lanes) (low high : Nat), low ≤ high → high < 2 ^ 32 →
    (¬drawable (rawAt l 0) → nextInt l low high = .error .rngRange) ∧
    (drawable (rawAt l 0) →
      nextInt l low high = .ok ⟨low + intDraw (high - low + 1) (rawAt l 0), rawAt l 0, lanesAfter l 1⟩ ∧
      low + intDraw (high - low + 1) (rawAt l 0) ≤ high)

/-- The shuffle is removal without replacement, takes exactly `n` steps, and permutes 0 to n-1 (42_prng.md R154). -/
def Obligations.ShufflePermutesByRemoval : Prop :=
  ∀ (l : Lanes) (x : DWord) (n : Nat), 1 ≤ n → n < 2 ^ 32 →
    ((∃ j, j < n ∧ ¬drawable (rawAt l j)) → shuffle l x n = .error .rngRange) ∧
    ((∀ j, j < n → drawable (rawAt l j)) →
      shuffle l x n = .ok ⟨removal l n (List.range n), rawAt l (n - 1), lanesAfter l n⟩ ∧
      (removal l n (List.range n)).Perm (List.range n))

/-- buildAlias of validated weights (43_sampler.md R182, R187): the table is what a run of its pseudocode leaves, so that an index
that was never light has probability 1.0 and alias 0; an index that was light at the start has the scaled weight as its
probability, or 1.0 and alias 0 if it was left over; and the aliases are indices and the probabilities values in [0, 1]. -/
def Obligations.AliasTablesAreInRange : Prop :=
  ∀ (w : List F64) (n : Nat), 1 ≤ n → n ≤ 8192 → w.length = n → ¬badWeights w n →
    aliasTableOf w n (buildAlias w n) ∧
    (buildAlias w n).prob.length = n ∧ (buildAlias w n).other.length = n ∧
    ∀ i, i < n →
      let p := f64div (f64mul (w.getD i 0) (toF64 n)) (w.foldl f64add 0)
      (f64lt p 0x3FF0000000000000 = true →
        (buildAlias w n).prob.getD i 0 = p ∨
          ((buildAlias w n).prob.getD i 0 = 0x3FF0000000000000 ∧ (buildAlias w n).other.getD i 0 = 0)) ∧
      (buildAlias w n).other.getD i 0 < n ∧ ¬notFinite ((buildAlias w n).prob.getD i 0) ∧
      0 ≤ f64Real ((buildAlias w n).prob.getD i 0) ∧ f64Real ((buildAlias w n).prob.getD i 0) ≤ 1

/-- The model's check is that of 43_sampler.md R181 spelled out, for every list of patterns; and harmonic weights (R180) always
pass it, so SMP_BUILD in mode 0 completes for every legal size. -/
def Obligations.HarmonicWeightsAlwaysPass : Prop :=
  (∀ (w : List F64) (n : Nat), weightsOk w n = false ↔ badWeights w n) ∧
  ∀ n, 1 ≤ n → n ≤ 8192 → ¬badWeights (harmonicList n) n

/-- The fragment count is the smallest with short enough fragments, the fragment length is ceil(L / f), and the fragments cover
the message with less than one fragment of padding (44_fountain.md R200). -/
def Obligations.FragmentCountIsMinimal : Prop :=
  ∀ len max : Nat, 1 ≤ len → 1 ≤ max →
    let f := fragCount len max
    let m := fragLen len max
    (1 ≤ f ∧ (len + f - 1) / f ≤ max ∧ ∀ g, 1 ≤ g → g < f → max < (len + g - 1) / g) ∧
    (f = (len + max - 1) / max ∧ m = (len + f - 1) / f) ∧
    (f ≤ len ∧ 1 ≤ m ∧ m ≤ len ∧ m ≤ max) ∧
    ((f - 1) * m < len ∧ len ≤ f * m ∧ f * m - len < m)

/-- The fragments in order are the message followed by zero padding (44_fountain.md R201). -/
def Obligations.FragmentsAreThePaddedMessage : Prop :=
  ∀ s : State, s.Inv → s.ftnValid = true →
    ((List.range s.ftnFragCount.toNat).flatMap fun i => (List.range s.ftnFragLen.toNat).map (s.fragByte i)) =
      (List.range s.ftnMsgLen.toNat).map (fun i => s.mem.read (0x10000 + i)) ++
        List.replicate (s.ftnFragCount.toNat * s.ftnFragLen.toNat - s.ftnMsgLen.toNat) 0

/-- The mix does not depend on the order of the selection, an index listed twice cancels itself, an empty selection gives
zeros, and one index gives its fragment (44_fountain.md R207). -/
def Obligations.MixIsOrderFree : Prop :=
  ∀ s : State,
    (∀ sel sel' : List Nat, sel.Perm sel' → s.mix sel = s.mix sel') ∧
    (∀ (i : Nat) (sel : List Nat), s.mix (i :: i :: sel) = s.mix sel) ∧
    s.mix [] = List.replicate s.ftnFragLen.toNat 0 ∧
    (∀ i, s.mix [i] = (List.range s.ftnFragLen.toNat).map (s.fragByte i))

/-- chooseFragments (44_fountain.md R205, R214): the pure pass, and in the fountain phase the first `d` indices of a
permutation, with `d` the degree drawn from the harmonic table (43_sampler.md R184, R186), between 1 and f, and the indices
distinct and below f; RNG_RANGE exactly when an index draw gives 1.0. -/
def Obligations.SelectionsAreValid : Prop :=
  ∀ (p : Params) (seq f c : Word), 1 ≤ seq.toNat → 1 ≤ f.toNat → f.toNat ≤ 8192 →
    (seq.toNat ≤ f.toNat → chooseFragments p seq f c = .ok [seq.toNat - 1]) ∧
    (chooseFragments p seq f c = .error .rngRange ↔ ¬drawsInRange p seq f c) ∧
    (f.toNat < seq.toNat → drawsInRange p seq f c →
      let d := degreeOf (privateLanes p seq c) f.toNat
      1 ≤ d ∧ d ≤ f.toNat ∧
        ∃ sel : List Nat, chooseFragments p seq f c = .ok sel ∧
          sel = (removal (lanesAfter (privateLanes p seq c) 2) f.toNat (List.range f.toNat)).take d ∧
          sel.length = d ∧ sel.Nodup ∧ ∀ i ∈ sel, i < f.toNat)

/-- A part is the mix of its selection: FTN_NEXT leaves the RAMs and results that FTN_CHOOSE of the same sequence number and
then FTN_MIX leave (44_fountain.md R206, R208, R209; 95_test_vectors.md S3). FTN_CHOOSE is run at its acceptance, with nothing
pending and the ARG registers as its arguments, which log 14 reads from 40_control.md R111. -/
def Obligations.NextPartIsChooseThenMix : Prop :=
  ∀ s t : State, s.Inv → exec .ftnNext s = .next t → t.errCode = .ok →
    ∃ u v : State,
      exec .ftnChoose (s.withArgs ⟨s.ftnSeqNum + 1, s.args.a1, s.args.a2, s.args.a3⟩) = .next u ∧ u.errCode = .ok ∧
      exec .ftnMix u = .next v ∧ v.errCode = .ok ∧
      v.mem = t.mem ∧ v.selCount = t.selCount ∧ v.selSeq = t.selSeq ∧ v.res0 = t.res0 ∧ v.res1 = t.res1

/-- What FTN_NEXT produces depends on the message, the FTN_ registers and the hash alone: not on the host stream, the sampler's
table, CRC_STATE, or an earlier part (44_fountain.md R213). -/
def Obligations.PartsDependOnTheConfigurationAlone : Prop :=
  ∀ s s' t t' : State, s.Inv → s'.Inv → s.params = s'.params → s.ftnValid = s'.ftnValid →
    s.ftnMsgLen = s'.ftnMsgLen → s.ftnFragLen = s'.ftnFragLen → s.ftnFragCount = s'.ftnFragCount →
    s.ftnChecksum = s'.ftnChecksum → s.ftnSeqNum = s'.ftnSeqNum →
    (∀ i, i < s.ftnMsgLen.toNat → s.mem.read (0x10000 + i) = s'.mem.read (0x10000 + i)) →
    exec .ftnNext s = .next t → exec .ftnNext s' = .next t' →
    t.errCode = t'.errCode ∧
    (t.errCode = .ok →
      t.res0 = t'.res0 ∧ t.res1 = t'.res1 ∧ t.selCount = t'.selCount ∧ t.selSeq = t'.selSeq ∧
      t.ftnSeqNum = t'.ftnSeqNum ∧ (∀ j, j < t.selCount.toNat → t.sel j = t'.sel j) ∧
      ∀ j, j < s.ftnFragLen.toNat → t.mem.read (0x30000 + j) = t'.mem.read (0x30000 + j))

/-! ### Encoding -/

/-- Decoding the word of a command gives the command back, for every field value (30_encoding.md R90, R93). -/
def Obligations.DecodeOfEncode : Prop := ∀ i : Instr, i.wellFormed = true → decode (encode i) = .ok i

/-- A word that decodes to a command is the word of that command: no bit of a word is dropped (30_encoding.md R93). -/
def Obligations.EncodeOfDecode : Prop := ∀ (w : Word) (i : Instr), decode w = .ok i → encode i = w

/-- Decoding is total with two errors (30_encoding.md R91, R94, R95): a word with one of the 237 other opcodes is
ILLEGAL_OPCODE; a legal opcode with a bit set in RSV, MODE[3:1] or IMM16[15:8] is RESERVED_FIELD; any other word of a legal
opcode is a command or RESERVED_FIELD. -/
def Obligations.DecodeClassifiesEveryWord : Prop :=
  ∀ w : Word,
    (w.extractLsb' 0 8 ∉ legalOpcodes → decode w = .error .illegalOpcode) ∧
    (w.extractLsb' 0 8 ∈ legalOpcodes → (∃ i, decode w = .ok i) ∨ decode w = .error .reservedField) ∧
    (w.extractLsb' 0 8 ∈ legalOpcodes →
      w.extractLsb' 12 4 ≠ 0 ∨ w.extractLsb' 9 3 ≠ 0 ∨ w.extractLsb' 24 8 ≠ 0 → decode w = .error .reservedField)

/-- A few words, written out bit by bit from 30_encoding.md R93, decode to their commands. -/
def Obligations.WrittenWordsDecode : Prop :=
  decode 0b00000000000000000000000000000000#32 = .ok .nop ∧
  decode 0b00000000011000010000000000000010#32 = .ok (.crcByte 0x61) ∧
  decode 0b00000000000000000000000100000011#32 = .ok (.crcBuf 1) ∧
  decode 0b00000000000000000000000000010110#32 = .ok .prngShuffle ∧
  decode 0b00000000000000000000000100100000#32 = .ok (.smpBuild 1) ∧
  decode 0b00000000000000000000000000110001#32 = .ok .ftnNext

/-! ### The step -/

/-- A step runs the decoded command: when the pending command's last cycle has come, the step is exec of the command on the
state that the host's access of the cycle leaves, if it makes one and it starts no soft reset; a word that is no command
completes with its error; and `withFetchWord` makes the very next step run its word (20_memory.md R83; 40_control.md R111;
30_encoding.md R91, R94, R95). That a step is one clock cycle, that the host comes first in it, and where its accesses come
from, are the model's own (log 5, log 6). -/
def Obligations.StepRunsThePendingCommand : Prop :=
  (∀ (s : State) (p : Pending), s.pending = some p → p.cyclesLeft ≤ 1 → ¬resetNow s →
    (∀ i, decode p.word = .ok i → step s = exec i s.served) ∧
    (decode p.word = .error .illegalOpcode → step s = .next (errorState s.served .illegalOpcode)) ∧
    (decode p.word = .error .reservedField → step s = .next (errorState s.served .reservedField))) ∧
  (∀ (s : State) (w : Nat) (i : Instr), w < 2 ^ 32 → decode (BitVec.ofNat 32 w) = .ok i →
    step (s.withFetchWord 32 w) =
      exec i { s with
        cmdLast := BitVec.ofNat 32 w
        pending := some ⟨BitVec.ofNat 32 w, s.args, 1⟩ })

/-- What a step does where no command ends: the host's access of the cycle is served, in the order of the host's list
(20_memory.md R83), and then an idle block does nothing more, a command with more than one cycle left waits one cycle
(70_reset_and_hazards.md R281), and a soft reset has discarded the command (R271). The order inside the cycle, the host's list
and the count of cycles are the model's own (log 3, log 5, log 6). -/
def Obligations.StepWaitsOutTheLatency : Prop :=
  ∀ s : State,
    (s.pending = none → step s = .next s.served) ∧
    (∀ p : Pending, s.pending = some p → 1 < p.cyclesLeft → ¬resetNow s →
      step s = .next { s.served with pending := some { p with cyclesLeft := p.cyclesLeft - 1 } }) ∧
    (resetNow s → step s = .next s.served ∧ s.served.pending = none)

/-- In the cycle of a completion a W1C write to STATUS acts but does not win: CMDREJ and WDROP end cleared where it says so,
DONE ends 1, and ERR ends 1 after an error and otherwise as the write leaves it (10_state.md R25). The order inside the cycle
is the model's own (log 5). -/
def Obligations.SetWinsOverClear : Prop :=
  ∀ (s : State) (p : Pending) (v : Word) (rest : List (Option Access)),
    s.pending = some p → p.cyclesLeft ≤ 1 → s.host = some (.write .word 0x0000C v) :: rest →
    ∃ t : State, step s = .next t ∧ t.done = true ∧ t.busy = false ∧
      t.err = (s.err && !v.getLsbD 2 || t.errCode != .ok) ∧
      t.cmdRej = (s.cmdRej && !v.getLsbD 3) ∧ t.wDrop = (s.wDrop && !v.getLsbD 4)

/-- When a command completes, IRQ equals CTRL.IE after the same step that clears BUSY, whatever access but a CTRL write the host
makes in that cycle; a W1C write of DONE lowers it; and at any time it is high exactly when DONE and IE are 1
(60_exceptions.md R244, 70_reset_and_hazards.md R280). One step is one cycle, as log 5 has it. -/
def Obligations.CompletionRaisesTheInterrupt : Prop :=
  (∀ (s : State) (p : Pending), s.pending = some p → p.cyclesLeft ≤ 1 →
    (∀ (size : Size) (v : Word), s.host.head? ≠ some (some (.write size 0x00008 v))) →
    ∃ t : State, step s = .next t ∧ t.busy = false ∧ t.irq = s.ie) ∧
  (∀ (s : State) (v : Word), v.getLsbD 1 = true → (s.hostAccess (.write .word 0x0000C v)).irq = false) ∧
  ∀ s : State, s.irq = true ↔ s.done = true ∧ s.ie = true

/-- Every pending command completes: while the host starts no soft reset, the block is idle with DONE set after exactly the
command's cycles, whatever else the host does (70_reset_and_hazards.md R281, 40_control.md R111; the order inside a cycle is
the model's, log 5, and so is the form of the count, log 3). -/
def Obligations.EveryPendingCommandCompletes : Prop :=
  ∀ (s : State) (p : Pending), s.pending = some p → 1 ≤ p.cyclesLeft →
    (∀ (size : Size) (v : Word), some (Access.write size 0x00008 v) ∈ s.host → v.getLsbD 1 = false) →
    ∃ t : State, Host.Core.run core p.cyclesLeft s = .next t ∧ t.busy = false ∧ t.done = true

/-- No step stops the machine: every state has a next state (20_memory.md R74, 30_encoding.md R91, 40_control.md R111). -/
def Obligations.NoStepStops : Prop := ∀ s : State, ∃ t : State, step s = .next t

/-- Every step keeps the memory's canonical form, the model's own way to hold the RAMs (log 4). -/
def Obligations.StepKeepsCanonicalMemory : Prop := ∀ s t : State, s.mem.wf = true → step s = .next t → t.mem.wf = true

/-- Every step keeps the invariant: legal parameters, canonical memory, the latch, the selection's size, the held table and
the held configuration with its checksum (20_memory.md R79, R86; 40_control.md R110; 43_sampler.md R187; 44_fountain.md R202).
The canonical form of the memory and the cycles left are the model's own (log 3, log 4). -/
def Obligations.StepKeepsTheInvariant : Prop := ∀ s t : State, s.Inv → step s = .next t → t.Inv

/-- The invariant holds after power-on reset, for every legal choice of the parameters and every canonical RAM_INIT, and at
State.reset, whose parameters, hash, latency, RAM_INIT, host and draw count are the model's choices (log 1, 2, 3, 4, 6, 10). -/
def Obligations.PowerOnMeetsTheInvariant : Prop :=
  (∀ (p : Params) (m : Memory), p.wellFormed = true → m.wf = true → (State.powerOn p m).Inv) ∧ State.reset.Inv

/-! ### The host port -/

/-- The legal accesses are served, at the register or RAM byte that the maps give the address (10_state.md R21, 20_memory.md
R71), and any other is a bus error: it changes nothing of the block, and a read returns 0 (R72, R73, R74). -/
def Obligations.BusErrorsChangeNothing : Prop :=
  ∀ (s : State) (size : Size) (addr : BusAddr) (v : Word),
    (legalAccess s.params size addr →
      (∃ t, s.access (.read size addr) = .ok t) ∧ ∃ t, s.access (.write size addr v) = .ok t) ∧
    (¬legalAccess s.params size addr →
      s.hostAccess (.read size addr) = { s with resp := some (.errorRead 0) } ∧
      s.hostAccess (.write size addr v) = { s with resp := some .errorWrite }) ∧
    (∀ x ∈ registers.zip (resetReads.map Prod.fst),
      busTarget s.params size addr = .ok (.reg x.1) ↔ size = .word ∧ addr.toNat = x.2) ∧
    ∀ x ∈ ramWindows,
      (∀ o, busTarget s.params size addr = .ok (.ram x.1 o) ↔
        legalAccess s.params size addr ∧ addr.toNat = x.2 * 0x10000 + o ∧ o < 0x10000) ∧
      x.1.base = x.2 * 0x10000 ∧ x.1.size s.params = windowSize s.params x.2

/-- A CMD write is accepted when idle, with the word and the arguments latched, and rejected with CMDREJ while busy
(10_state.md R35; 40_control.md R110; 70_reset_and_hazards.md R274). The count of draws is the model's own (log 10). -/
def Obligations.CmdWriteIsAcceptedOrRejected : Prop :=
  ∀ (s : State) (w : Word),
    (s.busy = false → ∃ k, 1 ≤ k ∧
      s.hostAccess (.write .word 0x00010 w) =
        { s with cmdLast := w, pending := some ⟨w, s.args, k⟩, draws := s.draws + 1, resp := some .ack }) ∧
    (s.busy = true → s.hostAccess (.write .word 0x00010 w) = { s with cmdRej := true, resp := some .ack })

/-- While busy, a legal write to the ARG registers, the lanes, MSG_RAM, SEED_RAM, SEL_RAM or WGT_RAM is dropped with WDROP
(70_reset_and_hazards.md R275); busy or idle, one to a read-only register or RAM is ignored without a flag (10_state.md R24,
20_memory.md R78). -/
def Obligations.WritesWhileBusyAreDropped : Prop :=
  ∀ (s : State) (size : Size) (addr : BusAddr) (v : Word) (t : Target), busTarget s.params size addr = .ok t →
    (s.busy = true →
      (∃ r ∈ droppedWhileBusy, t = .reg r) ∨ (∃ r ∈ [Ram.msgRam, .seedRam, .selRam, .wgtRam], ∃ o, t = .ram r o) →
      s.hostAccess (.write size addr v) = { s with wDrop := true, resp := some .ack }) ∧
    ((∃ r ∈ readOnlyRegs, t = .reg r) ∨ (∃ r ∈ [Ram.outRam, .probRam, .aliasRam], ∃ o, t = .ram r o) →
      s.hostAccess (.write size addr v) = { s with resp := some .ack })

/-- MSG_RAM is locked while FTN_VALID is 1: a legal write changes no byte and sets WDROP (20_memory.md R79); a write to OUT_RAM,
PROB_RAM or ALIAS_RAM is ignored and sets no flag (R78). Reads of all of them stay legal. -/
def Obligations.LockedAndReadOnlyRamsKeepTheirBytes : Prop :=
  ∀ (s : State) (size : Size) (addr : BusAddr) (v : Word) (o : Nat),
    (s.ftnValid = true → busTarget s.params size addr = .ok (.ram .msgRam o) →
      s.hostAccess (.write size addr v) = { s with wDrop := true, resp := some .ack }) ∧
    (∀ r ∈ [Ram.outRam, .probRam, .aliasRam], busTarget s.params size addr = .ok (.ram r o) →
      s.hostAccess (.write size addr v) = { s with resp := some .ack }) ∧
    (∀ r ∈ [Ram.msgRam, .outRam, .probRam, .aliasRam], busTarget s.params size addr = .ok (.ram r o) →
      ∃ t, s.access (.read size addr) = .ok t)

/-- A legal RAM write of an idle block stores the data little-endian, byte by byte, leaves every other byte, and reads back
(20_memory.md R73, R75). -/
def Obligations.RamWritesReadBack : Prop :=
  ∀ (s : State) (size : Size) (addr : BusAddr) (v : Word) (r : Ram) (o : Nat), s.busy = false → s.mem.wf = true →
    busTarget s.params size addr = .ok (.ram r o) →
    (r = .msgRam ∧ s.ftnValid = false ∨ r ∈ [Ram.seedRam, .selRam, .wgtRam]) →
    let t := s.hostAccess (.write size addr v)
    (∀ k, k < size.bytes → t.mem.read (r.base + o + k) = v.extractLsb' (8 * k) 8) ∧
    sameOutside s t (r.base + o) size.bytes ∧
    t = { s with mem := t.mem, resp := some .ack } ∧
    (t.hostAccess (.read size addr)).resp = some (readData size v)

/-- A write to half a PRNG lane of an idle block replaces that half alone (10_state.md R41), one to ARG0 to ARG3 that register
alone (R36); and a CTRL write without SRST, busy or idle, sets IE to its bit 0 and changes nothing else (R24). -/
def Obligations.LaneHalvesAreWrittenAlone : Prop :=
  (∀ (s : State) (v : Word), v.getLsbD 1 = false →
    s.hostAccess (.write .word 0x00008 v) = { s with ie := v.getLsbD 0, resp := some .ack }) ∧
  ∀ (s : State) (v : Word), s.busy = false →
    let w := fun (a : BusAddr) => s.hostAccess (.write .word a v)
    let lo := fun (x : DWord) => x.extractLsb' 32 32 ++ v
    let hi := fun (x : DWord) => v ++ x.extractLsb' 0 32
    w 0x00014 = { s with args := { s.args with a0 := v }, resp := some .ack } ∧
    w 0x00018 = { s with args := { s.args with a1 := v }, resp := some .ack } ∧
    w 0x0001C = { s with args := { s.args with a2 := v }, resp := some .ack } ∧
    w 0x00020 = { s with args := { s.args with a3 := v }, resp := some .ack } ∧
    w 0x00040 = { s with lanes := { s.lanes with s0 := lo s.lanes.s0 }, resp := some .ack } ∧
    w 0x00044 = { s with lanes := { s.lanes with s0 := hi s.lanes.s0 }, resp := some .ack } ∧
    w 0x00048 = { s with lanes := { s.lanes with s1 := lo s.lanes.s1 }, resp := some .ack } ∧
    w 0x0004C = { s with lanes := { s.lanes with s1 := hi s.lanes.s1 }, resp := some .ack } ∧
    w 0x00050 = { s with lanes := { s.lanes with s2 := lo s.lanes.s2 }, resp := some .ack } ∧
    w 0x00054 = { s with lanes := { s.lanes with s2 := hi s.lanes.s2 }, resp := some .ack } ∧
    w 0x00058 = { s with lanes := { s.lanes with s3 := lo s.lanes.s3 }, resp := some .ack } ∧
    w 0x0005C = { s with lanes := { s.lanes with s3 := hi s.lanes.s3 }, resp := some .ack }

/-- What reads return (10_state.md R21; 20_memory.md R75; 70_reset_and_hazards.md R276): idle, each register of the map and
every legal RAM access answers its value; busy, so do ID to ARG3 (offsets 0x000 to 0x020), MSG_RAM, SEED_RAM and WGT_RAM. The
entries that the commands read and write in the RAMs are those bytes, little-endian (20_memory.md R76, R77). And no read has a
side effect on the block (20_memory.md R82): only the response changes, and the model's count of free values when a busy read
draws one (log 8, log 10). -/
def Obligations.ReadsChangeOnlyTheResponse : Prop :=
  ∀ s : State,
    (∀ x ∈ registerValues s, s.busy = false ∨ x.1 ≤ 0x020 →
      s.hostAccess (.read .word (BitVec.ofNat 19 x.1)) = { s with resp := some (.data32 x.2) }) ∧
    (∀ (size : Size) (addr : BusAddr), 0x10000 ≤ addr.toNat → legalAccess s.params size addr →
      s.busy = false ∨ addr.toNat / 0x10000 ∈ [1, 2, 5] →
      s.hostAccess (.read size addr) = { s with resp := some (ramData s.mem size addr.toNat) }) ∧
    (∀ j : Nat,
      s.sel j = wordAt s.mem (0x40000 + 4 * j) ∧
      s.wgt j = wordAt s.mem (0x50000 + 8 * j + 4) ++ wordAt s.mem (0x50000 + 8 * j) ∧
      s.prob j = wordAt s.mem (0x60000 + 8 * j + 4) ++ wordAt s.mem (0x60000 + 8 * j) ∧
      s.aliasOf j = wordAt s.mem (0x70000 + 4 * j)) ∧
    ∀ (size : Size) (addr : BusAddr),
      (∃ r n, s.hostAccess (.read size addr) = { s with resp := some r, draws := n }) ∧
      (s.busy = false → ∃ r, s.hostAccess (.read size addr) = { s with resp := some r })

/-- The STATUS word and its W1C write (10_state.md R25), and the ten error codes that its ERRCODE field holds
(60_exceptions.md R240). -/
def Obligations.StatusLayoutAndClears : Prop :=
  ([ErrorCode.ok, .illegalOpcode, .reservedField, .badArg, .badFtnParams, .notConfigured, .seqOverflow, .badWeights, .rngRange,
      .badIndex].map ErrorCode.toByte = [0x00, 0x01, 0x02, 0x03, 0x04, 0x05, 0x06, 0x07, 0x08, 0x09]) ∧
  ∀ s : State,
    (s.statusWord.getLsbD 0 = s.busy ∧ s.statusWord.getLsbD 1 = s.done ∧ s.statusWord.getLsbD 2 = s.err ∧
      s.statusWord.getLsbD 3 = s.cmdRej ∧ s.statusWord.getLsbD 4 = s.wDrop ∧ s.statusWord.getLsbD 5 = s.ftnValid ∧
      s.statusWord.getLsbD 6 = s.smpValid ∧
      s.statusWord.getLsbD 7 = (s.ftnValid && s.ftnFragCount.toNat ≤ s.ftnSeqNum.toNat) ∧
      s.statusWord.extractLsb' 8 8 = s.errCode.toByte ∧ s.statusWord.extractLsb' 16 16 = 0) ∧
    ∀ v : Word,
      s.hostAccess (.write .word 0x0000C v) =
        { s with
          done := s.done && !v.getLsbD 1
          err := s.err && !v.getLsbD 2
          cmdRej := s.cmdRej && !v.getLsbD 3
          wDrop := s.wDrop && !v.getLsbD 4
          resp := some .ack }

/-- After power-on reset every register reads its reset value, for every choice of the parameters; the RAMs hold RAM_INIT, the
block is idle and IRQ is low (70_reset_and_hazards.md R270, 10_state.md R21). -/
def Obligations.PowerOnRegisterValues : Prop :=
  ∀ (p : Params) (m : Memory),
    (∀ x ∈ resetReads, ((State.powerOn p m).hostAccess (.read .word (BitVec.ofNat 19 x.1))).resp = some (.data32 x.2)) ∧
    (State.powerOn p m).mem = m ∧ (State.powerOn p m).busy = false ∧ (State.powerOn p m).irq = false ∧
    (State.powerOn p m).pending = none

/-- Soft reset (70_reset_and_hazards.md R271, R272): every register takes its power-on value, whether or not the block is busy;
RAM is unchanged when idle, and when busy outside the RAMs that the aborted command would have written. The host's accesses,
the parameters and the count of draws are outside the block and stay the model's (log 10, log 17). -/
def Obligations.SoftResetKeepsTheRams : Prop :=
  ∀ (s : State) (v : Word), v.getLsbD 1 = true →
    let t := s.hostAccess (.write .word 0x00008 v)
    let same := fun (r : Ram) (a : Nat) => a < r.base ∨ r.base + r.size s.params ≤ a
    t = { State.powerOn s.params t.mem with host := s.host, draws := s.draws + 1, resp := some .ack } ∧
    (s.pending = none → t.mem = s.mem) ∧
    (∀ p, s.pending = some p →
      (p.word = 0x33 → ∀ a, same .outRam a → t.mem.read a = s.mem.read a) ∧
      (p.word = 0x31 → ∀ a, same .selRam a → same .outRam a → t.mem.read a = s.mem.read a) ∧
      (p.word = 0x32 ∨ p.word = 0x16 → ∀ a, same .selRam a → t.mem.read a = s.mem.read a) ∧
      (p.word = 0x20 ∨ p.word = 0x120 → ∀ a, same .probRam a → same .aliasRam a → t.mem.read a = s.mem.read a) ∧
      (p.word ∉ [0x33, 0x31, 0x32, 0x16, 0x20, 0x120] → t.mem = s.mem))
end

