-- ==== Sys2Proof/Laws/Binary64.lean ====
section
/-! SUPPORT. What the one rounding of binary64 arithmetic does, said once: `fl` gives the nearest finite value, ties to the even
significand, or an infinity (00_scope.md R11). -/

namespace Sys2Proof.Machine

/-! ### The fields of a pattern -/

theorem f64Exp_eq (a : F64) : f64Exp a = a.toNat % 2 ^ 63 / 2 ^ 52 := by
  simp only [f64Exp, BitVec.extractLsb'_toNat, Nat.shiftRight_eq_div_pow]
  omega

theorem f64Frac_eq (a : F64) : f64Frac a = a.toNat % 2 ^ 63 % 2 ^ 52 := by
  simp only [f64Frac, BitVec.extractLsb'_toNat, Nat.shiftRight_eq_div_pow]
  omega

theorem f64Sign_eq (a : F64) : f64Sign a = decide (2 ^ 63 ≤ a.toNat) := by
  have := a.isLt
  simp only [f64Sign, BitVec.getLsbD, Nat.testBit_eq_decide_div_mod_eq, decide_eq_decide]
  omega

theorem f64Finite_iff (a : F64) : f64Finite a = true ↔ a.toNat % 2 ^ 63 < infMagnitude := by
  simp only [f64Finite, bne_iff_ne, ne_eq, f64Exp_eq, infMagnitude]
  omega

/-- The units of the pattern without sign `p`. -/
def magUnits (p : Nat) : Nat := if p / 2 ^ 52 = 0 then p % 2 ^ 52 else (2 ^ 52 + p % 2 ^ 52) * 2 ^ (p / 2 ^ 52 - 1)

theorem f64Units_eq (a : F64) : f64Units a = magUnits (a.toNat % 2 ^ 63) := by
  simp only [f64Units, magUnits, f64Exp_eq, f64Frac_eq]

/-! ### Patterns in order of magnitude -/

/-- The pattern of `m` times the spacing `2 ^ e`; a significand of 2^53 carries into the exponent. -/
theorem magUnits_of {e m : Nat} (hm : m ≤ 2 ^ 53) (h : e = 0 ∨ 2 ^ 52 ≤ m) : magUnits (e * 2 ^ 52 + m) = m * 2 ^ e := by
  simp only [magUnits]
  rcases Nat.lt_or_ge m (2 ^ 52) with hlt | hge
  · obtain rfl : e = 0 := by omega
    have h1 : (0 * 2 ^ 52 + m) / 2 ^ 52 = 0 := by omega
    have h2 : (0 * 2 ^ 52 + m) % 2 ^ 52 = m := by omega
    rw [if_pos h1, h2, Nat.pow_zero, Nat.mul_one]
  rcases Nat.lt_or_ge m (2 ^ 53) with hlt | hge'
  · have h1 : (e * 2 ^ 52 + m) / 2 ^ 52 = e + 1 := by omega
    have h2 : (e * 2 ^ 52 + m) % 2 ^ 52 = m - 2 ^ 52 := by omega
    rw [h1, h2, if_neg (by omega), Nat.add_sub_cancel, Nat.add_sub_cancel' hge]
  · obtain rfl : m = 2 ^ 53 := by omega
    have h1 : (e * 2 ^ 52 + 2 ^ 53) / 2 ^ 52 = e + 2 := by omega
    have h2 : (e * 2 ^ 52 + 2 ^ 53) % 2 ^ 52 = 0 := by omega
    rw [h1, h2, if_neg (by omega), show e + 2 - 1 = e + 1 from rfl, Nat.add_zero, Nat.pow_succ]
    ring

/-- Every pattern is a significand times a spacing. -/
theorem magUnits_split (p : Nat) : ∃ e m, p = e * 2 ^ 52 + m ∧ m < 2 ^ 53 ∧ (e = 0 ∨ 2 ^ 52 ≤ m) := by
  rcases Nat.lt_or_ge p (2 ^ 52) with h | h
  · exact ⟨0, p, by omega, by omega, .inl rfl⟩
  · exact ⟨p / 2 ^ 52 - 1, p % 2 ^ 52 + 2 ^ 52, by omega, by omega, .inr (by omega)⟩

theorem magUnits_strictMono : StrictMono magUnits := by
  refine strictMono_nat_of_lt_succ fun p => ?_
  obtain ⟨e, m, rfl, hm, h⟩ := magUnits_split p
  rw [magUnits_of hm.le h, Nat.add_assoc, magUnits_of (by omega) (by omega)]
  exact Nat.mul_lt_mul_of_pos_right (by omega) (Nat.two_pow_pos e)

theorem magUnits_zero : magUnits 0 = 0 := by simp [magUnits]

theorem magUnits_max : magUnits (infMagnitude - 1) = (2 ^ 53 - 1) * 2 ^ 2045 := by
  rw [show infMagnitude - 1 = 2045 * 2 ^ 52 + (2 ^ 53 - 1) from rfl, magUnits_of (by decide) (by decide)]

theorem magUnits_inf : magUnits infMagnitude = 2 ^ 53 * 2 ^ 2045 := by
  rw [show infMagnitude = 2045 * 2 ^ 52 + 2 ^ 53 from rfl, magUnits_of (by decide) (by decide)]

theorem infMagnitude_pos : 0 < infMagnitude := by decide

theorem unitsPerOne_pos : 0 < unitsPerOne := by unfold unitsPerOne; positivity

theorem overflowBound_pos : 0 < overflowBound := by
  unfold overflowBound
  exact Nat.sub_pos_of_lt (Nat.pow_lt_pow_right (by decide) (by decide))

/-- The bound of an overflow is the middle between the largest finite value and the next one, were there one. -/
theorem overflowBound_middle : 2 * (overflowBound * unitsPerOne) = magUnits (infMagnitude - 1) + magUnits infMagnitude := by
  have h1 : (2 : Nat) ^ 1024 = 2 ^ 54 * 2 ^ 970 := by rw [← Nat.pow_add]
  have h2 : (2 : Nat) ^ 2045 = 2 ^ 970 * 2 ^ 1074 * 2 := by
    rw [← Nat.pow_add, show 2045 = 970 + 1074 + 1 from rfl, Nat.pow_succ]
  rw [magUnits_max, magUnits_inf, h2]
  unfold overflowBound unitsPerOne
  rw [h1]
  generalize 2 ^ 970 = x
  generalize 2 ^ 1074 = y
  have h3 : 2 ^ 54 * x - x = (2 ^ 54 - 1) * x := by omega
  rw [h3]
  norm_num
  ring

/-! ### The rounding of a magnitude -/

theorem flMagnitude_of_lt {num den V e : Nat} (ho : ¬overflowBound * den ≤ num) (hV : num * unitsPerOne = V)
    (he : (V / den).log2 - 52 = e) : flMagnitude num den = e * 2 ^ 52 + roundTiesEven V (den * 2 ^ e) := by
  subst hV he
  unfold flMagnitude
  exact if_neg ho

/-- Below the overflow, `num / den` lies `r / den` units above a pattern `p`, with `D / den` units to the next, and `fl` takes
the nearer of the two, on a tie the even one. -/
theorem flMagnitude_between {num den : Nat} (hd : 0 < den) (ho : ¬overflowBound * den ≤ num) :
    ∃ p r D, magUnits p * den + r = num * unitsPerOne ∧ r < D ∧ magUnits (p + 1) * den = magUnits p * den + D ∧
      flMagnitude num den = if D < 2 * r ∨ (2 * r = D ∧ p % 2 = 1) then p + 1 else p := by
  generalize hV : num * unitsPerOne = V
  generalize he : (V / den).log2 - 52 = e
  have hlog : V / den < 2 ^ (e + 53) :=
    lt_of_lt_of_le Nat.lt_log2_self (Nat.pow_le_pow_right (by decide) (by omega))
  have hD : 0 < den * 2 ^ e := Nat.mul_pos hd (Nat.two_pow_pos e)
  have hqe : V / (den * 2 ^ e) = V / den / 2 ^ e := (Nat.div_div_eq_div_mul _ _ _).symm
  have hq : V / (den * 2 ^ e) < 2 ^ 53 := by
    rwa [hqe, Nat.div_lt_iff_lt_mul (Nat.two_pow_pos e), ← Nat.pow_add, Nat.add_comm]
  have hq' : e = 0 ∨ 2 ^ 52 ≤ V / (den * 2 ^ e) := by
    rcases Nat.eq_zero_or_pos e with h | h
    · exact .inl h
    · right
      rw [hqe, Nat.le_div_iff_mul_le (Nat.two_pow_pos e), ← Nat.pow_add, show 52 + e = (V / den).log2 by omega]
      refine Nat.log2_self_le fun h0 => ?_
      simp [h0] at he
      omega
  have h1 := magUnits_of (e := e) hq.le hq'
  have h2 := magUnits_of (e := e) (m := V / (den * 2 ^ e) + 1) (by omega) (by omega)
  refine ⟨e * 2 ^ 52 + V / (den * 2 ^ e), V % (den * 2 ^ e), den * 2 ^ e, ?_, Nat.mod_lt _ hD, ?_, ?_⟩
  · rw [h1]
    conv => rhs; rw [← Nat.div_add_mod V (den * 2 ^ e)]
    ring
  · rw [Nat.add_assoc, h1, h2]
    ring
  · rw [show (e * 2 ^ 52 + V / (den * 2 ^ e)) % 2 = V / (den * 2 ^ e) % 2 by omega, flMagnitude_of_lt ho hV he, roundTiesEven]
    generalize V / (den * 2 ^ e) = q
    split <;> omega

theorem nearest_of_between {V den p r D : Nat} (hd : 0 < den) (h1 : magUnits p * den + r = V) (h2 : r < D)
    (h3 : magUnits (p + 1) * den = magUnits p * den + D) (x : Nat) :
    let q := if D < 2 * r ∨ (2 * r = D ∧ p % 2 = 1) then p + 1 else p
    |(magUnits q * den : Int) - V| ≤ |(magUnits x * den : Int) - V| ∧
      (magUnits x ≠ magUnits q → |(magUnits x * den : Int) - V| = |(magUnits q * den : Int) - V| → q % 2 = 0) := by
  have hx : magUnits x * den ≤ magUnits p * den ∨ magUnits (p + 1) * den ≤ magUnits x * den := by
    rcases Nat.lt_or_ge p x with h | h
    · exact .inr (Nat.mul_le_mul_right _ (magUnits_strictMono.monotone h))
    · exact .inl (Nat.mul_le_mul_right _ (magUnits_strictMono.monotone h))
  have hne : ∀ y, magUnits x ≠ magUnits y → magUnits x * den ≠ magUnits y * den :=
    fun y h hc => h (Nat.eq_of_mul_eq_mul_right hd hc)
  have e1 := hne p
  have e2 := hne (p + 1)
  simp only [← Nat.cast_mul]
  split
  all_goals
    refine ⟨?_, fun hn => ?_⟩
    · generalize magUnits x * den = X at *
      generalize magUnits p * den = A at *
      generalize magUnits (p + 1) * den = B at *
      simp only [abs_eq_max_neg]
      omega
    · first | have := e2 hn | have := e1 hn
      generalize magUnits x * den = X at *
      generalize magUnits p * den = A at *
      generalize magUnits (p + 1) * den = B at *
      simp only [abs_eq_max_neg]
      omega

/-- Below the overflow no pattern is nearer to `num / den`, and on a tie the pattern is even. -/
theorem flMagnitude_nearest {num den : Nat} (hd : 0 < den) (ho : ¬overflowBound * den ≤ num) (x : Nat) :
    let v : Int := (num * unitsPerOne : Nat)
    |(magUnits (flMagnitude num den) * den : Int) - v| ≤ |(magUnits x * den : Int) - v| ∧
      (magUnits x ≠ magUnits (flMagnitude num den) →
        |(magUnits x * den : Int) - v| = |(magUnits (flMagnitude num den) * den : Int) - v| →
        flMagnitude num den % 2 = 0) := by
  obtain ⟨p, r, D, h1, h2, h3, h4⟩ := flMagnitude_between hd ho
  rw [h4]
  exact nearest_of_between hd h1 h2 h3 x

/-- Below the overflow the pattern is finite. -/
theorem flMagnitude_lt {num den : Nat} (hd : 0 < den) (ho : ¬overflowBound * den ≤ num) :
    flMagnitude num den < infMagnitude := by
  have mid : ∀ {A B C V : Nat}, |(C : Int) - V| ≤ |(A : Int) - V| → B ≤ C → A < B → 2 * V < A + B → False := by
    intro A B C V hn hge hlt hV
    simp only [abs_eq_max_neg] at hn
    omega
  by_contra hc
  have hV : 2 * (num * unitsPerOne) < (magUnits (infMagnitude - 1) + magUnits infMagnitude) * den := by
    rw [← overflowBound_middle]
    have := Nat.mul_lt_mul_of_pos_right (not_le.1 ho) unitsPerOne_pos
    nlinarith
  rw [Nat.add_mul] at hV
  have hn := (flMagnitude_nearest hd ho (infMagnitude - 1)).1
  simp only [← Nat.cast_mul] at hn
  exact mid hn (Nat.mul_le_mul_right _ (magUnits_strictMono.monotone (not_lt.1 hc)))
    (Nat.mul_lt_mul_of_pos_right (magUnits_strictMono (Nat.sub_lt infMagnitude_pos Nat.one_pos)) hd) hV

/-- From the overflow up the pattern is that of an infinity. -/
theorem flMagnitude_of_le {num den : Nat} (ho : overflowBound * den ≤ num) : flMagnitude num den = infMagnitude := by
  unfold flMagnitude
  exact if_pos ho

/-- A zero rounds to the pattern of a zero. -/
theorem flMagnitude_zero {den : Nat} (hd : 0 < den) : flMagnitude 0 den = 0 := by
  have hb := Nat.mul_pos overflowBound_pos hd
  obtain ⟨p, r, D, h1, h2, h3, h4⟩ := flMagnitude_between (num := 0) hd (by omega)
  have hr : r = 0 := by omega
  have hp : magUnits p = 0 := by
    have h : magUnits p * den = 0 := by omega
    exact (Nat.mul_eq_zero.1 h).resolve_right (by omega)
  have hp0 : p = 0 := magUnits_strictMono.injective (hp.trans magUnits_zero.symm)
  rw [h4, if_neg (by omega), hp0]

/-! ### The rounding of a signed number -/

theorem flMagnitude_le_inf {num den : Nat} (hd : 0 < den) : flMagnitude num den ≤ infMagnitude := by
  by_cases ho : overflowBound * den ≤ num
  · exact (flMagnitude_of_le ho).le
  · exact (flMagnitude_lt hd ho).le

/-- The sign and the magnitude of `fl`. -/
theorem fl_toNat (neg : Bool) {num den : Nat} (hd : 0 < den) :
    (fl neg num den).toNat = (if neg then 2 ^ 63 else 0) + flMagnitude num den := by
  have h := flMagnitude_le_inf (num := num) hd
  have hi : infMagnitude < 2 ^ 63 := by decide
  simp only [fl, BitVec.toNat_ofNat]
  split <;> omega

theorem fl_magnitude (neg : Bool) {num den : Nat} (hd : 0 < den) :
    (fl neg num den).toNat % 2 ^ 63 = flMagnitude num den := by
  have h := flMagnitude_le_inf (num := num) hd
  have hi : infMagnitude < 2 ^ 63 := by decide
  rw [fl_toNat neg hd]
  split <;> omega

@[simp] theorem f64Sign_fl (neg : Bool) {num den : Nat} (hd : 0 < den) : f64Sign (fl neg num den) = neg := by
  have h := flMagnitude_le_inf (num := num) hd
  have hi : infMagnitude < 2 ^ 63 := by decide
  rw [f64Sign_eq, fl_toNat neg hd]
  cases neg
  · simp
    omega
  · simp

/-- A zero keeps the sign it is given. -/
theorem fl_zero (neg : Bool) {den : Nat} (hd : 0 < den) : fl neg 0 den = if neg then 0x8000000000000000 else 0 := by
  simp only [fl, flMagnitude_zero hd]
  cases neg <;> rfl

/-- The value of a finite pattern: its units by the units in 1. -/
def f64Ratio (a : F64) : ℚ := f64Value a / unitsPerOne

theorem f64Ratio_eq (a : F64) : f64Ratio a = (if f64Sign a then -1 else 1) * ((f64Units a : ℚ) / unitsPerOne) := by
  simp only [f64Ratio, f64Value]
  split <;> push_cast <;> ring

/-- From the overflow up, `fl` is an infinity of the number's sign. -/
theorem fl_overflow (neg : Bool) {num den : Nat} (ho : overflowBound * den ≤ num) :
    fl neg num den = if neg then 0xFFF0000000000000 else 0x7FF0000000000000 := by
  simp only [fl, flMagnitude_of_le ho]
  cases neg <;> rfl

/-- Below the overflow, `fl` is finite, no finite pattern is nearer, and on a tie its significand is even. -/
theorem fl_nearest (neg : Bool) {num den : Nat} (hd : 0 < den) (ho : ¬overflowBound * den ≤ num) :
    let r : ℚ := (if neg then -1 else 1) * (num / den)
    f64Finite (fl neg num den) = true ∧
    ∀ d : F64,
      |f64Ratio (fl neg num den) - r| ≤ |f64Ratio d - r| ∧
      (f64Ratio d ≠ f64Ratio (fl neg num den) → |f64Ratio d - r| = |f64Ratio (fl neg num den) - r| →
        (fl neg num den).getLsbD 0 = false) := by
  intro r
  have hmod := fl_magnitude neg (num := num) hd
  refine ⟨by rw [f64Finite_iff, hmod]; exact flMagnitude_lt hd ho, fun d => ?_⟩
  have hbit : flMagnitude num den % 2 = 0 → (fl neg num den).getLsbD 0 = false := by
    intro h
    simp only [BitVec.getLsbD, Nat.testBit_eq_decide_div_mod_eq, fl_toNat neg hd, decide_eq_false_iff_not]
    split <;> omega
  have hone : (0 : ℚ) < unitsPerOne := by exact_mod_cast unitsPerOne_pos
  have hden : (0 : ℚ) < den := by exact_mod_cast hd
  have hu : (0 : ℚ) < den * unitsPerOne := by positivity
  have scale : ∀ y : Nat, |(magUnits y : ℚ) / unitsPerOne - num / den| * (den * unitsPerOne) =
      ((|(magUnits y * den : Int) - (num * unitsPerOne : Nat)| : Int) : ℚ) := by
    intro y
    rw [Int.cast_abs, ← abs_of_pos hu, ← abs_mul]
    congr 1
    push_cast
    field_simp
  have key : ∀ x : Nat,
      |(magUnits (flMagnitude num den) : ℚ) / unitsPerOne - num / den| ≤ |(magUnits x : ℚ) / unitsPerOne - num / den| ∧
      (magUnits x ≠ magUnits (flMagnitude num den) →
        |(magUnits x : ℚ) / unitsPerOne - num / den| = |(magUnits (flMagnitude num den) : ℚ) / unitsPerOne - num / den| →
        flMagnitude num den % 2 = 0) := by
    intro x
    obtain ⟨h1, h2⟩ := flMagnitude_nearest hd ho x
    refine ⟨le_of_mul_le_mul_right (by rw [scale, scale]; exact_mod_cast h1) hu, fun hne heq => h2 hne ?_⟩
    have := congrArg (· * ((den : ℚ) * unitsPerOne)) heq
    simp only [scale] at this
    exact_mod_cast this
  obtain ⟨k1, k2⟩ := key (d.toNat % 2 ^ 63)
  obtain ⟨z1, z2⟩ := key 0
  have hr0 : (0 : ℚ) ≤ num / den := by positivity
  have hX0 : (0 : ℚ) ≤ (magUnits (d.toNat % 2 ^ 63) : ℚ) / unitsPerOne := by positivity
  simp only [f64Ratio_eq, f64Sign_fl neg hd, f64Units_eq, hmod, r]
  have hz : (magUnits 0 : ℚ) / unitsPerOne = 0 := by simp [magUnits_zero]
  have hinj : (magUnits (d.toNat % 2 ^ 63) : ℚ) / unitsPerOne ≠ (magUnits (flMagnitude num den) : ℚ) / unitsPerOne →
      magUnits (d.toNat % 2 ^ 63) ≠ magUnits (flMagnitude num den) := fun h hc => h (by rw [hc])
  have hinj0 : (0 : ℚ) ≠ (magUnits (flMagnitude num den) : ℚ) / unitsPerOne → magUnits 0 ≠ magUnits (flMagnitude num den) :=
    fun h hc => h (by rw [← hc, hz])
  rw [hz, zero_sub, abs_neg, abs_of_nonneg hr0] at z1 z2
  generalize (num : ℚ) / den = r at *
  generalize (magUnits (flMagnitude num den) : ℚ) / unitsPerOne = C at *
  generalize (magUnits (d.toNat % 2 ^ 63) : ℚ) / unitsPerOne = X at *
  have same : |C - r| ≤ |X - r| ∧ (X ≠ C → |X - r| = |C - r| → (fl neg num den).getLsbD 0 = false) :=
    ⟨k1, fun h1 h2 => hbit (k2 (hinj h1) h2)⟩
  have opp : |C - r| ≤ |-X - r| ∧ (-X ≠ C → |-X - r| = |C - r| → (fl neg num den).getLsbD 0 = false) := by
    have e : |-X - r| = X + r := by rw [abs_of_nonpos (by linarith)]; ring
    refine ⟨by rw [e]; linarith, fun h1 h2 => ?_⟩
    rw [e] at h2
    obtain rfl : X = 0 := by linarith
    exact hbit (z2 (hinj0 (by simpa using h1)) (by linarith))
  have flip : ∀ x : ℚ, |-x - -r| = |x - r| := fun x => by rw [← abs_neg]; congr 1; ring
  have flip' : |X - -r| = |-X - r| := by rw [← abs_neg]; congr 1; ring
  cases neg <;> by_cases hs : f64Sign d = true
  · simp only [hs, if_true, Bool.false_eq_true, if_false, one_mul, neg_one_mul]
    exact opp
  · simp only [hs, if_false, Bool.false_eq_true, one_mul]
    exact same
  · simp only [hs, if_true, neg_one_mul, flip]
    exact ⟨same.1, fun h => same.2 fun hc => h (by rw [hc])⟩
  · simp only [hs, if_true, if_false, Bool.false_eq_true, neg_one_mul, one_mul, flip, flip']
    exact ⟨opp.1, fun h => opp.2 fun hc => h (by rw [← hc]; ring)⟩

end Sys2Proof.Machine
end

