-- ==== Sys2Proof/Laws/Memory.lean ====
section
/-! SUPPORT. The laws of memory: what a read gives after a write, the canonical form, and the byte orders. -/

namespace Sys2Proof.Machine

/-! ### One byte -/

theorem Memory.wf_cons {k : Nat} {v : Byte} {rest : Memory} :
    Memory.wf ((k, v) :: rest) = true ↔
      v ≠ Memory.unlisted ∧ (∀ c ∈ rest, k < c.1) ∧ Memory.wf rest = true := by
  simp [Memory.wf, and_assoc]

/-- An address below every listed one reads as an unlisted byte. -/
theorem Memory.read_below {m : Memory} {a : Nat} (h : ∀ c ∈ m, a < c.1) : m.read a = Memory.unlisted := by
  induction m with
  | nil => rfl
  | cons c rest ih =>
    obtain ⟨k, v⟩ := c
    have hk : a < k := h (k, v) (by simp)
    simp only [Memory.read]
    rw [if_neg (by omega), ih (fun c hc => h c (by simp [hc]))]

/-- A byte reads back as written. The canonical form is needed: it says that no later entry shadows a removed one. -/
theorem Memory.read_write_same {m : Memory} (h : m.wf = true) (a : Nat) (b : Byte) : (m.write a b).read a = b := by
  induction m with
  | nil => by_cases hb : b = Memory.unlisted <;> simp [Memory.write, Memory.read, hb]
  | cons c rest ih =>
    obtain ⟨k, v⟩ := c
    obtain ⟨hv, hk, hr⟩ := Memory.wf_cons.1 h
    simp only [Memory.write]
    split
    · rename_i hlt
      split
      · rename_i hb
        rw [hb]
        apply Memory.read_below
        intro c hc
        rcases List.mem_cons.1 hc with rfl | hc
        · exact hlt
        · have := hk c hc; omega
      · simp [Memory.read]
    · split
      · rename_i heq
        subst heq
        split
        · rename_i hb; rw [hb]; exact Memory.read_below hk
        · simp [Memory.read]
      · rename_i hne
        simp only [Memory.read]
        rw [if_neg (fun e => hne e.symm), ih hr]

/-- A write leaves every other byte alone. -/
theorem Memory.read_write_other (m : Memory) {a x : Nat} (b : Byte) (hx : x ≠ a) :
    (m.write a b).read x = m.read x := by
  induction m with
  | nil => by_cases hb : b = Memory.unlisted <;> simp [Memory.write, Memory.read, hb, Ne.symm hx]
  | cons c rest ih =>
    obtain ⟨k, v⟩ := c
    simp only [Memory.write]
    split
    · split
      · rfl
      · simp [Memory.read, Ne.symm hx]
    · split
      · rename_i heq
        subst heq
        split <;> simp [Memory.read, Ne.symm hx]
      · simp only [Memory.read, ih]

theorem Memory.write_above {m : Memory} {a k : Nat} {b : Byte} (h : ∀ c ∈ m, k < c.1) (ha : k < a) :
    ∀ c ∈ m.write a b, k < c.1 := by
  induction m with
  | nil => by_cases hb : b = Memory.unlisted <;> simp [Memory.write, hb, ha]
  | cons c rest ih =>
    obtain ⟨k', v⟩ := c
    have hk' : k < k' := h (k', v) (by simp)
    have hr : ∀ c ∈ rest, k < c.1 := fun c hc => h c (by simp [hc])
    intro c hc
    simp only [Memory.write] at hc
    split at hc
    · split at hc
      · exact h c hc
      · rcases List.mem_cons.1 hc with rfl | hc
        · exact ha
        · exact h c hc
    · split at hc
      · split at hc
        · exact hr c hc
        · rcases List.mem_cons.1 hc with rfl | hc
          · exact ha
          · exact hr c hc
      · rcases List.mem_cons.1 hc with rfl | hc
        · exact hk'
        · exact ih hr c hc

/-- A write keeps the canonical form. -/
theorem Memory.wf_write {m : Memory} (h : m.wf = true) (a : Nat) (b : Byte) : (m.write a b).wf = true := by
  induction m with
  | nil => by_cases hb : b = Memory.unlisted <;> simp [Memory.write, Memory.wf, hb]
  | cons c rest ih =>
    obtain ⟨k, v⟩ := c
    obtain ⟨hv, hk, hr⟩ := Memory.wf_cons.1 h
    simp only [Memory.write]
    split
    · rename_i hlt
      split
      · exact h
      · rename_i hb
        refine Memory.wf_cons.2 ⟨hb, fun c hc => ?_, h⟩
        rcases List.mem_cons.1 hc with rfl | hc
        · exact hlt
        · have := hk c hc; omega
    · split
      · rename_i heq
        subst heq
        split
        · exact hr
        · rename_i hb
          exact Memory.wf_cons.2 ⟨hb, hk, hr⟩
      · rename_i hlt hne
        exact Memory.wf_cons.2 ⟨hv, Memory.write_above hk (by omega), ih hr⟩

/-! ### Byte strings -/

/-- A stored byte string keeps the canonical form. -/
theorem Memory.wf_writeBytes {m : Memory} (h : m.wf = true) (a : Nat) (bs : List Byte) :
    (m.writeBytes a bs).wf = true := by
  induction bs generalizing m a with
  | nil => exact h
  | cons b bs ih => exact ih (Memory.wf_write h a b) (a + 1)

/-- A stored byte string leaves every byte outside its addresses alone. -/
theorem Memory.read_writeBytes_outside (m : Memory) {a x : Nat} (bs : List Byte) (hx : x < a ∨ a + bs.length ≤ x) :
    (m.writeBytes a bs).read x = m.read x := by
  induction bs generalizing m a with
  | nil => rfl
  | cons b bs ih =>
    simp only [List.length_cons] at hx
    rw [Memory.writeBytes, ih (m := m.write a b) (by omega), Memory.read_write_other _ _ (by omega)]

/-- Each byte of a stored byte string reads back. -/
theorem Memory.read_writeBytes_inside {m : Memory} (h : m.wf = true) (a : Nat) (bs : List Byte) {i : Nat}
    (hi : i < bs.length) : (m.writeBytes a bs).read (a + i) = bs[i] := by
  induction bs generalizing m a i with
  | nil => simp at hi
  | cons b bs ih =>
    cases i with
    | zero =>
      rw [Memory.writeBytes, Memory.read_writeBytes_outside _ _ (by omega)]
      exact Memory.read_write_same h a b
    | succ i =>
      have := ih (Memory.wf_write h a b) (a + 1) (i := i) (by simpa using hi)
      rw [Memory.writeBytes, show a + (i + 1) = a + 1 + i by omega, this]
      rfl

theorem Memory.readBytes_length (m : Memory) (a n : Nat) : (m.readBytes a n).length = n := by
  induction n generalizing a with
  | zero => rfl
  | succ n ih => simp [Memory.readBytes, ih]

/-- A byte string is read byte by byte. -/
theorem Memory.readBytes_eq_map (m : Memory) (a n : Nat) :
    m.readBytes a n = (List.range n).map fun i => m.read (a + i) := by
  induction n generalizing a with
  | zero => rfl
  | succ n ih =>
    rw [Memory.readBytes, ih, List.range_succ_eq_map]
    simp [Function.comp_def, Nat.add_assoc, Nat.add_comm 1]

/-- Two memories that read alike on a range have the same byte string there. -/
theorem Memory.readBytes_congr {m m' : Memory} {a n : Nat} (h : ∀ i, i < n → m.read (a + i) = m'.read (a + i)) :
    m.readBytes a n = m'.readBytes a n := by
  rw [Memory.readBytes_eq_map, Memory.readBytes_eq_map]
  exact List.map_congr_left fun i hi => h i (List.mem_range.1 hi)

/-- A stored byte string reads back whole. -/
theorem Memory.readBytes_writeBytes {m : Memory} (h : m.wf = true) (a : Nat) (bs : List Byte) :
    (m.writeBytes a bs).readBytes a bs.length = bs := by
  rw [Memory.readBytes_eq_map]
  apply List.ext_getElem (by simp)
  intro i h1 h2
  simp only [List.getElem_map, List.getElem_range]
  exact Memory.read_writeBytes_inside h a bs h2

/-- The RAMs that an abort leaves open keep the canonical form. -/
theorem Memory.wf_abortRams {m : Memory} (h : m.wf = true) (p : Params) (n : Nat) (rams : List Ram) :
    (m.abortRams p n rams).wf = true := by
  unfold Memory.abortRams
  induction rams generalizing m with
  | nil => exact h
  | cons r rams ih => exact ih (Memory.wf_writeBytes h _ _)

/-- What a soft reset leaves in memory is in the canonical form. -/
theorem State.resetMem_wf {s : State} (h : s.mem.wf = true) : s.resetMem.wf = true := by
  unfold State.resetMem
  split
  · exact h
  · split
    · exact h
    · exact Memory.wf_abortRams h _ _ _

/-! ### Byte orders -/

theorem toLE_length (n v : Nat) : (toLE n v).length = n := by
  induction n generalizing v with
  | zero => rfl
  | succ n ih => simp [toLE, ih]

/-- The little-endian bytes of a number read back as the number, modulo their range. -/
theorem fromLE_toLE (n v : Nat) : fromLE (toLE n v) = v % 256 ^ n := by
  induction n generalizing v with
  | zero => simp [toLE, fromLE, Nat.mod_one]
  | succ n ih =>
    have h : (256 : Nat) ^ (n + 1) = 256 * 256 ^ n := by rw [Nat.pow_succ, Nat.mul_comm]
    simp only [toLE, fromLE, ih, BitVec.toNat_ofNat, h, Nat.mod_mul]

theorem be32_length (v : Word) : (be32 v).length = 4 := by simp [be32, toLE_length]

/-- BE32 loses nothing. -/
theorem fromBE_be32 (v : Word) : fromBE (be32 v) = v.toNat := by
  have h := v.isLt
  simp only [be32, fromBE, List.reverse_reverse, fromLE_toLE]
  exact Nat.mod_eq_of_lt (by omega)

theorem bytes32_length (vs : List Word) : (bytes32 vs).length = 4 * vs.length := by
  induction vs with
  | nil => rfl
  | cons v vs ih =>
    have : bytes32 (v :: vs) = toLE 4 v.toNat ++ bytes32 vs := rfl
    rw [this, List.length_append, ih, toLE_length, List.length_cons]; omega

theorem bytes64_length (vs : List DWord) : (bytes64 vs).length = 8 * vs.length := by
  induction vs with
  | nil => rfl
  | cons v vs ih =>
    have : bytes64 (v :: vs) = toLE 8 v.toNat ++ bytes64 vs := rfl
    rw [this, List.length_append, ih, toLE_length, List.length_cons]; omega

/-! ### Bytes of a word, one by one -/

theorem toNat_append_byte {n : Nat} (x : BitVec n) (b : Byte) : (x ++ b).toNat = 256 * x.toNat + b.toNat := by
  rw [BitVec.toNat_append, ← Nat.shiftLeft_add_eq_or_of_lt b.isLt, Nat.shiftLeft_eq, Nat.mul_comm]

/-- BE32 byte by byte (00_scope.md R8). -/
theorem be32_bytes (v : Word) :
    be32 v = [v.extractLsb' 24 8, v.extractLsb' 16 8, v.extractLsb' 8 8, v.extractLsb' 0 8] := by
  simp only [be32, toLE, List.reverse_cons, List.reverse_nil, List.nil_append, List.cons_append, List.cons.injEq, and_true]
  refine ⟨?_, ?_, ?_, ?_⟩ <;> apply BitVec.eq_of_toNat_eq <;> simp <;> omega

/-- Four little-endian bytes as a word (20_memory.md R77). -/
theorem ofNat_fromLE_four (a b c d : Byte) : BitVec.ofNat 32 (fromLE [a, b, c, d]) = d ++ c ++ b ++ a := by
  have ha := a.isLt; have hb := b.isLt; have hc := c.isLt; have hd := d.isLt
  apply BitVec.eq_of_toNat_eq
  have e : ∀ m : Nat, (d ++ c ++ b ++ a : BitVec 32).toNat = m ↔ (d ++ c ++ b ++ a).toNat = m := fun _ => Iff.rfl
  rw [eq_comm, e]
  simp only [toNat_append_byte, fromLE, BitVec.toNat_ofNat]
  omega

/-- Eight big-endian bytes as a lane (00_scope.md R8, 42_prng.md R151). -/
theorem ofNat_fromBE_eight (a b c d e f g h : Byte) :
    BitVec.ofNat 64 (fromBE [a, b, c, d, e, f, g, h]) = a ++ b ++ c ++ d ++ e ++ f ++ g ++ h := by
  have ha := a.isLt; have hb := b.isLt; have hc := c.isLt; have hd := d.isLt
  have he := e.isLt; have hf := f.isLt; have hg := g.isLt; have hh := h.isLt
  apply BitVec.eq_of_toNat_eq
  have e : ∀ m : Nat, (a ++ b ++ c ++ d ++ e ++ f ++ g ++ h : BitVec 64).toNat = m ↔
      (a ++ b ++ c ++ d ++ e ++ f ++ g ++ h).toNat = m := fun _ => Iff.rfl
  rw [eq_comm, e]
  simp only [toNat_append_byte, fromBE, fromLE, List.reverse_cons, List.reverse_nil, List.nil_append, List.cons_append,
    BitVec.toNat_ofNat]
  omega

end Sys2Proof.Machine
end

