-- ==== Sys2Proof/Laws/State.lean ====
section
/-! SUPPORT. One lemma per field per state update, true by rfl, so that no proof unfolds a record update. -/

namespace Sys2Proof.Machine

/-! ### complete -/

@[simp] theorem State.complete_params (s : State) (c : ErrorCode) :
    (s.complete c).params = s.params := rfl
@[simp] theorem State.complete_ie (s : State) (c : ErrorCode) :
    (s.complete c).ie = s.ie := rfl
@[simp] theorem State.complete_done (s : State) (c : ErrorCode) :
    (s.complete c).done = true := rfl
@[simp] theorem State.complete_err (s : State) (c : ErrorCode) :
    (s.complete c).err = (s.err || c != .ok) := rfl
@[simp] theorem State.complete_cmdRej (s : State) (c : ErrorCode) :
    (s.complete c).cmdRej = s.cmdRej := rfl
@[simp] theorem State.complete_wDrop (s : State) (c : ErrorCode) :
    (s.complete c).wDrop = s.wDrop := rfl
@[simp] theorem State.complete_ftnValid (s : State) (c : ErrorCode) :
    (s.complete c).ftnValid = s.ftnValid := rfl
@[simp] theorem State.complete_smpValid (s : State) (c : ErrorCode) :
    (s.complete c).smpValid = s.smpValid := rfl
@[simp] theorem State.complete_errCode (s : State) (c : ErrorCode) :
    (s.complete c).errCode = c := rfl
@[simp] theorem State.complete_cmdLast (s : State) (c : ErrorCode) :
    (s.complete c).cmdLast = s.cmdLast := rfl
@[simp] theorem State.complete_args (s : State) (c : ErrorCode) :
    (s.complete c).args = s.args := rfl
@[simp] theorem State.complete_res0 (s : State) (c : ErrorCode) :
    (s.complete c).res0 = s.res0 := rfl
@[simp] theorem State.complete_res1 (s : State) (c : ErrorCode) :
    (s.complete c).res1 = s.res1 := rfl
@[simp] theorem State.complete_crcState (s : State) (c : ErrorCode) :
    (s.complete c).crcState = s.crcState := rfl
@[simp] theorem State.complete_lanes (s : State) (c : ErrorCode) :
    (s.complete c).lanes = s.lanes := rfl
@[simp] theorem State.complete_prngOut (s : State) (c : ErrorCode) :
    (s.complete c).prngOut = s.prngOut := rfl
@[simp] theorem State.complete_smpN (s : State) (c : ErrorCode) :
    (s.complete c).smpN = s.smpN := rfl
@[simp] theorem State.complete_ftnMsgLen (s : State) (c : ErrorCode) :
    (s.complete c).ftnMsgLen = s.ftnMsgLen := rfl
@[simp] theorem State.complete_ftnFragLen (s : State) (c : ErrorCode) :
    (s.complete c).ftnFragLen = s.ftnFragLen := rfl
@[simp] theorem State.complete_ftnFragCount (s : State) (c : ErrorCode) :
    (s.complete c).ftnFragCount = s.ftnFragCount := rfl
@[simp] theorem State.complete_ftnChecksum (s : State) (c : ErrorCode) :
    (s.complete c).ftnChecksum = s.ftnChecksum := rfl
@[simp] theorem State.complete_ftnSeqNum (s : State) (c : ErrorCode) :
    (s.complete c).ftnSeqNum = s.ftnSeqNum := rfl
@[simp] theorem State.complete_selCount (s : State) (c : ErrorCode) :
    (s.complete c).selCount = s.selCount := rfl
@[simp] theorem State.complete_selSeq (s : State) (c : ErrorCode) :
    (s.complete c).selSeq = s.selSeq := rfl
@[simp] theorem State.complete_pending (s : State) (c : ErrorCode) :
    (s.complete c).pending = none := rfl
@[simp] theorem State.complete_mem (s : State) (c : ErrorCode) :
    (s.complete c).mem = s.mem := rfl
@[simp] theorem State.complete_resp (s : State) (c : ErrorCode) :
    (s.complete c).resp = s.resp := rfl
@[simp] theorem State.complete_host (s : State) (c : ErrorCode) :
    (s.complete c).host = s.host := rfl
@[simp] theorem State.complete_draws (s : State) (c : ErrorCode) :
    (s.complete c).draws = s.draws := rfl

/-! ### memWrite -/

@[simp] theorem State.memWrite_params (s : State) (r : Ram) (o : Nat) (bs : List Byte) :
    (s.memWrite r o bs).params = s.params := rfl
@[simp] theorem State.memWrite_ie (s : State) (r : Ram) (o : Nat) (bs : List Byte) :
    (s.memWrite r o bs).ie = s.ie := rfl
@[simp] theorem State.memWrite_done (s : State) (r : Ram) (o : Nat) (bs : List Byte) :
    (s.memWrite r o bs).done = s.done := rfl
@[simp] theorem State.memWrite_err (s : State) (r : Ram) (o : Nat) (bs : List Byte) :
    (s.memWrite r o bs).err = s.err := rfl
@[simp] theorem State.memWrite_cmdRej (s : State) (r : Ram) (o : Nat) (bs : List Byte) :
    (s.memWrite r o bs).cmdRej = s.cmdRej := rfl
@[simp] theorem State.memWrite_wDrop (s : State) (r : Ram) (o : Nat) (bs : List Byte) :
    (s.memWrite r o bs).wDrop = s.wDrop := rfl
@[simp] theorem State.memWrite_ftnValid (s : State) (r : Ram) (o : Nat) (bs : List Byte) :
    (s.memWrite r o bs).ftnValid = s.ftnValid := rfl
@[simp] theorem State.memWrite_smpValid (s : State) (r : Ram) (o : Nat) (bs : List Byte) :
    (s.memWrite r o bs).smpValid = s.smpValid := rfl
@[simp] theorem State.memWrite_errCode (s : State) (r : Ram) (o : Nat) (bs : List Byte) :
    (s.memWrite r o bs).errCode = s.errCode := rfl
@[simp] theorem State.memWrite_cmdLast (s : State) (r : Ram) (o : Nat) (bs : List Byte) :
    (s.memWrite r o bs).cmdLast = s.cmdLast := rfl
@[simp] theorem State.memWrite_args (s : State) (r : Ram) (o : Nat) (bs : List Byte) :
    (s.memWrite r o bs).args = s.args := rfl
@[simp] theorem State.memWrite_res0 (s : State) (r : Ram) (o : Nat) (bs : List Byte) :
    (s.memWrite r o bs).res0 = s.res0 := rfl
@[simp] theorem State.memWrite_res1 (s : State) (r : Ram) (o : Nat) (bs : List Byte) :
    (s.memWrite r o bs).res1 = s.res1 := rfl
@[simp] theorem State.memWrite_crcState (s : State) (r : Ram) (o : Nat) (bs : List Byte) :
    (s.memWrite r o bs).crcState = s.crcState := rfl
@[simp] theorem State.memWrite_lanes (s : State) (r : Ram) (o : Nat) (bs : List Byte) :
    (s.memWrite r o bs).lanes = s.lanes := rfl
@[simp] theorem State.memWrite_prngOut (s : State) (r : Ram) (o : Nat) (bs : List Byte) :
    (s.memWrite r o bs).prngOut = s.prngOut := rfl
@[simp] theorem State.memWrite_smpN (s : State) (r : Ram) (o : Nat) (bs : List Byte) :
    (s.memWrite r o bs).smpN = s.smpN := rfl
@[simp] theorem State.memWrite_ftnMsgLen (s : State) (r : Ram) (o : Nat) (bs : List Byte) :
    (s.memWrite r o bs).ftnMsgLen = s.ftnMsgLen := rfl
@[simp] theorem State.memWrite_ftnFragLen (s : State) (r : Ram) (o : Nat) (bs : List Byte) :
    (s.memWrite r o bs).ftnFragLen = s.ftnFragLen := rfl
@[simp] theorem State.memWrite_ftnFragCount (s : State) (r : Ram) (o : Nat) (bs : List Byte) :
    (s.memWrite r o bs).ftnFragCount = s.ftnFragCount := rfl
@[simp] theorem State.memWrite_ftnChecksum (s : State) (r : Ram) (o : Nat) (bs : List Byte) :
    (s.memWrite r o bs).ftnChecksum = s.ftnChecksum := rfl
@[simp] theorem State.memWrite_ftnSeqNum (s : State) (r : Ram) (o : Nat) (bs : List Byte) :
    (s.memWrite r o bs).ftnSeqNum = s.ftnSeqNum := rfl
@[simp] theorem State.memWrite_selCount (s : State) (r : Ram) (o : Nat) (bs : List Byte) :
    (s.memWrite r o bs).selCount = s.selCount := rfl
@[simp] theorem State.memWrite_selSeq (s : State) (r : Ram) (o : Nat) (bs : List Byte) :
    (s.memWrite r o bs).selSeq = s.selSeq := rfl
@[simp] theorem State.memWrite_pending (s : State) (r : Ram) (o : Nat) (bs : List Byte) :
    (s.memWrite r o bs).pending = s.pending := rfl
@[simp] theorem State.memWrite_mem (s : State) (r : Ram) (o : Nat) (bs : List Byte) :
    (s.memWrite r o bs).mem = s.mem.writeBytes (r.base + o) bs := rfl
@[simp] theorem State.memWrite_resp (s : State) (r : Ram) (o : Nat) (bs : List Byte) :
    (s.memWrite r o bs).resp = s.resp := rfl
@[simp] theorem State.memWrite_host (s : State) (r : Ram) (o : Nat) (bs : List Byte) :
    (s.memWrite r o bs).host = s.host := rfl
@[simp] theorem State.memWrite_draws (s : State) (r : Ram) (o : Nat) (bs : List Byte) :
    (s.memWrite r o bs).draws = s.draws := rfl

/-! ### writeSel -/

@[simp] theorem State.writeSel_params (s : State) (sel : List Nat) (seq : Word) :
    (s.writeSel sel seq).params = s.params := rfl
@[simp] theorem State.writeSel_ie (s : State) (sel : List Nat) (seq : Word) :
    (s.writeSel sel seq).ie = s.ie := rfl
@[simp] theorem State.writeSel_done (s : State) (sel : List Nat) (seq : Word) :
    (s.writeSel sel seq).done = s.done := rfl
@[simp] theorem State.writeSel_err (s : State) (sel : List Nat) (seq : Word) :
    (s.writeSel sel seq).err = s.err := rfl
@[simp] theorem State.writeSel_cmdRej (s : State) (sel : List Nat) (seq : Word) :
    (s.writeSel sel seq).cmdRej = s.cmdRej := rfl
@[simp] theorem State.writeSel_wDrop (s : State) (sel : List Nat) (seq : Word) :
    (s.writeSel sel seq).wDrop = s.wDrop := rfl
@[simp] theorem State.writeSel_ftnValid (s : State) (sel : List Nat) (seq : Word) :
    (s.writeSel sel seq).ftnValid = s.ftnValid := rfl
@[simp] theorem State.writeSel_smpValid (s : State) (sel : List Nat) (seq : Word) :
    (s.writeSel sel seq).smpValid = s.smpValid := rfl
@[simp] theorem State.writeSel_errCode (s : State) (sel : List Nat) (seq : Word) :
    (s.writeSel sel seq).errCode = s.errCode := rfl
@[simp] theorem State.writeSel_cmdLast (s : State) (sel : List Nat) (seq : Word) :
    (s.writeSel sel seq).cmdLast = s.cmdLast := rfl
@[simp] theorem State.writeSel_args (s : State) (sel : List Nat) (seq : Word) :
    (s.writeSel sel seq).args = s.args := rfl
@[simp] theorem State.writeSel_res0 (s : State) (sel : List Nat) (seq : Word) :
    (s.writeSel sel seq).res0 = s.res0 := rfl
@[simp] theorem State.writeSel_res1 (s : State) (sel : List Nat) (seq : Word) :
    (s.writeSel sel seq).res1 = s.res1 := rfl
@[simp] theorem State.writeSel_crcState (s : State) (sel : List Nat) (seq : Word) :
    (s.writeSel sel seq).crcState = s.crcState := rfl
@[simp] theorem State.writeSel_lanes (s : State) (sel : List Nat) (seq : Word) :
    (s.writeSel sel seq).lanes = s.lanes := rfl
@[simp] theorem State.writeSel_prngOut (s : State) (sel : List Nat) (seq : Word) :
    (s.writeSel sel seq).prngOut = s.prngOut := rfl
@[simp] theorem State.writeSel_smpN (s : State) (sel : List Nat) (seq : Word) :
    (s.writeSel sel seq).smpN = s.smpN := rfl
@[simp] theorem State.writeSel_ftnMsgLen (s : State) (sel : List Nat) (seq : Word) :
    (s.writeSel sel seq).ftnMsgLen = s.ftnMsgLen := rfl
@[simp] theorem State.writeSel_ftnFragLen (s : State) (sel : List Nat) (seq : Word) :
    (s.writeSel sel seq).ftnFragLen = s.ftnFragLen := rfl
@[simp] theorem State.writeSel_ftnFragCount (s : State) (sel : List Nat) (seq : Word) :
    (s.writeSel sel seq).ftnFragCount = s.ftnFragCount := rfl
@[simp] theorem State.writeSel_ftnChecksum (s : State) (sel : List Nat) (seq : Word) :
    (s.writeSel sel seq).ftnChecksum = s.ftnChecksum := rfl
@[simp] theorem State.writeSel_ftnSeqNum (s : State) (sel : List Nat) (seq : Word) :
    (s.writeSel sel seq).ftnSeqNum = s.ftnSeqNum := rfl
@[simp] theorem State.writeSel_selCount (s : State) (sel : List Nat) (seq : Word) :
    (s.writeSel sel seq).selCount = BitVec.ofNat 32 sel.length := rfl
@[simp] theorem State.writeSel_selSeq (s : State) (sel : List Nat) (seq : Word) :
    (s.writeSel sel seq).selSeq = seq := rfl
@[simp] theorem State.writeSel_pending (s : State) (sel : List Nat) (seq : Word) :
    (s.writeSel sel seq).pending = s.pending := rfl
@[simp] theorem State.writeSel_mem (s : State) (sel : List Nat) (seq : Word) :
    (s.writeSel sel seq).mem = s.mem.writeBytes 0x40000 (bytes32 (selEntries sel)) := rfl
@[simp] theorem State.writeSel_resp (s : State) (sel : List Nat) (seq : Word) :
    (s.writeSel sel seq).resp = s.resp := rfl
@[simp] theorem State.writeSel_host (s : State) (sel : List Nat) (seq : Word) :
    (s.writeSel sel seq).host = s.host := rfl
@[simp] theorem State.writeSel_draws (s : State) (sel : List Nat) (seq : Word) :
    (s.writeSel sel seq).draws = s.draws := rfl

/-! ### writeTable -/

@[simp] theorem State.writeTable_params (s : State) (t : AliasTable) :
    (s.writeTable t).params = s.params := rfl
@[simp] theorem State.writeTable_ie (s : State) (t : AliasTable) :
    (s.writeTable t).ie = s.ie := rfl
@[simp] theorem State.writeTable_done (s : State) (t : AliasTable) :
    (s.writeTable t).done = s.done := rfl
@[simp] theorem State.writeTable_err (s : State) (t : AliasTable) :
    (s.writeTable t).err = s.err := rfl
@[simp] theorem State.writeTable_cmdRej (s : State) (t : AliasTable) :
    (s.writeTable t).cmdRej = s.cmdRej := rfl
@[simp] theorem State.writeTable_wDrop (s : State) (t : AliasTable) :
    (s.writeTable t).wDrop = s.wDrop := rfl
@[simp] theorem State.writeTable_ftnValid (s : State) (t : AliasTable) :
    (s.writeTable t).ftnValid = s.ftnValid := rfl
@[simp] theorem State.writeTable_smpValid (s : State) (t : AliasTable) :
    (s.writeTable t).smpValid = s.smpValid := rfl
@[simp] theorem State.writeTable_errCode (s : State) (t : AliasTable) :
    (s.writeTable t).errCode = s.errCode := rfl
@[simp] theorem State.writeTable_cmdLast (s : State) (t : AliasTable) :
    (s.writeTable t).cmdLast = s.cmdLast := rfl
@[simp] theorem State.writeTable_args (s : State) (t : AliasTable) :
    (s.writeTable t).args = s.args := rfl
@[simp] theorem State.writeTable_res0 (s : State) (t : AliasTable) :
    (s.writeTable t).res0 = s.res0 := rfl
@[simp] theorem State.writeTable_res1 (s : State) (t : AliasTable) :
    (s.writeTable t).res1 = s.res1 := rfl
@[simp] theorem State.writeTable_crcState (s : State) (t : AliasTable) :
    (s.writeTable t).crcState = s.crcState := rfl
@[simp] theorem State.writeTable_lanes (s : State) (t : AliasTable) :
    (s.writeTable t).lanes = s.lanes := rfl
@[simp] theorem State.writeTable_prngOut (s : State) (t : AliasTable) :
    (s.writeTable t).prngOut = s.prngOut := rfl
@[simp] theorem State.writeTable_smpN (s : State) (t : AliasTable) :
    (s.writeTable t).smpN = s.smpN := rfl
@[simp] theorem State.writeTable_ftnMsgLen (s : State) (t : AliasTable) :
    (s.writeTable t).ftnMsgLen = s.ftnMsgLen := rfl
@[simp] theorem State.writeTable_ftnFragLen (s : State) (t : AliasTable) :
    (s.writeTable t).ftnFragLen = s.ftnFragLen := rfl
@[simp] theorem State.writeTable_ftnFragCount (s : State) (t : AliasTable) :
    (s.writeTable t).ftnFragCount = s.ftnFragCount := rfl
@[simp] theorem State.writeTable_ftnChecksum (s : State) (t : AliasTable) :
    (s.writeTable t).ftnChecksum = s.ftnChecksum := rfl
@[simp] theorem State.writeTable_ftnSeqNum (s : State) (t : AliasTable) :
    (s.writeTable t).ftnSeqNum = s.ftnSeqNum := rfl
@[simp] theorem State.writeTable_selCount (s : State) (t : AliasTable) :
    (s.writeTable t).selCount = s.selCount := rfl
@[simp] theorem State.writeTable_selSeq (s : State) (t : AliasTable) :
    (s.writeTable t).selSeq = s.selSeq := rfl
@[simp] theorem State.writeTable_pending (s : State) (t : AliasTable) :
    (s.writeTable t).pending = s.pending := rfl
@[simp] theorem State.writeTable_mem (s : State) (t : AliasTable) :
    (s.writeTable t).mem = (s.mem.writeBytes 0x60000 (bytes64 t.prob)).writeBytes 0x70000 (bytes32 (t.other.map (BitVec.ofNat 32))) := rfl
@[simp] theorem State.writeTable_resp (s : State) (t : AliasTable) :
    (s.writeTable t).resp = s.resp := rfl
@[simp] theorem State.writeTable_host (s : State) (t : AliasTable) :
    (s.writeTable t).host = s.host := rfl
@[simp] theorem State.writeTable_draws (s : State) (t : AliasTable) :
    (s.writeTable t).draws = s.draws := rfl

/-! ### writeStatus -/

@[simp] theorem State.writeStatus_params (s : State) (v : Word) :
    (s.writeStatus v).params = s.params := rfl
@[simp] theorem State.writeStatus_ie (s : State) (v : Word) :
    (s.writeStatus v).ie = s.ie := rfl
@[simp] theorem State.writeStatus_done (s : State) (v : Word) :
    (s.writeStatus v).done = (s.done && !v.getLsbD 1) := rfl
@[simp] theorem State.writeStatus_err (s : State) (v : Word) :
    (s.writeStatus v).err = (s.err && !v.getLsbD 2) := rfl
@[simp] theorem State.writeStatus_cmdRej (s : State) (v : Word) :
    (s.writeStatus v).cmdRej = (s.cmdRej && !v.getLsbD 3) := rfl
@[simp] theorem State.writeStatus_wDrop (s : State) (v : Word) :
    (s.writeStatus v).wDrop = (s.wDrop && !v.getLsbD 4) := rfl
@[simp] theorem State.writeStatus_ftnValid (s : State) (v : Word) :
    (s.writeStatus v).ftnValid = s.ftnValid := rfl
@[simp] theorem State.writeStatus_smpValid (s : State) (v : Word) :
    (s.writeStatus v).smpValid = s.smpValid := rfl
@[simp] theorem State.writeStatus_errCode (s : State) (v : Word) :
    (s.writeStatus v).errCode = s.errCode := rfl
@[simp] theorem State.writeStatus_cmdLast (s : State) (v : Word) :
    (s.writeStatus v).cmdLast = s.cmdLast := rfl
@[simp] theorem State.writeStatus_args (s : State) (v : Word) :
    (s.writeStatus v).args = s.args := rfl
@[simp] theorem State.writeStatus_res0 (s : State) (v : Word) :
    (s.writeStatus v).res0 = s.res0 := rfl
@[simp] theorem State.writeStatus_res1 (s : State) (v : Word) :
    (s.writeStatus v).res1 = s.res1 := rfl
@[simp] theorem State.writeStatus_crcState (s : State) (v : Word) :
    (s.writeStatus v).crcState = s.crcState := rfl
@[simp] theorem State.writeStatus_lanes (s : State) (v : Word) :
    (s.writeStatus v).lanes = s.lanes := rfl
@[simp] theorem State.writeStatus_prngOut (s : State) (v : Word) :
    (s.writeStatus v).prngOut = s.prngOut := rfl
@[simp] theorem State.writeStatus_smpN (s : State) (v : Word) :
    (s.writeStatus v).smpN = s.smpN := rfl
@[simp] theorem State.writeStatus_ftnMsgLen (s : State) (v : Word) :
    (s.writeStatus v).ftnMsgLen = s.ftnMsgLen := rfl
@[simp] theorem State.writeStatus_ftnFragLen (s : State) (v : Word) :
    (s.writeStatus v).ftnFragLen = s.ftnFragLen := rfl
@[simp] theorem State.writeStatus_ftnFragCount (s : State) (v : Word) :
    (s.writeStatus v).ftnFragCount = s.ftnFragCount := rfl
@[simp] theorem State.writeStatus_ftnChecksum (s : State) (v : Word) :
    (s.writeStatus v).ftnChecksum = s.ftnChecksum := rfl
@[simp] theorem State.writeStatus_ftnSeqNum (s : State) (v : Word) :
    (s.writeStatus v).ftnSeqNum = s.ftnSeqNum := rfl
@[simp] theorem State.writeStatus_selCount (s : State) (v : Word) :
    (s.writeStatus v).selCount = s.selCount := rfl
@[simp] theorem State.writeStatus_selSeq (s : State) (v : Word) :
    (s.writeStatus v).selSeq = s.selSeq := rfl
@[simp] theorem State.writeStatus_pending (s : State) (v : Word) :
    (s.writeStatus v).pending = s.pending := rfl
@[simp] theorem State.writeStatus_mem (s : State) (v : Word) :
    (s.writeStatus v).mem = s.mem := rfl
@[simp] theorem State.writeStatus_resp (s : State) (v : Word) :
    (s.writeStatus v).resp = s.resp := rfl
@[simp] theorem State.writeStatus_host (s : State) (v : Word) :
    (s.writeStatus v).host = s.host := rfl
@[simp] theorem State.writeStatus_draws (s : State) (v : Word) :
    (s.writeStatus v).draws = s.draws := rfl

/-! ### accept -/

@[simp] theorem State.accept_params (s : State) (w : Word) :
    (s.accept w).params = s.params := rfl
@[simp] theorem State.accept_ie (s : State) (w : Word) :
    (s.accept w).ie = s.ie := rfl
@[simp] theorem State.accept_done (s : State) (w : Word) :
    (s.accept w).done = s.done := rfl
@[simp] theorem State.accept_err (s : State) (w : Word) :
    (s.accept w).err = s.err := rfl
@[simp] theorem State.accept_cmdRej (s : State) (w : Word) :
    (s.accept w).cmdRej = s.cmdRej := rfl
@[simp] theorem State.accept_wDrop (s : State) (w : Word) :
    (s.accept w).wDrop = s.wDrop := rfl
@[simp] theorem State.accept_ftnValid (s : State) (w : Word) :
    (s.accept w).ftnValid = s.ftnValid := rfl
@[simp] theorem State.accept_smpValid (s : State) (w : Word) :
    (s.accept w).smpValid = s.smpValid := rfl
@[simp] theorem State.accept_errCode (s : State) (w : Word) :
    (s.accept w).errCode = s.errCode := rfl
@[simp] theorem State.accept_cmdLast (s : State) (w : Word) :
    (s.accept w).cmdLast = w := rfl
@[simp] theorem State.accept_args (s : State) (w : Word) :
    (s.accept w).args = s.args := rfl
@[simp] theorem State.accept_res0 (s : State) (w : Word) :
    (s.accept w).res0 = s.res0 := rfl
@[simp] theorem State.accept_res1 (s : State) (w : Word) :
    (s.accept w).res1 = s.res1 := rfl
@[simp] theorem State.accept_crcState (s : State) (w : Word) :
    (s.accept w).crcState = s.crcState := rfl
@[simp] theorem State.accept_lanes (s : State) (w : Word) :
    (s.accept w).lanes = s.lanes := rfl
@[simp] theorem State.accept_prngOut (s : State) (w : Word) :
    (s.accept w).prngOut = s.prngOut := rfl
@[simp] theorem State.accept_smpN (s : State) (w : Word) :
    (s.accept w).smpN = s.smpN := rfl
@[simp] theorem State.accept_ftnMsgLen (s : State) (w : Word) :
    (s.accept w).ftnMsgLen = s.ftnMsgLen := rfl
@[simp] theorem State.accept_ftnFragLen (s : State) (w : Word) :
    (s.accept w).ftnFragLen = s.ftnFragLen := rfl
@[simp] theorem State.accept_ftnFragCount (s : State) (w : Word) :
    (s.accept w).ftnFragCount = s.ftnFragCount := rfl
@[simp] theorem State.accept_ftnChecksum (s : State) (w : Word) :
    (s.accept w).ftnChecksum = s.ftnChecksum := rfl
@[simp] theorem State.accept_ftnSeqNum (s : State) (w : Word) :
    (s.accept w).ftnSeqNum = s.ftnSeqNum := rfl
@[simp] theorem State.accept_selCount (s : State) (w : Word) :
    (s.accept w).selCount = s.selCount := rfl
@[simp] theorem State.accept_selSeq (s : State) (w : Word) :
    (s.accept w).selSeq = s.selSeq := rfl
@[simp] theorem State.accept_pending (s : State) (w : Word) :
    (s.accept w).pending = some ⟨w, s.args, latencyOf s.params s.draws w⟩ := rfl
@[simp] theorem State.accept_mem (s : State) (w : Word) :
    (s.accept w).mem = s.mem := rfl
@[simp] theorem State.accept_resp (s : State) (w : Word) :
    (s.accept w).resp = s.resp := rfl
@[simp] theorem State.accept_host (s : State) (w : Word) :
    (s.accept w).host = s.host := rfl
@[simp] theorem State.accept_draws (s : State) (w : Word) :
    (s.accept w).draws = s.draws + 1 := rfl

/-! ### withPendingWord -/

@[simp] theorem State.withPendingWord_params (s : State) (w : Word) :
    (s.withPendingWord w).params = s.params := rfl
@[simp] theorem State.withPendingWord_ie (s : State) (w : Word) :
    (s.withPendingWord w).ie = s.ie := rfl
@[simp] theorem State.withPendingWord_done (s : State) (w : Word) :
    (s.withPendingWord w).done = s.done := rfl
@[simp] theorem State.withPendingWord_err (s : State) (w : Word) :
    (s.withPendingWord w).err = s.err := rfl
@[simp] theorem State.withPendingWord_cmdRej (s : State) (w : Word) :
    (s.withPendingWord w).cmdRej = s.cmdRej := rfl
@[simp] theorem State.withPendingWord_wDrop (s : State) (w : Word) :
    (s.withPendingWord w).wDrop = s.wDrop := rfl
@[simp] theorem State.withPendingWord_ftnValid (s : State) (w : Word) :
    (s.withPendingWord w).ftnValid = s.ftnValid := rfl
@[simp] theorem State.withPendingWord_smpValid (s : State) (w : Word) :
    (s.withPendingWord w).smpValid = s.smpValid := rfl
@[simp] theorem State.withPendingWord_errCode (s : State) (w : Word) :
    (s.withPendingWord w).errCode = s.errCode := rfl
@[simp] theorem State.withPendingWord_cmdLast (s : State) (w : Word) :
    (s.withPendingWord w).cmdLast = w := rfl
@[simp] theorem State.withPendingWord_args (s : State) (w : Word) :
    (s.withPendingWord w).args = s.args := rfl
@[simp] theorem State.withPendingWord_res0 (s : State) (w : Word) :
    (s.withPendingWord w).res0 = s.res0 := rfl
@[simp] theorem State.withPendingWord_res1 (s : State) (w : Word) :
    (s.withPendingWord w).res1 = s.res1 := rfl
@[simp] theorem State.withPendingWord_crcState (s : State) (w : Word) :
    (s.withPendingWord w).crcState = s.crcState := rfl
@[simp] theorem State.withPendingWord_lanes (s : State) (w : Word) :
    (s.withPendingWord w).lanes = s.lanes := rfl
@[simp] theorem State.withPendingWord_prngOut (s : State) (w : Word) :
    (s.withPendingWord w).prngOut = s.prngOut := rfl
@[simp] theorem State.withPendingWord_smpN (s : State) (w : Word) :
    (s.withPendingWord w).smpN = s.smpN := rfl
@[simp] theorem State.withPendingWord_ftnMsgLen (s : State) (w : Word) :
    (s.withPendingWord w).ftnMsgLen = s.ftnMsgLen := rfl
@[simp] theorem State.withPendingWord_ftnFragLen (s : State) (w : Word) :
    (s.withPendingWord w).ftnFragLen = s.ftnFragLen := rfl
@[simp] theorem State.withPendingWord_ftnFragCount (s : State) (w : Word) :
    (s.withPendingWord w).ftnFragCount = s.ftnFragCount := rfl
@[simp] theorem State.withPendingWord_ftnChecksum (s : State) (w : Word) :
    (s.withPendingWord w).ftnChecksum = s.ftnChecksum := rfl
@[simp] theorem State.withPendingWord_ftnSeqNum (s : State) (w : Word) :
    (s.withPendingWord w).ftnSeqNum = s.ftnSeqNum := rfl
@[simp] theorem State.withPendingWord_selCount (s : State) (w : Word) :
    (s.withPendingWord w).selCount = s.selCount := rfl
@[simp] theorem State.withPendingWord_selSeq (s : State) (w : Word) :
    (s.withPendingWord w).selSeq = s.selSeq := rfl
@[simp] theorem State.withPendingWord_pending (s : State) (w : Word) :
    (s.withPendingWord w).pending = some ⟨w, s.args, 1⟩ := rfl
@[simp] theorem State.withPendingWord_mem (s : State) (w : Word) :
    (s.withPendingWord w).mem = s.mem := rfl
@[simp] theorem State.withPendingWord_resp (s : State) (w : Word) :
    (s.withPendingWord w).resp = s.resp := rfl
@[simp] theorem State.withPendingWord_host (s : State) (w : Word) :
    (s.withPendingWord w).host = none :: s.host := rfl
@[simp] theorem State.withPendingWord_draws (s : State) (w : Word) :
    (s.withPendingWord w).draws = s.draws := rfl

/-! ### powerOn -/

@[simp] theorem State.powerOn_params (p : Params) (m : Memory) : (State.powerOn p m).params = p := rfl
@[simp] theorem State.powerOn_ie (p : Params) (m : Memory) : (State.powerOn p m).ie = false := rfl
@[simp] theorem State.powerOn_done (p : Params) (m : Memory) : (State.powerOn p m).done = false := rfl
@[simp] theorem State.powerOn_err (p : Params) (m : Memory) : (State.powerOn p m).err = false := rfl
@[simp] theorem State.powerOn_cmdRej (p : Params) (m : Memory) : (State.powerOn p m).cmdRej = false := rfl
@[simp] theorem State.powerOn_wDrop (p : Params) (m : Memory) : (State.powerOn p m).wDrop = false := rfl
@[simp] theorem State.powerOn_ftnValid (p : Params) (m : Memory) : (State.powerOn p m).ftnValid = false := rfl
@[simp] theorem State.powerOn_smpValid (p : Params) (m : Memory) : (State.powerOn p m).smpValid = false := rfl
@[simp] theorem State.powerOn_errCode (p : Params) (m : Memory) : (State.powerOn p m).errCode = .ok := rfl
@[simp] theorem State.powerOn_cmdLast (p : Params) (m : Memory) : (State.powerOn p m).cmdLast = 0 := rfl
@[simp] theorem State.powerOn_args (p : Params) (m : Memory) : (State.powerOn p m).args = ⟨0, 0, 0, 0⟩ := rfl
@[simp] theorem State.powerOn_res0 (p : Params) (m : Memory) : (State.powerOn p m).res0 = 0 := rfl
@[simp] theorem State.powerOn_res1 (p : Params) (m : Memory) : (State.powerOn p m).res1 = 0 := rfl
@[simp] theorem State.powerOn_crcState (p : Params) (m : Memory) : (State.powerOn p m).crcState = 0xFFFFFFFF := rfl
@[simp] theorem State.powerOn_lanes (p : Params) (m : Memory) : (State.powerOn p m).lanes = ⟨0, 0, 0, 0⟩ := rfl
@[simp] theorem State.powerOn_prngOut (p : Params) (m : Memory) : (State.powerOn p m).prngOut = 0 := rfl
@[simp] theorem State.powerOn_smpN (p : Params) (m : Memory) : (State.powerOn p m).smpN = 0 := rfl
@[simp] theorem State.powerOn_ftnMsgLen (p : Params) (m : Memory) : (State.powerOn p m).ftnMsgLen = 0 := rfl
@[simp] theorem State.powerOn_ftnFragLen (p : Params) (m : Memory) : (State.powerOn p m).ftnFragLen = 0 := rfl
@[simp] theorem State.powerOn_ftnFragCount (p : Params) (m : Memory) : (State.powerOn p m).ftnFragCount = 0 := rfl
@[simp] theorem State.powerOn_ftnChecksum (p : Params) (m : Memory) : (State.powerOn p m).ftnChecksum = 0 := rfl
@[simp] theorem State.powerOn_ftnSeqNum (p : Params) (m : Memory) : (State.powerOn p m).ftnSeqNum = 0 := rfl
@[simp] theorem State.powerOn_selCount (p : Params) (m : Memory) : (State.powerOn p m).selCount = 0 := rfl
@[simp] theorem State.powerOn_selSeq (p : Params) (m : Memory) : (State.powerOn p m).selSeq = 0 := rfl
@[simp] theorem State.powerOn_pending (p : Params) (m : Memory) : (State.powerOn p m).pending = none := rfl
@[simp] theorem State.powerOn_mem (p : Params) (m : Memory) : (State.powerOn p m).mem = m := rfl
@[simp] theorem State.powerOn_resp (p : Params) (m : Memory) : (State.powerOn p m).resp = none := rfl
@[simp] theorem State.powerOn_host (p : Params) (m : Memory) : (State.powerOn p m).host = [] := rfl
@[simp] theorem State.powerOn_draws (p : Params) (m : Memory) : (State.powerOn p m).draws = 0 := rfl

/-! ### softReset -/

@[simp] theorem State.softReset_params (s : State) : s.softReset.params = s.params := rfl
@[simp] theorem State.softReset_ie (s : State) : s.softReset.ie = false := rfl
@[simp] theorem State.softReset_done (s : State) : s.softReset.done = false := rfl
@[simp] theorem State.softReset_err (s : State) : s.softReset.err = false := rfl
@[simp] theorem State.softReset_cmdRej (s : State) : s.softReset.cmdRej = false := rfl
@[simp] theorem State.softReset_wDrop (s : State) : s.softReset.wDrop = false := rfl
@[simp] theorem State.softReset_ftnValid (s : State) : s.softReset.ftnValid = false := rfl
@[simp] theorem State.softReset_smpValid (s : State) : s.softReset.smpValid = false := rfl
@[simp] theorem State.softReset_errCode (s : State) : s.softReset.errCode = .ok := rfl
@[simp] theorem State.softReset_cmdLast (s : State) : s.softReset.cmdLast = 0 := rfl
@[simp] theorem State.softReset_args (s : State) : s.softReset.args = ⟨0, 0, 0, 0⟩ := rfl
@[simp] theorem State.softReset_res0 (s : State) : s.softReset.res0 = 0 := rfl
@[simp] theorem State.softReset_res1 (s : State) : s.softReset.res1 = 0 := rfl
@[simp] theorem State.softReset_crcState (s : State) : s.softReset.crcState = 0xFFFFFFFF := rfl
@[simp] theorem State.softReset_lanes (s : State) : s.softReset.lanes = ⟨0, 0, 0, 0⟩ := rfl
@[simp] theorem State.softReset_prngOut (s : State) : s.softReset.prngOut = 0 := rfl
@[simp] theorem State.softReset_smpN (s : State) : s.softReset.smpN = 0 := rfl
@[simp] theorem State.softReset_ftnMsgLen (s : State) : s.softReset.ftnMsgLen = 0 := rfl
@[simp] theorem State.softReset_ftnFragLen (s : State) : s.softReset.ftnFragLen = 0 := rfl
@[simp] theorem State.softReset_ftnFragCount (s : State) : s.softReset.ftnFragCount = 0 := rfl
@[simp] theorem State.softReset_ftnChecksum (s : State) : s.softReset.ftnChecksum = 0 := rfl
@[simp] theorem State.softReset_ftnSeqNum (s : State) : s.softReset.ftnSeqNum = 0 := rfl
@[simp] theorem State.softReset_selCount (s : State) : s.softReset.selCount = 0 := rfl
@[simp] theorem State.softReset_selSeq (s : State) : s.softReset.selSeq = 0 := rfl
@[simp] theorem State.softReset_pending (s : State) : s.softReset.pending = none := rfl
@[simp] theorem State.softReset_mem (s : State) : s.softReset.mem = s.resetMem := rfl
@[simp] theorem State.softReset_resp (s : State) : s.softReset.resp = s.resp := rfl
@[simp] theorem State.softReset_host (s : State) : s.softReset.host = s.host := rfl
@[simp] theorem State.softReset_draws (s : State) : s.softReset.draws = s.draws + 1 := rfl

end Sys2Proof.Machine
end

