-- ==== Sys2Proof/Laws/Commands.lean ====
section
/-! SUPPORT. What each shared operation and each command's pseudocode can do, said once: if it answers, then these cases
hold. Later proofs cite these instead of unfolding. -/

namespace Sys2Proof.Machine

/-! ### Completion -/

@[simp] theorem State.commit_ok (s t : State) : s.commit (.ok t) = .next (t.complete .ok) := rfl

@[simp] theorem State.commit_error (s : State) (e : ErrorCode) : s.commit (.error e) = .next (s.complete e) := rfl

/-- Everything a completion can do (40_control.md R111, R112). -/
theorem State.commit_next {s t : State} {r : Except ErrorCode State} (h : s.commit r = .next t) :
    (∃ u, r = .ok u ∧ t = u.complete .ok) ∨ (∃ e, r = .error e ∧ t = s.complete e) := by
  cases r with
  | ok u => exact .inl ⟨u, rfl, by simpa using h.symm⟩
  | error e => exact .inr ⟨e, rfl, by simpa using h.symm⟩

/-- The writes of a command, before its completion, or the error it raises. -/
def effect (i : Instr) (s : State) : Except ErrorCode State :=
  match i with
  | .nop => .ok s
  | .crcInit => .ok { s with crcState := 0xFFFFFFFF }
  | .crcByte b => .ok { s with crcState := crcStep s.crcState b }
  | .crcBuf m => crcBuf m s
  | .prngSeed => prngSeed s
  | .prngSeedPair => .ok { s with lanes := seedLanes s.params (be32 s.operands.a0 ++ be32 s.operands.a1) }
  | .prngNext => .ok (stepHostStream (fun x => x) s)
  | .prngDouble => .ok (stepHostStream u2d s)
  | .prngInt => prngInt s
  | .prngByte => drawHostInt 0 255 s
  | .prngShuffle => prngShuffle s
  | .smpBuild m => smpBuild m s
  | .smpSample => smpSample s
  | .ftnConfig => ftnConfig s
  | .ftnNext => ftnNext s
  | .ftnChoose => ftnChoose s
  | .ftnMix => ftnMix s
  | .ftnSeek => ftnSeek s
  | .ftnClear => .ok { s with ftnValid := false }

/-- Every command is its effect, committed. -/
theorem exec_eq_commit (i : Instr) (s : State) : exec i s = s.commit (effect i s) := by cases i <;> rfl

/-! ### CRC -/

theorem crcBuf_ok {m : BitVec 1} {s t : State} (h : crcBuf m s = .ok t) :
    s.operands.a0.toNat + s.operands.a1.toNat ≤ (crcSpace m).size s.params ∧
    t = { s with crcState :=
            crcFold s.crcState (s.memRead (crcSpace m) s.operands.a0.toNat s.operands.a1.toNat) } := by
  simp only [crcBuf] at h
  split at h
  · cases h
  · rename_i hle
    exact ⟨Nat.not_lt.1 hle, by simpa using h.symm⟩

theorem crcBuf_error {m : BitVec 1} {s : State} {e : ErrorCode} (h : crcBuf m s = .error e) :
    e = .badArg ∧ (crcSpace m).size s.params < s.operands.a0.toNat + s.operands.a1.toNat := by
  simp only [crcBuf] at h
  split at h
  · rename_i hlt
    exact ⟨by simpa using h.symm, hlt⟩
  · cases h

/-! ### PRNG -/

theorem nextInt_ok {l : Lanes} {lo hi : Nat} {d : Drawn} (h : nextInt l lo hi = .ok d) :
    u2d (prngNext l).1 ≠ f64One ∧ d.raw = (prngNext l).1 ∧ d.lanes = (prngNext l).2 ∧
    d.value = lo + f64trunc (f64mul (toF64 (hi - lo + 1)) (u2d (prngNext l).1)) := by
  simp only [nextInt] at h
  split at h
  · cases h
  · rename_i hne
    cases h
    exact ⟨hne, rfl, rfl, rfl⟩

theorem nextInt_error {l : Lanes} {lo hi : Nat} {e : ErrorCode} (h : nextInt l lo hi = .error e) :
    e = .rngRange ∧ u2d (prngNext l).1 = f64One := by
  simp only [nextInt] at h
  split at h
  · rename_i heq
    exact ⟨by simpa using h.symm, heq⟩
  · cases h

/-- One turn of the shuffle. -/
theorem shuffleLoop_succ_ok {k : Nat} {l : Lanes} {x : DWord} {rem : List Nat} {r : Shuffled}
    (h : shuffleLoop (k + 1) l x rem = .ok r) :
    ∃ d r', nextInt l 0 (rem.length - 1) = .ok d ∧
      shuffleLoop k d.lanes d.raw (rem.eraseIdx d.value) = .ok r' ∧
      r = ⟨rem.getD d.value 0 :: r'.perm, r'.raw, r'.lanes⟩ := by
  simp only [shuffleLoop] at h
  split at h
  · cases h
  · rename_i d hd
    split at h
    · cases h
    · rename_i r' hr
      exact ⟨d, r', hd, hr, by simpa using h.symm⟩

/-- A shuffle of `k` turns lists `k` indices. -/
theorem shuffleLoop_length {k : Nat} {l : Lanes} {x : DWord} {rem : List Nat} {r : Shuffled}
    (h : shuffleLoop k l x rem = .ok r) : r.perm.length = k := by
  induction k generalizing l x rem r with
  | zero => cases h; rfl
  | succ k ih =>
    obtain ⟨d, r', -, hr, rfl⟩ := shuffleLoop_succ_ok h
    simp [ih hr]

/-- A shuffle raises only RNG_RANGE. -/
theorem shuffleLoop_error {k : Nat} {l : Lanes} {x : DWord} {rem : List Nat} {e : ErrorCode}
    (h : shuffleLoop k l x rem = .error e) : e = .rngRange := by
  induction k generalizing l x rem with
  | zero => cases h
  | succ k ih =>
    simp only [shuffleLoop] at h
    split at h
    · rename_i e' he
      cases h
      exact (nextInt_error he).1
    · split at h
      · rename_i e' he
        cases h
        exact ih he
      · cases h

theorem prngSeed_ok {s t : State} (h : prngSeed s = .ok t) :
    s.operands.a0.toNat ≤ s.params.seedRamSize ∧
    t = { s with lanes := seedLanes s.params (s.memRead .seedRam 0 s.operands.a0.toNat) } := by
  simp only [prngSeed] at h
  split at h
  · cases h
  · rename_i hle
    exact ⟨Nat.not_lt.1 hle, by simpa using h.symm⟩

theorem drawHostInt_ok {lo hi : Nat} {s t : State} (h : drawHostInt lo hi s = .ok t) :
    ∃ d, nextInt s.lanes lo hi = .ok d ∧
      t = { s with lanes := d.lanes, prngOut := d.raw, res0 := BitVec.ofNat 32 d.value, res1 := 0 } := by
  unfold drawHostInt at h
  split at h
  · cases h
  · rename_i d hd
    exact ⟨d, hd, by simpa using h.symm⟩

theorem prngInt_ok {s t : State} (h : prngInt s = .ok t) :
    s.operands.a0.toNat ≤ s.operands.a1.toNat ∧ drawHostInt s.operands.a0.toNat s.operands.a1.toNat s = .ok t := by
  simp only [prngInt] at h
  split at h
  · cases h
  · rename_i hle
    exact ⟨Nat.not_lt.1 hle, h⟩

theorem prngShuffle_ok {s t : State} (h : prngShuffle s = .ok t) :
    (1 ≤ s.operands.a0.toNat ∧ s.operands.a0.toNat ≤ s.params.maxFrags) ∧
    s.operands.a1.toNat ≤ s.operands.a0.toNat ∧
    ∃ r, shuffle s.lanes s.prngOut s.operands.a0.toNat = .ok r ∧
      t = { s.writeSel (r.perm.take s.operands.a1.toNat) 0 with
            lanes := r.lanes, prngOut := r.raw, res0 := s.operands.a1 } := by
  simp only [prngShuffle] at h
  split at h
  · cases h
  · split at h
    · cases h
    · split at h
      · cases h
      · rename_i h0 h1 r hr
        exact ⟨by omega, by omega, r, hr, by simpa using h.symm⟩

/-! ### Sampler -/

theorem smpBuild_ok {m : BitVec 1} {s t : State} (h : smpBuild m s = .ok t) :
    (1 ≤ s.operands.a0.toNat ∧ s.operands.a0.toNat ≤ s.params.maxFrags) ∧
    weightsOk (s.weights m s.operands.a0.toNat) s.operands.a0.toNat = true ∧
    t = { s.writeTable (buildAlias (s.weights m s.operands.a0.toNat) s.operands.a0.toNat) with
          smpN := s.operands.a0, smpValid := true, res0 := s.operands.a0 } := by
  simp only [smpBuild] at h
  split at h
  · cases h
  · split at h
    · cases h
    · rename_i h0 h1
      exact ⟨by omega, by simpa using h1, by simpa using h.symm⟩

theorem sample_ok {l : Lanes} {p : Nat → F64} {o : Nat → Nat} {n : Nat} {d : Sampled} (h : sample l p o n = .ok d) :
    u2d (prngNext l).1 ≠ f64One ∧
    d.raw = (prngNext (prngNext l).2).1 ∧ d.lanes = (prngNext (prngNext l).2).2 ∧
    d.column = f64trunc (f64mul (toF64 n) (u2d (prngNext l).1)) ∧
    d.value = if f64lt (u2d d.raw) (p d.column) then d.column else o d.column := by
  simp only [sample] at h
  split at h
  · cases h
  · rename_i hne
    cases h
    exact ⟨hne, rfl, rfl, rfl, rfl⟩

theorem sample_error {l : Lanes} {p : Nat → F64} {o : Nat → Nat} {n : Nat} {e : ErrorCode}
    (h : sample l p o n = .error e) : e = .rngRange ∧ u2d (prngNext l).1 = f64One := by
  simp only [sample] at h
  split at h
  · rename_i heq
    exact ⟨by simpa using h.symm, heq⟩
  · cases h

theorem smpSample_ok {s t : State} (h : smpSample s = .ok t) :
    s.smpValid = true ∧
    ∃ d, sample s.lanes s.prob (fun i => (s.aliasOf i).toNat) s.smpN.toNat = .ok d ∧
      t = { s with
            lanes := d.lanes, prngOut := d.raw, res0 := BitVec.ofNat 32 d.value,
            res1 := BitVec.ofNat 32 d.column } := by
  unfold smpSample at h
  split at h
  · cases h
  · rename_i hv
    split at h
    · cases h
    · rename_i d hd
      exact ⟨by simpa using hv, d, hd, by simpa using h.symm⟩

theorem chooseDegree_error {l : Lanes} {f : Nat} {e : ErrorCode} (h : chooseDegree l f = .error e) :
    e = .rngRange := by
  simp only [chooseDegree] at h
  split at h
  · rename_i e' he
    cases h
    exact (sample_error he).1
  · cases h

/-! ### Fountain -/

theorem ftnConfig_ok {s t : State} (h : ftnConfig s = .ok t) :
    ftnParamsOk s.params s.operands.a0.toNat s.operands.a1.toNat s.operands.a2.toNat = true ∧
    t = { s with
          ftnMsgLen := s.operands.a0
          ftnFragLen := BitVec.ofNat 32 (fragLen s.operands.a0.toNat s.operands.a1.toNat)
          ftnFragCount := BitVec.ofNat 32 (fragCount s.operands.a0.toNat s.operands.a1.toNat)
          ftnChecksum := crc32 (s.memRead .msgRam 0 s.operands.a0.toNat)
          ftnSeqNum := s.operands.a3
          ftnValid := true
          res0 := BitVec.ofNat 32 (fragCount s.operands.a0.toNat s.operands.a1.toNat)
          res1 := BitVec.ofNat 32 (fragLen s.operands.a0.toNat s.operands.a1.toNat) } := by
  simp only [ftnConfig] at h
  split at h
  · cases h
  · rename_i hok
    exact ⟨by simpa using hok, by simpa using h.symm⟩

/-- The two branches of chooseFragments (R205). -/
theorem chooseFragments_ok {p : Params} {seq f c : Word} {sel : List Nat} (h : chooseFragments p seq f c = .ok sel) :
    (seq.toNat ≤ f.toNat ∧ sel = [seq.toNat - 1]) ∨
    (f.toNat < seq.toNat ∧ ∃ d r, chooseDegree (seedLanes p (be32 seq ++ be32 c)) f.toNat = .ok d ∧
      shuffle d.lanes 0 f.toNat = .ok r ∧ sel = r.perm.take d.degree) := by
  unfold chooseFragments at h
  split at h
  · rename_i hle
    exact .inl ⟨hle, by simpa using h.symm⟩
  · rename_i hgt
    split at h
    · cases h
    · rename_i d hd
      split at h
      · cases h
      · rename_i r hr
        exact .inr ⟨Nat.not_le.1 hgt, d, r, hd, hr, by simpa using h.symm⟩

/-- A selection never has more than max 1 f entries. -/
theorem chooseFragments_length {p : Params} {seq f c : Word} {sel : List Nat}
    (h : chooseFragments p seq f c = .ok sel) : sel.length ≤ max 1 f.toNat := by
  rcases chooseFragments_ok h with ⟨-, rfl⟩ | ⟨-, d, r, -, hr, rfl⟩
  · simp only [List.length_singleton]; omega
  · have := shuffleLoop_length hr
    rw [List.length_take]; omega

theorem chooseFragments_error {p : Params} {seq f c : Word} {e : ErrorCode}
    (h : chooseFragments p seq f c = .error e) : e = .rngRange := by
  unfold chooseFragments at h
  split at h
  · cases h
  · split at h
    · rename_i e' he
      cases h
      exact chooseDegree_error he
    · split at h
      · rename_i e' he
        cases h
        exact shuffleLoop_error he
      · cases h

theorem ftnChoose_ok {s t : State} (h : ftnChoose s = .ok t) :
    s.ftnValid = true ∧ s.operands.a0 ≠ 0 ∧
    ∃ sel, chooseFragments s.params s.operands.a0 s.ftnFragCount s.ftnChecksum = .ok sel ∧
      t = { s.writeSel sel s.operands.a0 with
            res0 := BitVec.ofNat 32 sel.length, res1 := s.operands.a0 } := by
  simp only [ftnChoose] at h
  split at h
  · cases h
  · rename_i hv
    split at h
    · cases h
    · rename_i hz
      split at h
      · cases h
      · rename_i sel hsel
        exact ⟨by simpa using hv, hz, sel, hsel, by simpa using h.symm⟩

theorem ftnMix_ok {s t : State} (h : ftnMix s = .ok t) :
    s.ftnValid = true ∧ (∀ i ∈ s.selList s.selCount.toNat, i.toNat < s.ftnFragCount.toNat) ∧
    t = { s.memWrite .outRam 0 (s.mix ((s.selList s.selCount.toNat).map BitVec.toNat)) with
          res0 := s.selCount, res1 := s.selSeq } := by
  simp only [ftnMix] at h
  split at h
  · cases h
  · split at h
    · cases h
    · rename_i hv hi
      refine ⟨by simpa using hv, fun i hm => ?_, by simpa using h.symm⟩
      simp only [List.any_eq_true, not_exists, not_and, decide_eq_true_eq, Nat.not_le] at hi
      exact hi i hm

theorem ftnNext_ok {s t : State} (h : ftnNext s = .ok t) :
    s.ftnValid = true ∧ s.ftnSeqNum ≠ 0xFFFFFFFF ∧
    ∃ sel, chooseFragments s.params (s.ftnSeqNum + 1) s.ftnFragCount s.ftnChecksum = .ok sel ∧
      t = { (s.writeSel sel (s.ftnSeqNum + 1)).memWrite .outRam 0 (s.mix sel) with
            ftnSeqNum := s.ftnSeqNum + 1, res0 := BitVec.ofNat 32 sel.length, res1 := s.ftnSeqNum + 1 } := by
  simp only [ftnNext] at h
  split at h
  · cases h
  · rename_i hv
    split at h
    · cases h
    · rename_i hz
      split at h
      · cases h
      · rename_i sel hsel
        exact ⟨by simpa using hv, hz, sel, hsel, by simpa using h.symm⟩

theorem ftnSeek_ok {s t : State} (h : ftnSeek s = .ok t) :
    s.ftnValid = true ∧ t = { s with ftnSeqNum := s.operands.a0 } := by
  unfold ftnSeek at h
  split at h
  · cases h
  · rename_i hv
    exact ⟨by simpa using hv, by simpa using h.symm⟩

theorem State.mix_length (s : State) (sel : List Nat) : (s.mix sel).length = s.ftnFragLen.toNat := by simp [State.mix]

end Sys2Proof.Machine
end

