-- ==== Sys2Proof/Laws/Bus.lean ====
section
/-! SUPPORT. What a host access and a clock cycle can do, said once. -/

namespace Sys2Proof.Machine

/-! ### Access legality -/

/-- A legal access to a register is a whole word at a listed offset (20_memory.md R72). -/
theorem busTarget_reg {p : Params} {size : Size} {addr : BusAddr} {r : Reg} (h : busTarget p size addr = .ok (.reg r)) :
    windowRam (addr.toNat / 0x10000) = none ∧ size = .word ∧ regAt (addr.toNat % 0x10000) = some r := by
  simp only [busTarget] at h
  split at h
  · rename_i hw
    split at h
    · rename_i r' hr
      split at h
      · rename_i hs
        cases h
        exact ⟨hw, hs, hr⟩
      · cases h
    · cases h
  · split at h <;> cases h

/-- A legal access to a RAM is naturally aligned and inside the mapped size (R73). -/
theorem busTarget_ram {p : Params} {size : Size} {addr : BusAddr} {r : Ram} {o : Nat}
    (h : busTarget p size addr = .ok (.ram r o)) :
    windowRam (addr.toNat / 0x10000) = some r ∧ o = addr.toNat % 0x10000 ∧ o % size.bytes = 0 ∧
      o + size.bytes ≤ r.size p := by
  simp only [busTarget] at h
  split at h
  · split at h
    · split at h <;> cases h
    · cases h
  · rename_i r' hw
    split at h
    · rename_i hl
      cases h
      exact ⟨hw, rfl, hl.1, hl.2⟩
    · cases h

/-- A legal access to CTRL is a word at its offset. -/
theorem busTarget_ctrl {p : Params} {size : Size} {addr : BusAddr} (h : busTarget p size addr = .ok (.reg .ctrl)) :
    size = .word ∧ addr = 0x00008 := by
  obtain ⟨hw, hs, hr⟩ := busTarget_reg h
  refine ⟨hs, BitVec.eq_of_toNat_eq ?_⟩
  have hlt := addr.isLt
  have h0 : addr.toNat / 0x10000 = 0 := by
    have : addr.toNat / 0x10000 < 8 := by omega
    interval_cases addr.toNat / 0x10000 <;> simp_all [windowRam]
  have h8 : addr.toNat % 0x10000 = 8 := by
    generalize addr.toNat % 0x10000 = o at hr
    simp only [regAt, registerMap, List.lookup] at hr
    repeat' first | split at hr | simp_all
  show addr.toNat = 8
  omega

/-- The fault of an access names its address (R74). -/
theorem busTarget_error {p : Params} {size : Size} {addr : BusAddr} {e : Fault} (h : busTarget p size addr = .error e) :
    e = .busError addr := by
  simp only [busTarget] at h
  split at h
  · split at h
    · split at h
      · cases h
      · cases h; rfl
    · cases h; rfl
  · split at h
    · cases h
    · cases h; rfl

/-! ### Accesses -/

/-- Everything a read can do to the state: the response, and one draw while busy (R82, 70_reset_and_hazards.md R276). -/
theorem State.serveRead_cases (s : State) (size : Size) (t : Target) :
    (s.busy = true ∧ t.stableWhileBusy = false ∧
      s.serveRead size t =
        { s with resp := some (readData size (Config.busyRead s.draws)), draws := s.draws + 1 }) ∨
    ((s.busy = false ∨ t.stableWhileBusy = true) ∧
      s.serveRead size t = { s with resp := some (readData size (s.readTarget size t)) }) := by
  unfold State.serveRead
  split
  · rename_i h
    simp only [Bool.and_eq_true, Bool.not_eq_true'] at h
    exact .inl ⟨h.1, h.2, rfl⟩
  · rename_i h
    simp only [Bool.and_eq_true, Bool.not_eq_true', not_and, Bool.not_eq_false] at h
    refine .inr ⟨?_, rfl⟩
    cases hb : s.busy
    · exact .inl rfl
    · exact .inr (h hb)

/-- A dropped or an accepted write (70_reset_and_hazards.md R275). -/
theorem State.unlessBusy_busy {s : State} (t : State) (h : s.busy = true) : s.unlessBusy t = { s with wDrop := true } := by
  simp [State.unlessBusy, h]

@[inherit_doc State.unlessBusy_busy]
theorem State.unlessBusy_idle {s : State} (t : State) (h : s.busy = false) : s.unlessBusy t = t := by
  simp [State.unlessBusy, h]

theorem State.writeCmd_idle {s : State} (w : Word) (h : s.busy = false) : s.writeCmd w = s.accept w := by
  simp [State.writeCmd, h]

theorem State.writeCmd_busy {s : State} (w : Word) (h : s.busy = true) : s.writeCmd w = { s with cmdRej := true } := by
  simp [State.writeCmd, h]

/-- A command takes at least one cycle (70_reset_and_hazards.md R281). -/
theorem latencyOf_pos (p : Params) (n : Nat) (w : Word) : 1 ≤ latencyOf p n w := by
  unfold latencyOf
  split <;> omega

/-- A host access is served, or it faults and changes only the response (20_memory.md R74). -/
theorem State.hostAccess_cases (s : State) (a : Access) :
    (∃ t, s.access a = .ok t ∧ s.hostAccess a = t) ∨
    (∃ e, s.access a = .error e ∧ s.hostAccess a = { s with resp := some (errorResponse a) }) := by
  unfold State.hostAccess
  cases h : s.access a with
  | ok t => exact .inl ⟨t, rfl, rfl⟩
  | error e => exact .inr ⟨e, rfl, rfl⟩

/-- While busy, only a soft reset discards the pending command (70_reset_and_hazards.md R271, R274, R275). -/
theorem State.hostAccess_pending {s : State} {a : Access} (hb : s.busy = true)
    (h : ∀ v : Word, a = .write .word 0x00008 v → v.getLsbD 1 = false) : (s.hostAccess a).pending = s.pending := by
  rcases s.hostAccess_cases a with ⟨t, ht, he⟩ | ⟨e, -, he⟩ <;> rw [he]
  cases a with
  | read size addr =>
    simp only [State.access] at ht
    split at ht
    · cases ht
      rename_i t _
      rcases s.serveRead_cases size t with ⟨-, -, h⟩ | ⟨-, h⟩ <;> rw [h]
    · cases ht
  | write size addr v =>
    simp only [State.access] at ht
    split at ht
    · cases ht
      rename_i t htgt
      simp only [State.serveWrite]
      cases t with
      | reg r =>
        cases r
        case ctrl =>
          obtain ⟨rfl, rfl⟩ := busTarget_ctrl htgt
          simp only [State.writeReg, State.writeCtrl, h v rfl]
          rfl
        all_goals first | rfl | simp only [State.writeReg, State.unlessBusy, State.writeCmd, hb, if_true]
      | ram r o => cases r <;> simp only [State.writeRam, State.unlessBusy, hb, if_true] <;> first | rfl | (split <;> rfl)
    · cases ht

/-! ### The clock cycle -/

@[simp] theorem State.hostPhase_nil {s : State} (h : s.host = []) : s.hostPhase = s := by
  simp [State.hostPhase, h]

@[simp] theorem State.hostPhase_none {s : State} {rest : List (Option Access)} (h : s.host = none :: rest) :
    s.hostPhase = { s with host := rest } := by
  simp [State.hostPhase, h]

@[simp] theorem State.hostPhase_some {s : State} {a : Access} {rest : List (Option Access)} (h : s.host = some a :: rest) :
    s.hostPhase = State.hostAccess { s with host := rest } a := by
  simp [State.hostPhase, h]

theorem runWord_ok {w : Word} {i : Instr} (h : decode w = .ok i) (s : State) : runWord w s = exec i s := by
  simp [runWord, h]

theorem runWord_error {w : Word} {e : DecodeError} (h : decode w = .error e) (s : State) :
    runWord w s = .next (s.complete (decodeErrorCode e)) := by
  simp [runWord, h]

/-- Everything the sequencer's part of a cycle can do (40_control.md R111). -/
theorem sequencerPhase_cases (s : State) :
    (s.pending = none ∧ sequencerPhase s = .next s) ∨
    (∃ p, s.pending = some p ∧ p.cyclesLeft ≤ 1 ∧ sequencerPhase s = runWord p.word s) ∨
    (∃ p, s.pending = some p ∧ 1 < p.cyclesLeft ∧
      sequencerPhase s = .next { s with pending := some { p with cyclesLeft := p.cyclesLeft - 1 } }) := by
  unfold sequencerPhase
  cases h : s.pending with
  | none => exact .inl ⟨rfl, rfl⟩
  | some p =>
    by_cases hc : p.cyclesLeft ≤ 1
    · exact .inr (.inl ⟨p, rfl, hc, by simp [hc]⟩)
    · exact .inr (.inr ⟨p, rfl, by omega, by simp [hc]⟩)

/-- Everything a step can do: the host's access alone when the cycle began idle, else the access and then the sequencer. -/
theorem step_cases (s : State) :
    (s.busy = false ∧ step s = .next s.hostPhase) ∨ (s.busy = true ∧ step s = sequencerPhase s.hostPhase) := by
  unfold step cycle
  cases h : s.busy
  · exact .inl ⟨rfl, by simp⟩
  · exact .inr ⟨rfl, by simp⟩

end Sys2Proof.Machine
end

