-- ==== Sys2Proof/Laws/PerInstr.lean ====
section
/-! SUPPORT. Statements about every command as syntax, one lemma a constructor. -/

namespace Sys2Proof

/-! ### EncodeFits: the word of a command fits its row of the opcode map (30_encoding.md R93) -/

/-- The word of `i` has the opcode of a row of the map and exactly that row's fixed bits: no reserved bit is set (R95). -/
def Laws.EncodeFits.Statement (i : Instr) : Prop :=
  ∃ r ∈ opcodeMap, r.opc = opcField (encode i) ∧ encode i &&& r.mask = r.fixed

/-- The word of a CRC_BYTE, whatever its byte, has the row's fixed bits. -/
theorem Laws.EncodeFits.crcByte_fixed :
    ∀ b : BitVec 8, (0x02 : Byte) = opcField (encode (.crcByte b)) ∧ encode (.crcByte b) &&& 0xFF00FFFF = 0x00000002 := by
  decide +kernel

theorem Laws.EncodeFits.nop : Laws.EncodeFits.Statement .nop :=
  ⟨⟨0x00, 0x00, 0xFFFFFFFF, fun _ => .nop⟩, by simp [opcodeMap], by decide +kernel⟩

theorem Laws.EncodeFits.crcInit : Laws.EncodeFits.Statement .crcInit :=
  ⟨⟨0x01, 0x01, 0xFFFFFFFF, fun _ => .crcInit⟩, by simp [opcodeMap], by decide +kernel⟩

theorem Laws.EncodeFits.crcByte (b : BitVec 8) : Laws.EncodeFits.Statement (.crcByte b) :=
  ⟨⟨0x02, 0x00000002, 0xFF00FFFF, fun w => .crcByte (immByte w)⟩, by simp [opcodeMap], Laws.EncodeFits.crcByte_fixed b⟩

theorem Laws.EncodeFits.crcBuf (m : BitVec 1) : Laws.EncodeFits.Statement (.crcBuf m) :=
  ⟨⟨0x03, 0x03, 0xFFFFFEFF, fun w => .crcBuf (modeBit w)⟩, by simp [opcodeMap], by revert m; decide +kernel⟩

theorem Laws.EncodeFits.prngSeed : Laws.EncodeFits.Statement .prngSeed :=
  ⟨⟨0x10, 0x10, 0xFFFFFFFF, fun _ => .prngSeed⟩, by simp [opcodeMap], by decide +kernel⟩

theorem Laws.EncodeFits.prngSeedPair : Laws.EncodeFits.Statement .prngSeedPair :=
  ⟨⟨0x11, 0x11, 0xFFFFFFFF, fun _ => .prngSeedPair⟩, by simp [opcodeMap], by decide +kernel⟩

theorem Laws.EncodeFits.prngNext : Laws.EncodeFits.Statement .prngNext :=
  ⟨⟨0x12, 0x12, 0xFFFFFFFF, fun _ => .prngNext⟩, by simp [opcodeMap], by decide +kernel⟩

theorem Laws.EncodeFits.prngDouble : Laws.EncodeFits.Statement .prngDouble :=
  ⟨⟨0x13, 0x13, 0xFFFFFFFF, fun _ => .prngDouble⟩, by simp [opcodeMap], by decide +kernel⟩

theorem Laws.EncodeFits.prngInt : Laws.EncodeFits.Statement .prngInt :=
  ⟨⟨0x14, 0x14, 0xFFFFFFFF, fun _ => .prngInt⟩, by simp [opcodeMap], by decide +kernel⟩

theorem Laws.EncodeFits.prngByte : Laws.EncodeFits.Statement .prngByte :=
  ⟨⟨0x15, 0x15, 0xFFFFFFFF, fun _ => .prngByte⟩, by simp [opcodeMap], by decide +kernel⟩

theorem Laws.EncodeFits.prngShuffle : Laws.EncodeFits.Statement .prngShuffle :=
  ⟨⟨0x16, 0x16, 0xFFFFFFFF, fun _ => .prngShuffle⟩, by simp [opcodeMap], by decide +kernel⟩

theorem Laws.EncodeFits.smpBuild (m : BitVec 1) : Laws.EncodeFits.Statement (.smpBuild m) :=
  ⟨⟨0x20, 0x20, 0xFFFFFEFF, fun w => .smpBuild (modeBit w)⟩, by simp [opcodeMap], by revert m; decide +kernel⟩

theorem Laws.EncodeFits.smpSample : Laws.EncodeFits.Statement .smpSample :=
  ⟨⟨0x21, 0x21, 0xFFFFFFFF, fun _ => .smpSample⟩, by simp [opcodeMap], by decide +kernel⟩

theorem Laws.EncodeFits.ftnConfig : Laws.EncodeFits.Statement .ftnConfig :=
  ⟨⟨0x30, 0x30, 0xFFFFFFFF, fun _ => .ftnConfig⟩, by simp [opcodeMap], by decide +kernel⟩

theorem Laws.EncodeFits.ftnNext : Laws.EncodeFits.Statement .ftnNext :=
  ⟨⟨0x31, 0x31, 0xFFFFFFFF, fun _ => .ftnNext⟩, by simp [opcodeMap], by decide +kernel⟩

theorem Laws.EncodeFits.ftnChoose : Laws.EncodeFits.Statement .ftnChoose :=
  ⟨⟨0x32, 0x32, 0xFFFFFFFF, fun _ => .ftnChoose⟩, by simp [opcodeMap], by decide +kernel⟩

theorem Laws.EncodeFits.ftnMix : Laws.EncodeFits.Statement .ftnMix :=
  ⟨⟨0x33, 0x33, 0xFFFFFFFF, fun _ => .ftnMix⟩, by simp [opcodeMap], by decide +kernel⟩

theorem Laws.EncodeFits.ftnSeek : Laws.EncodeFits.Statement .ftnSeek :=
  ⟨⟨0x34, 0x34, 0xFFFFFFFF, fun _ => .ftnSeek⟩, by simp [opcodeMap], by decide +kernel⟩

theorem Laws.EncodeFits.ftnClear : Laws.EncodeFits.Statement .ftnClear :=
  ⟨⟨0x35, 0x35, 0xFFFFFFFF, fun _ => .ftnClear⟩, by simp [opcodeMap], by decide +kernel⟩

end Sys2Proof
end

