-- ==== Sys2Proof/Laws/Sampler.lean ====
section
/-! SUPPORT. What buildAlias does (43_sampler.md R182), said once: the stacks at the start, one turn of the pairing loop, what every
turn keeps, and what the leftover rule writes. -/

namespace Sys2Proof.Machine

/-! ### Entries of a list after one is replaced -/

theorem getD_set_ne {α : Type} (l : List α) {i j : Nat} (x d : α) (h : i ≠ j) : (l.set i x).getD j d = l.getD j d := by
  simp [List.getD_eq_getElem?_getD, h]

theorem getD_set_eq {α : Type} {l : List α} {i : Nat} (x d : α) (h : i < l.length) : (l.set i x).getD i d = x := by
  simp [List.getD_eq_getElem?_getD, h]

/-! ### The start -/

/-- Pushing from the last index down leaves the light indices and the others, each in rising order from the top. -/
theorem initialStacks_eq (scaled : List F64) (n : Nat) :
    initialStacks scaled n =
      ((List.range n).filter (fun i => f64lt (scaled.getD i 0) f64One),
       (List.range n).filter (fun i => !f64lt (scaled.getD i 0) f64One)) := by
  simp only [initialStacks]
  induction List.range n with
  | nil => rfl
  | cons x xs ih =>
    simp only [List.foldr_cons, ih, List.filter_cons]
    generalize f64lt (scaled.getD x 0) f64One = light
    cases light <;> rfl

/-- The scaled weight of an index. -/
theorem scaledWeights_getD {w : List F64} {n i : Nat} (h : i < w.length) :
    (scaledWeights w n).getD i 0 = f64div (f64mul (w.getD i 0) (toF64 n)) (weightSum w) := by
  simp only [scaledWeights]
  rw [List.getD_eq_getElem _ _ (by simpa using h), List.getD_eq_getElem _ _ h, List.getElem_map]

/-! ### One turn -/

theorem aliasPair_table (b : AliasBuild) (a g : Nat) (small large : List Nat) :
    (aliasPair b a g small large).table = ⟨b.table.prob.set a (b.scaled.getD a 0), b.table.other.set a g⟩ := by
  simp only [aliasPair]
  split <;> rfl

theorem aliasPair_scaled (b : AliasBuild) (a g : Nat) (small large : List Nat) :
    (aliasPair b a g small large).scaled =
      b.scaled.set g (f64add (b.scaled.getD g 0) (f64sub (b.scaled.getD a 0) f64One)) := by
  simp only [aliasPair]
  split <;> rfl

/-- The heavy index goes back to the stack where it now belongs. -/
theorem aliasPair_stacks (b : AliasBuild) (a g : Nat) (small large : List Nat) :
    if f64lt (f64add (b.scaled.getD g 0) (f64sub (b.scaled.getD a 0) f64One)) f64One then
      (aliasPair b a g small large).small = g :: small ∧ (aliasPair b a g small large).large = large
    else (aliasPair b a g small large).small = small ∧ (aliasPair b a g small large).large = g :: large := by
  simp only [aliasPair]
  split <;> exact ⟨rfl, rfl⟩

/-- A turn takes the light index out of the stacks and keeps every other index. -/
theorem aliasPair_perm (b : AliasBuild) (a g : Nat) (small large : List Nat) :
    ((aliasPair b a g small large).small ++ (aliasPair b a g small large).large).Perm (g :: (small ++ large)) := by
  have h := aliasPair_stacks b a g small large
  split at h
  · rw [h.1, h.2]; exact List.Perm.refl _
  · rw [h.1, h.2]; exact List.perm_middle

/-- One turn of the pairing loop; no change once a stack is empty. -/
def aliasTurn (b : AliasBuild) : AliasBuild :=
  match b.small, b.large with
  | a :: small, g :: large => aliasPair b a g small large
  | _, _ => b

/-- Everything a turn can do. -/
theorem aliasTurn_cases (b : AliasBuild) :
    ((b.small = [] ∨ b.large = []) ∧ aliasTurn b = b) ∨
    ∃ a g small large, b.small = a :: small ∧ b.large = g :: large ∧ aliasTurn b = aliasPair b a g small large := by
  rcases b with ⟨scaled, table, _ | ⟨a, small⟩, _ | ⟨g, large⟩⟩
  · exact .inl ⟨.inl rfl, rfl⟩
  · exact .inl ⟨.inl rfl, rfl⟩
  · exact .inl ⟨.inr rfl, rfl⟩
  · exact .inr ⟨a, g, small, large, rfl, rfl, rfl⟩

/-- The state after `k` turns. -/
def aliasTurns (b : AliasBuild) : Nat → AliasBuild
  | 0 => b
  | k + 1 => aliasTurn (aliasTurns b k)

theorem aliasTurns_turn (b : AliasBuild) (k : Nat) : aliasTurns (aliasTurn b) k = aliasTurns b (k + 1) := by
  induction k with
  | zero => rfl
  | succ k ih => simp only [aliasTurns] at ih ⊢; rw [ih]

/-- The loop is its turns. -/
theorem aliasLoop_eq_turns (k : Nat) (b : AliasBuild) : aliasLoop k b = aliasTurns b k := by
  induction k generalizing b with
  | zero => rfl
  | succ k ih =>
    rw [← aliasTurns_turn, ← ih]
    rcases b with ⟨scaled, table, _ | ⟨a, small⟩, _ | ⟨g, large⟩⟩
    · cases k <;> rfl
    · cases k <;> rfl
    · cases k <;> rfl
    · rfl

/-! ### What every turn keeps -/

/-- The invariant of the pairing loop: no index stands twice in the stacks, all are indices of the table, and those still there
have alias 0. -/
structure AliasInv (n : Nat) (b : AliasBuild) : Prop where
  nodup : (b.small ++ b.large).Nodup
  index : ∀ i ∈ b.small ++ b.large, i < n
  prob : b.table.prob.length = n
  other : b.table.other.length = n
  scaled : b.scaled.length = n
  alias0 : ∀ i ∈ b.small ++ b.large, b.table.other.getD i 0 = 0

theorem aliasStart_perm (w : List F64) (n : Nat) :
    ((aliasStart w n).small ++ (aliasStart w n).large).Perm (List.range n) := by
  simp only [aliasStart, initialStacks_eq]
  exact List.filter_append_perm _ _

theorem aliasStart_inv {w : List F64} {n : Nat} (h : w.length = n) : AliasInv n (aliasStart w n) where
  nodup := List.nodup_range.perm (aliasStart_perm w n).symm
  index := fun i hi => List.mem_range.1 ((aliasStart_perm w n).mem_iff.1 hi)
  prob := by simp [aliasStart]
  other := by simp [aliasStart]
  scaled := by simp [aliasStart, scaledWeights, h]
  alias0 := fun i _ => by
    simp only [aliasStart, List.getD_eq_getElem?_getD, List.getElem?_replicate]
    split <;> rfl

/-- A turn's light index differs from all that stay in the stacks. -/
theorem AliasInv.light_not_mem {n : Nat} {b : AliasBuild} (h : AliasInv n b) {a g : Nat} {small large : List Nat}
    (hs : b.small = a :: small) (hl : b.large = g :: large) : a ∉ g :: (small ++ large) := by
  have nd := h.nodup
  rw [hs, hl, List.cons_append] at nd
  exact (List.nodup_cons.1 (nd.perm (List.Perm.cons a List.perm_middle))).1

theorem AliasInv.turn {n : Nat} {b : AliasBuild} (h : AliasInv n b) : AliasInv n (aliasTurn b) := by
  rcases aliasTurn_cases b with ⟨-, e⟩ | ⟨a, g, small, large, hs, hl, e⟩
  · rwa [e]
  · have hp := aliasPair_perm b a g small large
    have hm : ∀ i ∈ (aliasPair b a g small large).small ++ (aliasPair b a g small large).large,
        i ∈ b.small ++ b.large ∧ a ≠ i := by
      intro i hi
      have hi' := hp.mem_iff.1 hi
      refine ⟨?_, fun hc => h.light_not_mem hs hl (hc ▸ hi')⟩
      rw [hs, hl]
      simp only [List.mem_cons, List.mem_append] at hi' ⊢
      tauto
    have nd := h.nodup
    rw [hs, hl, List.cons_append] at nd
    rw [e]
    exact
      { nodup := (List.nodup_cons.1 (nd.perm (List.Perm.cons a List.perm_middle))).2.perm hp.symm
        index := fun i hi => h.index i (hm i hi).1
        prob := by rw [aliasPair_table]; simpa using h.prob
        other := by rw [aliasPair_table]; simpa using h.other
        scaled := by rw [aliasPair_scaled]; simpa using h.scaled
        alias0 := fun i hi => by
          rw [aliasPair_table, getD_set_ne _ _ _ (hm i hi).2]
          exact h.alias0 i (hm i hi).1 }

theorem AliasInv.turns {n : Nat} {b : AliasBuild} (h : AliasInv n b) (k : Nat) : AliasInv n (aliasTurns b k) := by
  induction k with
  | zero => exact h
  | succ k ih => exact ih.turn

/-- An index that has left the stacks keeps its entries and never comes back. -/
theorem aliasTurn_settled {b : AliasBuild} {x : Nat} (hx : x ∉ b.small ++ b.large) :
    x ∉ (aliasTurn b).small ++ (aliasTurn b).large ∧ (aliasTurn b).table.prob.getD x 0 = b.table.prob.getD x 0 ∧
      (aliasTurn b).table.other.getD x 0 = b.table.other.getD x 0 := by
  rcases aliasTurn_cases b with ⟨-, e⟩ | ⟨a, g, small, large, hs, hl, e⟩
  · rw [e]
    exact ⟨hx, rfl, rfl⟩
  · rw [hs, hl] at hx
    have ha : a ≠ x := fun hc => hx (by simp [hc])
    rw [e, aliasPair_table]
    refine ⟨fun hc => hx ?_, getD_set_ne _ _ _ ha, getD_set_ne _ _ _ ha⟩
    have := (aliasPair_perm b a g small large).mem_iff.1 hc
    simp only [List.mem_cons, List.mem_append] at this ⊢
    tauto

/-- The same over any number of turns. -/
theorem aliasTurns_settled {b : AliasBuild} {x k : Nat} (hx : x ∉ (aliasTurns b k).small ++ (aliasTurns b k).large) (m : Nat) :
    x ∉ (aliasTurns b (k + m)).small ++ (aliasTurns b (k + m)).large ∧
      (aliasTurns b (k + m)).table.prob.getD x 0 = (aliasTurns b k).table.prob.getD x 0 ∧
      (aliasTurns b (k + m)).table.other.getD x 0 = (aliasTurns b k).table.other.getD x 0 := by
  induction m with
  | zero => exact ⟨hx, rfl, rfl⟩
  | succ m ih =>
    have h := aliasTurn_settled ih.1
    exact ⟨h.1, h.2.1.trans ih.2.1, h.2.2.trans ih.2.2⟩

/-- Every turn that pairs takes one index out of the stacks. -/
theorem aliasTurns_length {b : AliasBuild} {k : Nat}
    (h : ∀ j, j < k → (aliasTurns b j).small ≠ [] ∧ (aliasTurns b j).large ≠ []) :
    (aliasTurns b k).small.length + (aliasTurns b k).large.length + k = b.small.length + b.large.length := by
  induction k with
  | zero => rfl
  | succ k ih =>
    have hk := ih fun j hj => h j (by omega)
    rcases aliasTurn_cases (aliasTurns b k) with ⟨hc, -⟩ | ⟨a, g, small, large, hs, hl, e⟩
    · have := h k (by omega)
      tauto
    · have hp := (aliasPair_perm (aliasTurns b k) a g small large).length_eq
      simp only [List.length_append, List.length_cons] at hp
      rw [hs, hl] at hk
      simp only [List.length_cons] at hk
      simp only [aliasTurns, e]
      omega

/-! ### The leftover rule -/

@[simp] theorem fillOnes_length (prob : List F64) (indices : List Nat) : (fillOnes prob indices).length = prob.length := by
  induction indices generalizing prob with
  | nil => rfl
  | cons i indices ih => exact (ih _).trans (List.length_set)

/-- Everything the leftover rule can do: 1.0 at every index given, and every other entry as it was. -/
theorem fillOnes_getD (prob : List F64) (indices : List Nat) {x : Nat} (hx : x < prob.length) :
    (fillOnes prob indices).getD x 0 = if x ∈ indices then f64One else prob.getD x 0 := by
  induction indices generalizing prob with
  | nil => rfl
  | cons i indices ih =>
    have e : fillOnes prob (i :: indices) = fillOnes (prob.set i f64One) indices := rfl
    rw [e, ih _ (by simpa using hx)]
    by_cases hi : i = x
    · subst hi
      simp only [getD_set_eq f64One 0 hx, List.mem_cons, true_or, if_true, ite_self]
    · simp only [getD_set_ne prob f64One 0 hi, List.mem_cons, Ne.symm hi, false_or]

end Sys2Proof.Machine
end

