-- ==== Sys2Proof/Tests/Slice0.lean ====
section
/-! SUPPORT. Tests: the checks of WellFormed, the decoding of words written out from 30_encoding.md R93, one-step tests with
results taken from 95_test_vectors.md, and for every statement with hypotheses a witness that meets them. -/

namespace Sys2Proof.Machine.Tests

set_option Elab.async false

/-! ### Helpers -/

/-- The next state of an outcome. -/
def after : Host.Outcome State Fault Refusal → Option State
  | .next t => some t
  | .fault _ => none
  | .refused _ => none

/-- The value of a result. -/
def value {α : Type} : Except ErrorCode α → Option α
  | .ok a => some a
  | .error _ => none

/-- The error of a result. -/
def errorOf {α : Type} : Except ErrorCode α → Option ErrorCode
  | .ok _ => none
  | .error e => some e

/-- The state after reset with these ARG registers. -/
def armed (a0 a1 a2 a3 : Word) : State := { State.reset with args := ⟨a0, a1, a2, a3⟩ }

/-- `armed` with these PRNG lanes. -/
def armedLanes (l : Lanes) (a0 a1 : Word) : State := { armed a0 a1 0 0 with lanes := l }

/-- The bytes of a string at a bus address, none of them 0. -/
def bytesAt (a : Nat) (bs : List Byte) : Memory := (List.range bs.length).map fun i => (a + i, bs.getD i 0)

/-- The lanes of a fresh "Wolf" seed (95 section 2.3). -/
def wolf : Lanes := ⟨0xEA858AFBF837AAE7, 0x14617E89A36524AC, 0xED28F7DE921F7798, 0xE72810FD8839A462⟩

/-- Lanes whose next raw output is 2^64 - 1, of value 1.0 (95 section 2.3). -/
def topLanes : Lanes := ⟨0, 0x4FC71C71C71C71C7, 0, 0⟩

/-- Lanes whose next raw output is 2^64 - 1024, the smallest of value 1.0. -/
def edgeLanes : Lanes := ⟨0, 0xCCD82D82D82D82D8, 0, 0⟩

/-- Lanes whose next raw output is 2^64 - 1025, the largest that forms an index. -/
def belowLanes : Lanes := ⟨0, 0x1C9F49F49F49F49F, 0, 0⟩

/-- WGT_RAM with these entries. -/
def weighted (ws : List DWord) (n : Word) : State := { armed n 0 0 0 with mem := Memory.writeBytes [] 0x50000 (bytes64 ws) }

/-- A block that holds the 37-byte message 00 01 .. 24 with `FTN_CONFIG 37, 10, 2, seq` (95 S7); byte 0 is not listed. -/
def message37 (seq : Word) : State :=
  { State.reset with
    mem := (List.range 36).map fun i => (0x10001 + i, BitVec.ofNat 8 (i + 1))
    ftnMsgLen := 37, ftnFragLen := 10, ftnFragCount := 4, ftnChecksum := 0x8222EFE9, ftnSeqNum := seq, ftnValid := true }

/-- `message37` with these ARG registers. -/
def message37Args (a0 : Word) : State := { message37 0 with args := ⟨a0, 0, 0, 0⟩ }

/-- `message37` with a selection of two entries in SEL_RAM. -/
def selected (i j : Byte) : State :=
  { message37 0 with
    mem := (message37 0).mem ++ [(0x40000, i), (0x40004, j)], selCount := 2, selSeq := 5 }

/-- A block with a command pending and this many cycles left. -/
def busyWith (w : Word) (cycles : Nat) (host : List (Option Access)) : State :=
  { State.reset with cmdLast := w, pending := some ⟨w, ⟨0, 0, 0, 0⟩, cycles⟩, host := host }

/-! ### WellFormed: every check refuses an ill-formed term -/

theorem test_wellFormed_reference : Params.reference.wellFormed = true := by decide

theorem test_msgRamSize_zero : Params.wellFormed { Params.reference with msgRamSize := 0 } = false := by decide

theorem test_msgRamSize_above : Params.wellFormed { Params.reference with msgRamSize := 65537 } = false := by decide

theorem test_seedRamSize_below : Params.wellFormed { Params.reference with seedRamSize := 7 } = false := by decide

theorem test_seedRamSize_above : Params.wellFormed { Params.reference with seedRamSize := 65537 } = false := by decide

theorem test_outRamSize_zero : Params.wellFormed { Params.reference with outRamSize := 0 } = false := by decide

theorem test_outRamSize_above : Params.wellFormed { Params.reference with outRamSize := 65537 } = false := by decide

theorem test_maxFrags_zero : Params.wellFormed { Params.reference with maxFrags := 0 } = false := by decide

theorem test_maxFrags_above : Params.wellFormed { Params.reference with maxFrags := 8193 } = false := by decide

/-! ### Decode: one word a constructor, IMM16, RSV, MODE and OPC from the left as 30_encoding.md R90 and R93 lay them out -/

theorem test_decode_nop : decode 0b0000000000000000_0000_0000_00000000#32 = .ok .nop := rfl

theorem test_decode_crcInit : decode 0b0000000000000000_0000_0000_00000001#32 = .ok .crcInit := rfl

theorem test_decode_crcByte : decode 0b0000000011000101_0000_0000_00000010#32 = .ok (.crcByte 0xC5) := rfl

theorem test_decode_crcBuf : decode 0b0000000000000000_0000_0001_00000011#32 = .ok (.crcBuf 1) := rfl

theorem test_decode_prngSeed : decode 0b0000000000000000_0000_0000_00010000#32 = .ok .prngSeed := rfl

theorem test_decode_prngSeedPair : decode 0b0000000000000000_0000_0000_00010001#32 = .ok .prngSeedPair := rfl

theorem test_decode_prngNext : decode 0b0000000000000000_0000_0000_00010010#32 = .ok .prngNext := rfl

theorem test_decode_prngDouble : decode 0b0000000000000000_0000_0000_00010011#32 = .ok .prngDouble := rfl

theorem test_decode_prngInt : decode 0b0000000000000000_0000_0000_00010100#32 = .ok .prngInt := rfl

theorem test_decode_prngByte : decode 0b0000000000000000_0000_0000_00010101#32 = .ok .prngByte := rfl

theorem test_decode_prngShuffle : decode 0b0000000000000000_0000_0000_00010110#32 = .ok .prngShuffle := rfl

theorem test_decode_smpBuild : decode 0b0000000000000000_0000_0000_00100000#32 = .ok (.smpBuild 0) := rfl

theorem test_decode_smpBuild_w : decode 0b0000000000000000_0000_0001_00100000#32 = .ok (.smpBuild 1) := rfl

theorem test_decode_smpSample : decode 0b0000000000000000_0000_0000_00100001#32 = .ok .smpSample := rfl

theorem test_decode_ftnConfig : decode 0b0000000000000000_0000_0000_00110000#32 = .ok .ftnConfig := rfl

theorem test_decode_ftnNext : decode 0b0000000000000000_0000_0000_00110001#32 = .ok .ftnNext := rfl

theorem test_decode_ftnChoose : decode 0b0000000000000000_0000_0000_00110010#32 = .ok .ftnChoose := rfl

theorem test_decode_ftnMix : decode 0b0000000000000000_0000_0000_00110011#32 = .ok .ftnMix := rfl

theorem test_decode_ftnSeek : decode 0b0000000000000000_0000_0000_00110100#32 = .ok .ftnSeek := rfl

theorem test_decode_ftnClear : decode 0b0000000000000000_0000_0000_00110101#32 = .ok .ftnClear := rfl

/-- The words that are no command in 95 section 2.1. -/
theorem test_decode_errors :
    decode 0x00000004 = .error .illegalOpcode ∧ decode 0x000000FF = .error .illegalOpcode ∧
    decode 0x00001000 = .error .reservedField ∧ decode 0x00010001 = .error .reservedField ∧
    decode 0x00000203 = .error .reservedField ∧ decode 0x01000002 = .error .reservedField ∧
    decode 0x00000121 = .error .reservedField := ⟨rfl, rfl, rfl, rfl, rfl, rfl, rfl⟩

/-- Encoding by hand: CRC_BYTE 0xC5 and CRC_BUF.SEED. -/
theorem test_encode : encode (.crcByte 0xC5) = 0x00C50002 ∧ encode (.crcBuf 1) = 0x00000103 := by decide

/-! ### Functions of the spec, on its vectors -/

/-- The single steps of 95 section 2.2. -/
theorem test_crcStep :
    crcStep 0xFFFFFFFF 0x00 = 0x2DFD1072 ∧ crcStep 0xFFFFFFFF 0x31 = 0x7C231048 ∧ crcStep 0 0 = 0 ∧
    crcStep 0 0x01 = 0x77073096 ∧ crcStep 0 0x80 = 0xEDB88320 := by decide +kernel

/-- "123456789" (95 section 2.2). -/
theorem test_crc32 : crc32 [0x31, 0x32, 0x33, 0x34, 0x35, 0x36, 0x37, 0x38, 0x39] = 0xCBF43926 := by decide +kernel

/-- The lanes of the seed "abc" (95 section 2.3), which also checks SHA-256 on a published digest. -/
theorem test_seedLanes_abc :
    seedLanes Params.reference [0x61, 0x62, 0x63] =
      ⟨0xBA7816BF8F01CFEA, 0x414140DE5DAE2223, 0xB00361A396177A9C, 0xB410FF61F20015AD⟩ := by decide +kernel

/-- The patterns of 95 section 2.3; the row of 2^53 follows R152, not the table (log 21). -/
theorem test_u2d :
    u2d 0 = 0 ∧ u2d 1 = 0x3BF0000000000000 ∧ u2d (1 <<< 53) = 0x3F40000000000000 ∧
    u2d (1 <<< 63) = 0x3FE0000000000000 ∧ u2d 0xFFFFFFFFFFFFFBFF = 0x3FEFFFFFFFFFFFFF ∧
    u2d 0xFFFFFFFFFFFFFC00 = f64One ∧ u2d 0xFFFFFFFFFFFFFFFF = f64One := by decide +kernel

/-- The harmonic table of size 5 (95 section 2.4). -/
theorem test_buildAlias :
    buildAlias (harmonicWeights 5) 5 =
      ⟨[0x3FECF6A82CD8C255, 0x3FF0000000000000, 0x3FE75B8FE21A291C, 0x3FE184ABE9939ED5, 0x3FDC077975B8FE22],
        [1, 0, 0, 0, 0]⟩ := by decide +kernel

/-- A zero product keeps its sign: the table of the weights -0, 1 (95 section 2.4, log 11). -/
theorem test_buildAlias_negative_zero :
    buildAlias [0x8000000000000000, f64One] 2 = ⟨[0x8000000000000000, f64One], [1, 0]⟩ := by decide +kernel

/-- The weight vectors that 95 section 2.4 rejects with BAD_WEIGHTS. -/
theorem test_bad_weights :
    weightsOk [0x7FF8000000000000] 1 = false ∧ weightsOk [0x7FF0000000000000, f64One] 2 = false ∧
    weightsOk [0xBFF0000000000000, 0x4000000000000000] 2 = false ∧ weightsOk [0, 0] 2 = false ∧
    weightsOk [0x7FEFFFFFFFFFFFFF, 0x7FEFFFFFFFFFFFFF] 2 = false ∧
    weightsOk [0x7FEFFFFFFFFFFFFF, 0] 2 = false := by decide +kernel

/-- The selections of parts 5, 12 and 14 of the 37-byte message (95 section 2.5). -/
theorem test_chooseFragments :
    value (chooseFragments Params.reference 5 4 0x8222EFE9) = some [2, 3] ∧
    value (chooseFragments Params.reference 12 4 0x8222EFE9) = some [1, 0, 2, 3] ∧
    value (chooseFragments Params.reference 14 4 0x8222EFE9) = some [2, 0, 1] := by decide +kernel

/-! ### One step, command by command -/

theorem test_nop : after (exec .nop State.reset) = some { State.reset with done := true } := by decide +kernel

theorem test_crcInit : (after (exec .crcInit { State.reset with crcState := 5 })).map (·.crcState) = some 0xFFFFFFFF := by
  decide +kernel

theorem test_crcByte : (after (exec (.crcByte 0xFF) State.reset)).map (·.crcResult) = some 0xFF000000 := by decide +kernel

theorem test_crcBuf :
    (after (exec (.crcBuf 1)
      { armed 1 4 0 0 with mem := bytesAt 0x20000 [0x58, 0x57, 0x6F, 0x6C, 0x66] })).map (·.crcResult) =
      some 0x598C84DC := by decide +kernel

theorem test_crcBuf_no_wrap : (after (exec (.crcBuf 0) (armed 0xFFFFFFFF 2 0 0))).map (·.errCode) = some .badArg := by
  decide +kernel

theorem test_prngSeed :
    (after (exec .prngSeed { armed 4 0 0 0 with mem := bytesAt 0x20000 [0x57, 0x6F, 0x6C, 0x66] })).map (·.lanes) =
      some wolf := by decide +kernel

theorem test_prngSeedPair :
    (after (exec .prngSeedPair (armed 5 0x8222EFE9 0 0))).map (·.lanes) =
      some ⟨0x66AC5A0DF40DBC78, 0x7C32C9431A824049, 0xF677D73E72E32A32, 0xCC4B41C4ADF04444⟩ := by decide +kernel

theorem test_prngNext :
    (after (exec .prngNext (armedLanes wolf 0 0))).map (fun t => (t.lanes, t.prngOut, t.res0, t.res1)) =
      some (⟨0x19CCE48FD36B2A29, 0x13CC03ACC94DF9D3, 0xFABE3BEF2370DD7F, 0x9019DE692DCE856B⟩, 0x919F18DC63B91FC2,
        0x63B91FC2, 0x919F18DC) := by decide +kernel

theorem test_prngNext_1234 :
    (after (exec .prngNext (armedLanes ⟨1, 2, 3, 4⟩ 0 0))).map (·.prngOut) = some 0x2D00 := by decide +kernel

theorem test_prngDouble :
    (after (exec .prngDouble (armedLanes wolf 0 0))).map (fun t => (t.res1, t.res0)) =
      some (0x3FE233E3, 0x1B8C7724) := by decide +kernel

theorem test_prngDouble_one :
    (after (exec .prngDouble (armedLanes topLanes 0 0))).map (fun t => (t.res1, t.res0, t.lanes)) =
      some (0x3FF00000, 0, ⟨0x4FC71C71C71C71C7, 0x4FC71C71C71C71C7, 0x38E38E38E38E0000, 0x8E38E9F8E38E38E3⟩) := by
  decide +kernel

theorem test_prngInt :
    (after (exec .prngInt (armedLanes wolf 1 10))).map (·.res0) = some 6 ∧
    (after (exec .prngInt (armedLanes wolf 0 0xFFFFFFFF))).map (·.res0) = some 0x919F18DC := by decide +kernel

theorem test_prngInt_range :
    (after (exec .prngInt (armedLanes edgeLanes 0 9))).map (·.errCode) = some .rngRange ∧
    (after (exec .prngInt (armedLanes belowLanes 0 0xFFFFFFFF))).map (·.res0) = some 0xFFFFFFFF := by decide +kernel

theorem test_prngByte :
    (after (exec .prngByte (armedLanes wolf 0 0))).map (·.res0) = some 0x91 ∧
    (after (exec .prngByte (armedLanes belowLanes 0 0))).map (·.res0) = some 255 := by decide +kernel

theorem test_prngShuffle :
    (after (exec .prngShuffle (armedLanes wolf 10 10))).map (fun t => t.selList 10) =
      some [5, 3, 8, 2, 9, 4, 6, 7, 0, 1] := by decide +kernel

theorem test_prngShuffle_first :
    (after (exec .prngShuffle (armedLanes wolf 1 1))).map (fun t => (t.sel 0, t.prngOut, t.selCount)) =
      some (0, 0x919F18DC63B91FC2, 1) := by decide +kernel

theorem test_smpBuild :
    (after (exec (.smpBuild 1) (weighted [f64One, 0x4000000000000000, 0x4010000000000000, 0x4020000000000000] 4))).map
        (fun t => ((List.range 4).map t.prob, (List.range 4).map t.aliasOf, t.smpN, t.smpValid)) =
      some ([0x3FD1111111111111, 0x3FE1111111111111, 0x3FD5555555555554, 0x3FF0000000000000], [2, 3, 3, 0], 4, true) := by
  decide +kernel

theorem test_smpSample :
    ((after (exec (.smpBuild 0) (armedLanes wolf 4 0))).bind (fun t => after (exec .smpSample t))).map
        (fun t => (t.res0, t.res1, t.prngOut)) =
      some (2, 2, 0x6E52AFB15A750D39) := by decide +kernel

theorem test_smpSample_notConfigured : (after (exec .smpSample State.reset)).map (·.errCode) = some .notConfigured := by
  decide +kernel

theorem test_ftnConfig :
    (after (exec .ftnConfig { message37 0 with args := ⟨37, 10, 2, 0⟩, ftnValid := false })).map
        (fun t => (t.res0, t.res1, t.ftnChecksum, t.ftnValid)) =
      some (4, 10, 0x8222EFE9, true) := by decide +kernel

theorem test_ftnConfig_refused :
    (after (exec .ftnConfig (armed 37 2 10 0))).map (·.errCode) = some .badFtnParams := by decide +kernel

theorem test_ftnNext :
    (after (exec .ftnNext (message37 4))).map (fun t => (t.selList 2, t.memRead .outRam 0 10, t.res0, t.res1)) =
      some ([2, 3], [0x0A, 0x0A, 0x36, 0x36, 0x3A, 0x3A, 0x3E, 0x1B, 0x1C, 0x1D], 2, 5) := by decide +kernel

theorem test_ftnNext_overflow :
    (after (exec .ftnNext (message37 0xFFFFFFFF))).map (fun t => (t.errCode, t.ftnSeqNum)) =
      some (.seqOverflow, 0xFFFFFFFF) := by decide +kernel

theorem test_ftnChoose :
    (after (exec .ftnChoose (message37Args 15))).map (fun t => (t.selList 2, t.selCount, t.selSeq, t.ftnSeqNum)) =
      some ([2, 1], 2, 15, 0) := by decide +kernel

theorem test_ftnMix :
    (after (exec .ftnMix (selected 2 1))).map (fun t => (t.memRead .outRam 0 10, t.res1)) =
      some ([0x1E, 0x1E, 0x1A, 0x1A, 0x16, 0x16, 0x0A, 0x0A, 0x0E, 0x0E], 5) := by decide +kernel

theorem test_ftnMix_badIndex : (after (exec .ftnMix (selected 1 4))).map (·.errCode) = some .badIndex := by
  decide +kernel

theorem test_ftnSeek : (after (exec .ftnSeek (message37Args 0xFFFFFFFF))).map (·.ftnSeqNum) = some 0xFFFFFFFF := by
  decide +kernel

theorem test_ftnClear : (after (exec .ftnClear (message37 3))).map (fun t => (t.ftnValid, t.ftnSeqNum)) = some (false, 3) := by
  decide +kernel

/-! ### The step -/

/-- The first word of 95 program P4: an unmapped opcode ends with STATUS 0x00000106. -/
theorem test_step_illegal_opcode :
    (after (step (State.reset.withFetchWord 32 4))).map (·.statusWord) = some 0x00000106 := by decide +kernel

theorem test_step_runs_fetch_word :
    (after (step (State.reset.withFetchWord 32 0x00FF0002))).map (fun t => (t.crcState, t.cmdLast, t.host)) =
      some (0x00FFFFFF, 0x00FF0002, []) := by decide +kernel

/-- A STATUS clear in the cycle of a completion: the set wins (10_state.md R25). -/
theorem test_step_set_wins :
    (after (step (busyWith 0 1 [some (.write .word 0x0000C 2)]))).map (fun t => (t.done, t.busy)) =
      some (true, false) := by decide +kernel

/-! ### Witnesses: concrete states and operands that meet the hypotheses of each statement -/

/-- `message37` meets the invariant. -/
theorem message37_inv (seq : Word) : (message37 seq).Inv where
  params := by show Params.reference.wellFormed = true; decide
  mem := by show Memory.wf (message37 0).mem = true; decide +kernel
  latch := fun _ h => nomatch h
  sel := by show (0 : Word).toNat ≤ 1024; decide
  sampler := fun h => nomatch h
  fountain := fun _ => by
    show ((1 ≤ (37 : Word).toNat ∧ (37 : Word).toNat ≤ 4096) ∧ (1 ≤ (4 : Word).toNat ∧ (4 : Word).toNat ≤ 1024) ∧
      (1 ≤ (10 : Word).toNat ∧ (10 : Word).toNat ≤ 1024) ∧ _ ∧ _ ∧ _)
    refine ⟨by decide, by decide, by decide, by show (4 - 1) * 10 < 37; decide, by show 37 ≤ 4 * 10; decide, ?_⟩
    show (0x8222EFE9 : Word) = crc32 ((message37 0).memRead .msgRam 0 37)
    decide +kernel

/-- The state after reset meets the invariant. -/
theorem reset_inv : State.reset.Inv where
  params := by decide
  mem := rfl
  latch := fun _ h => nomatch h
  sel := by decide
  sampler := fun h => nomatch h
  fountain := fun h => nomatch h

/-- Every raw output from the all-zero lanes is 0, so it forms an index. -/
theorem zeroLanes_drawable (j : Nat) : drawable (rawAt ⟨0, 0, 0, 0⟩ j) := by
  have h : ∀ j, lanesAfter ⟨0, 0, 0, 0⟩ j = ⟨0, 0, 0, 0⟩ := fun j => by
    induction j with
    | zero => rfl
    | succ k ih => simp only [lanesAfter, ih]; decide
  simp only [drawable, rawAt, h]
  decide

/-- `encodedAs`: a word with a row's opcode, with its fixed bits and without. -/
theorem witness_encodedAs : opcField 0x00FF0002 = 0x02 ∧ opcField 0x01000002 = 0x02 := by decide

/-- CrcBufFoldsItsRange, at the ends of SEED_RAM and MSG_RAM. -/
theorem witness_crcBuf :
    State.reset.params.seedRamSize < (armed 250 7 0 0).operands.a0.toNat + (armed 250 7 0 0).operands.a1.toNat ∧
    (armed 250 6 0 0).operands.a0.toNat + (armed 250 6 0 0).operands.a1.toNat ≤ State.reset.params.seedRamSize ∧
    (armed 256 0 0 0).operands.a0.toNat + (armed 256 0 0 0).operands.a1.toNat ≤ State.reset.params.seedRamSize ∧
    State.reset.params.msgRamSize < (armed 1 4096 0 0).operands.a0.toNat + (armed 1 4096 0 0).operands.a1.toNat ∧
    (armed 0 4096 0 0).operands.a0.toNat + (armed 0 4096 0 0).operands.a1.toNat ≤ State.reset.params.msgRamSize := by
  decide +kernel

/-- PrngSeedSeedsFromSeedRam, at the end of SEED_RAM. -/
theorem witness_prngSeed :
    State.reset.params.seedRamSize < (armed 257 0 0 0).operands.a0.toNat ∧
    (armed 256 0 0 0).operands.a0.toNat ≤ State.reset.params.seedRamSize := by decide +kernel

/-- PrngIntDrawsBetweenItsBounds and PrngByteDrawsAByte: crossed bounds, equal bounds, and the two raw outputs at the edge. -/
theorem witness_prngInt :
    (armedLanes edgeLanes 10 9).operands.a1.toNat < (armedLanes edgeLanes 10 9).operands.a0.toNat ∧
    (armedLanes edgeLanes 7 7).operands.a0.toNat ≤ (armedLanes edgeLanes 7 7).operands.a1.toNat ∧
    ¬drawable (rawAt (armedLanes edgeLanes 7 7).lanes 0) ∧
    (armedLanes belowLanes 0 0xFFFFFFFF).operands.a0.toNat ≤ (armedLanes belowLanes 0 0xFFFFFFFF).operands.a1.toNat ∧
    drawable (rawAt (armedLanes belowLanes 0 0xFFFFFFFF).lanes 0) := by decide +kernel

/-- PrngShuffleWritesItsSelection: the three rejections. -/
theorem witness_prngShuffle_badArg :
    State.reset.params.wellFormed = true ∧ State.reset.mem.wf = true ∧
    (armed 0 0 0 0).operands.a0.toNat = 0 ∧ State.reset.params.maxFrags < (armed 1025 1 0 0).operands.a0.toNat ∧
    (armed 4 5 0 0).operands.a0.toNat < (armed 4 5 0 0).operands.a1.toNat := by decide +kernel

/-- PrngShuffleWritesItsSelection: RNG_RANGE at the first draw, and the largest selection drawn in range. -/
theorem witness_prngShuffle :
    ((∃ j, j < (armedLanes topLanes 1 0).operands.a0.toNat ∧ ¬drawable (rawAt (armedLanes topLanes 1 0).lanes j)) ∧
      (armedLanes topLanes 1 0).operands.a1.toNat ≤ (armedLanes topLanes 1 0).operands.a0.toNat) ∧
    ((armed 1024 1024 0 0).operands.a0.toNat ≤ State.reset.params.maxFrags ∧
      ∀ j, j < (armed 1024 1024 0 0).operands.a0.toNat → drawable (rawAt (armed 1024 1024 0 0).lanes j)) :=
  ⟨⟨⟨0, by decide +kernel⟩, by decide +kernel⟩, by decide +kernel, fun j _ => zeroLanes_drawable j⟩

/-- `badWeights` as a check that the kernel evaluates. -/
def badWeightsCheck (w : List F64) (n : Nat) : Bool :=
  let ones := fun a : F64 => a.extractLsb' 52 11 == 0x7FF
  w.any (fun a => ones a || (a.getLsbD 63 && a.extractLsb' 0 63 != 0))
    || (ones (w.foldl f64add 0) || (w.foldl f64add 0).extractLsb' 0 63 == 0)
    || w.any (fun a => ones (f64mul a (toF64 n)))

theorem badWeightsCheck_iff {w : List F64} {n : Nat} : badWeightsCheck w n = true ↔ badWeights w n := by
  simp only [badWeightsCheck, badWeights, notFinite, belowZero, Bool.or_eq_true, Bool.and_eq_true, List.any_eq_true,
    beq_iff_eq, bne_iff_ne, or_assoc]

theorem badWeights_of_check {w : List F64} {n : Nat} (h : badWeightsCheck w n = true) : badWeights w n :=
  badWeightsCheck_iff.1 h

theorem not_badWeights_of_check {w : List F64} {n : Nat} (h : badWeightsCheck w n = false) : ¬badWeights w n :=
  fun hb => by rw [badWeightsCheck_iff.2 hb] at h; cases h

/-- SmpBuildStoresTheAliasTable: no entry and one entry too many, and weights that pass in both modes. -/
theorem witness_smpBuild :
    (State.reset.params.maxFrags < (armed 1025 0 0 0).operands.a0.toNat ∧ (armed 0 0 0 0).operands.a0.toNat = 0 ∧
      (weighted [f64One] 1).mem.wf = true ∧ (weighted [f64One] 1).operands.a0.toNat = 1) ∧
    ¬badWeights (harmonicList 4) 4 ∧ ¬badWeights ((List.range 1).map (weighted [f64One] 1).wgt) 1 :=
  ⟨by decide +kernel, not_badWeights_of_check (by decide +kernel), not_badWeights_of_check (by decide +kernel)⟩

/-- SmpBuildStoresTheAliasTable: a NaN and a zero sum in WGT_RAM. -/
theorem witness_smpBuild_badWeights :
    badWeights ((List.range 1).map (weighted [0x7FF8000000000000] 1).wgt) 1 ∧
    badWeights ((List.range 1).map (armed 1 0 0 0).wgt) 1 :=
  ⟨badWeights_of_check (by decide +kernel), badWeights_of_check (by decide +kernel)⟩

/-- HarmonicWeightsAlwaysPass: each check of R181 fails, on the vectors of 95 section 2.4, and -0 is accepted. -/
theorem test_badWeights :
    [([0xBFF0000000000000, 0x4000000000000000], 2), ([0x7FF0000000000000, f64One], 2), ([0, 0], 2),
      ([0x7FEFFFFFFFFFFFFF, 0x7FEFFFFFFFFFFFFF], 2), ([0x7FEFFFFFFFFFFFFF, 0], 2),
      ([0x8000000000000000, f64One], 2)].map (fun x : List F64 × Nat => badWeightsCheck x.1 x.2) =
      [true, true, true, true, true, false] := by decide +kernel

/-- SmpBuildStoresTheAliasTable: the largest table of a block whose MAX_FRAGS is 4. -/
theorem witness_smpBuild_largest :
    let s : State := { armed 4 0 0 0 with params := { Params.reference with maxFrags := 4 } }
    s.params.wellFormed = true ∧ s.operands.a0.toNat = s.params.maxFrags ∧ ¬badWeights (harmonicList 4) 4 :=
  ⟨by decide +kernel, by decide +kernel, not_badWeights_of_check (by decide +kernel)⟩

/-- SmpSampleDrawsFromTheTable: no table, and a table with each edge draw. -/
theorem witness_smpSample :
    State.reset.smpValid = false ∧
    (let s := { armedLanes edgeLanes 0 0 with smpValid := true, smpN := 1 }
     s.smpValid = true ∧ ¬drawable (rawAt s.lanes 0)) ∧
    (let s := { armedLanes belowLanes 0 0 with smpValid := true, smpN := 1 }
     s.smpValid = true ∧ drawable (rawAt s.lanes 0)) := by decide +kernel

/-- The hypotheses of the second clause of FtnConfigHoldsTheConfiguration, as a check. -/
def configAccepted (s : State) : Bool :=
  let len := s.operands.a0.toNat
  let max := s.operands.a1.toNat
  let min := s.operands.a2.toNat
  let f := (len + max - 1) / max
  let m := (len + f - 1) / f
  1 ≤ len && 1 ≤ max && 1 ≤ min && min ≤ max && len ≤ s.params.msgRamSize && f ≤ s.params.maxFrags
    && m ≤ s.params.outRamSize

/-- FtnConfigHoldsTheConfiguration: each rejection of 95 section 2.5, one just past each bound, and what is accepted at the
bounds. -/
theorem witness_ftnConfig :
    ([armed 0 10 2 0, armed 37 0 0 0, armed 37 10 0 0, armed 37 9 10 0, armed 4097 10 1 0, armed 4096 3 1 0,
      armed 1025 1025 1 0].map configAccepted = List.replicate 7 false) ∧
    ([armed 1 1 1 0, armed 4096 4 4 0, armed 1024 1024 1 0].map configAccepted = List.replicate 3 true) := by
  decide +kernel

/-- FtnNextProducesTheNextPart: nothing configured, the last sequence number, the first part, the last pure part and the first
mixed one; their draws are in range. -/
theorem witness_ftnNext :
    State.reset.ftnValid = false ∧ (message37 0).ftnValid = true ∧ (message37 0xFFFFFFFF).ftnSeqNum = 0xFFFFFFFF ∧
    (message37 0xFFFFFFFE).ftnSeqNum ≠ 0xFFFFFFFF ∧ drawsInRange Params.reference 1 4 0x8222EFE9 ∧
    drawsInRange Params.reference 4 4 0x8222EFE9 ∧ drawsInRange Params.reference 5 4 0x8222EFE9 ∧
    drawsInRange Params.reference 0xFFFFFFFF 4 0x8222EFE9 := by decide +kernel

/-- FtnChooseWritesTheSelection: sequence number 0 and the smallest and the largest legal one. -/
theorem witness_ftnChoose :
    (message37Args 0).operands.a0 = 0 ∧ (message37Args 1).operands.a0 ≠ 0 ∧
    (message37Args 0xFFFFFFFF).operands.a0 ≠ 0 ∧ (message37Args 0).ftnValid = true := by decide +kernel

/-- FtnMixXorsTheListedFragments: the smallest bad index and the largest good one. -/
theorem witness_ftnMix :
    (selected 1 4).mem.wf = true ∧ (selected 1 4).ftnValid = true ∧
    (∃ i ∈ (List.range (selected 1 4).selCount.toNat).map (fun k => ((selected 1 4).sel k).toNat), 4 ≤ i) ∧
    (∀ i ∈ (List.range (selected 1 3).selCount.toNat).map (fun k => ((selected 1 3).sel k).toNat), i < 4) := by
  decide +kernel

/-- FtnSeekSetsTheSequenceNumber: both clauses. -/
theorem witness_ftnSeek : State.reset.ftnValid = false ∧ (message37Args 0).ftnValid = true := by decide

/-- FailedCommandsCommitNothing. -/
theorem witness_failed : exec .smpSample State.reset = .next (errorState State.reset .notConfigured) ∧
    (errorState State.reset .notConfigured).errCode ≠ .ok := ⟨rfl, by decide⟩

/-- NoCommandWritesWhatTheHostOwns and FountainLeavesTheOtherUnits. -/
theorem witness_frames :
    Instr.ftnClear ∈ [Instr.ftnConfig, .ftnNext, .ftnChoose, .ftnMix, .ftnSeek, .ftnClear] ∧
    exec .ftnClear (message37 0) = .next (okState { message37 0 with ftnValid := false }) ∧ (message37 0).Inv :=
  ⟨by decide, rfl, message37_inv 0⟩

/-- A mixed split: a byte, the last six bytes of SEED_RAM, the empty range past them, and all of MSG_RAM. -/
def crcPieces : List (Instr × Args) :=
  [(.crcByte 0x61, ⟨0, 0, 0, 0⟩), (.crcBuf 1, ⟨250, 6, 0, 0⟩), (.crcBuf 1, ⟨256, 0, 0, 0⟩), (.crcBuf 0, ⟨0, 4096, 0, 0⟩)]

/-- CrcCommandsStream: the pieces are in range, and one byte more is not. -/
theorem witness_crcStream :
    (∀ c ∈ crcPieces, crcPieceOk State.reset c) ∧ ¬crcPieceOk State.reset (.crcBuf 1, ⟨250, 7, 0, 0⟩) := by
  constructor
  · intro c hc
    simp only [crcPieces, List.mem_cons, List.not_mem_nil, or_false] at hc
    rcases hc with rfl | rfl | rfl | rfl
    · trivial
    · show (250 : Nat) + 6 ≤ 256; decide
    · show (256 : Nat) + 0 ≤ 256; decide
    · show (0 : Nat) + 4096 ≤ 4096; decide
  · show ¬(250 : Nat) + 7 ≤ 256; decide

/-- "Wolf" in a mixed split: "W" as a byte and "olf" from SEED_RAM (95 section 2.2). -/
theorem test_crc_mixed_split :
    (runIssued [(.crcInit, ⟨0, 0, 0, 0⟩), (.crcByte 0x57, ⟨0, 0, 0, 0⟩), (.crcBuf 1, ⟨0, 3, 0, 0⟩)]
      { State.reset with mem := bytesAt 0x20000 [0x6F, 0x6C, 0x66] }).map (·.crcResult) = some 0x598C84DC := by
  decide +kernel

/-- PrngStepIsABijection: two equal states after a step. -/
theorem witness_prngStep : (prngNext wolf).2 = (prngNext wolf).2 := rfl

/-- NextIntHasTheIntegerForm and ShufflePermutesByRemoval. -/
theorem witness_nextInt :
    (7 ≤ 7 ∧ 7 < 2 ^ 32 ∧ ¬drawable (rawAt edgeLanes 0)) ∧ (0 ≤ 2 ^ 32 - 1 ∧ 2 ^ 32 - 1 < 2 ^ 32 ∧ drawable (rawAt belowLanes 0)) ∧
    (1 ≤ 1 ∧ 1 < 2 ^ 32 ∧ (∃ j, j < 1 ∧ ¬drawable (rawAt edgeLanes j))) ∧
    (∀ j, j < 4 → drawable (rawAt wolf j)) := by
  refine ⟨by decide +kernel, by decide +kernel, ⟨by decide, by decide, 0, by decide +kernel⟩, by decide +kernel⟩

/-- AliasTablesAreInRange: the smallest table and one of eight entries, whose last index is light at the start. -/
theorem witness_aliasTable :
    ([f64One].length = 1 ∧ 1 ≤ 1 ∧ 1 ≤ 8192 ∧ ¬badWeights [f64One] 1) ∧
    ((harmonicList 8).length = 8 ∧ 1 ≤ 8 ∧ 8 ≤ 8192 ∧ ¬badWeights (harmonicList 8) 8 ∧
      f64lt (f64div (f64mul ((harmonicList 8).getD 7 0) (toF64 8)) ((harmonicList 8).foldl f64add 0)) 0x3FF0000000000000 =
        true) :=
  ⟨⟨rfl, by decide, by decide, not_badWeights_of_check (by decide +kernel)⟩,
   ⟨rfl, by decide, by decide, not_badWeights_of_check (by decide +kernel), by decide +kernel⟩⟩

/-- NextDoubleIsTheRoundedQuotient: finite patterns at both ends, one that is not zero, a NaN, and an integer below the bound.
-/
theorem witness_binary64 :
    ¬notFinite 0 ∧ ¬notFinite 0xFFEFFFFFFFFFFFFF ∧ f64Real 0x3FF0000000000000 ≠ 0 ∧ 0 ≤ f64Real 0 ∧
    (notFinite 0x7FF8000000000000 ∧ (0x7FF8000000000000 : F64).extractLsb' 0 52 ≠ 0) := by decide +kernel

/-- Roundings worked out by hand from 00_scope.md R11: two ties, an overflow, an exact zero, and comparisons. -/
theorem test_f64add :
    f64add f64One 0x3CA0000000000000 = f64One ∧ f64add 0x3FF0000000000001 0x3CA0000000000000 = 0x3FF0000000000002 ∧
    f64add 0x7FEFFFFFFFFFFFFF 0x7FEFFFFFFFFFFFFF = 0x7FF0000000000000 ∧ f64sub f64One f64One = 0 ∧
    f64lt 0x8000000000000000 0 = false ∧ f64lt 0xBFF0000000000000 0x8000000000000001 = true := by decide +kernel

/-- HarmonicWeightsAlwaysPass, at the smallest size. -/
theorem witness_harmonic : 1 ≤ 1 ∧ 1 ≤ 8192 ∧ ¬badWeights (harmonicList 1) 1 :=
  ⟨by decide, by decide, not_badWeights_of_check (by decide +kernel)⟩

/-- The degree of part 12 of the 37-byte message is 4, of part 5 it is 2 (95 section 2.5). -/
theorem test_degreeOf :
    degreeOf (privateLanes Params.reference 12 0x8222EFE9) 4 = 4 ∧
    degreeOf (privateLanes Params.reference 5 0x8222EFE9) 4 = 2 := by decide +kernel

/-- FragmentCountIsMinimal: the source's example; `g` just below the count. -/
theorem witness_fragmentCount : 1 ≤ 37 ∧ 1 ≤ 10 ∧ fragCount 37 10 = 4 ∧ fragLen 37 10 = 10 ∧ 10 < ceilDiv 37 3 := by decide

/-- FragmentsAreThePaddedMessage. -/
theorem witness_fragments : (message37 0).Inv ∧ (message37 0).ftnValid = true := ⟨message37_inv 0, rfl⟩

/-- MixIsOrderFree: two orders of one selection. -/
theorem witness_mix : [2, 3].Perm [3, 2] := by decide

/-- SelectionsAreValid: the last pure number and the first mixed one. -/
theorem witness_selections :
    (1 ≤ (4 : Word).toNat ∧ (4 : Word).toNat ≤ (4 : Word).toNat) ∧
    ((4 : Word).toNat < (5 : Word).toNat ∧ drawsInRange Params.reference 5 4 0x8222EFE9) := by decide +kernel

/-- NextPartIsChooseThenMix, at the first mixed part. -/
theorem witness_nextPart :
    (message37 4).Inv ∧ (after (exec .ftnNext (message37 4))).map (·.errCode) = some .ok :=
  ⟨message37_inv 4, by decide +kernel⟩

/-- PartsDependOnTheConfigurationAlone: two blocks that differ in the host stream and in SEED_RAM. -/
theorem witness_parts :
    let s' : State := { message37 4 with lanes := wolf, mem := (message37 4).mem ++ [(0x20000, 7)] }
    (message37 4).Inv ∧ s'.mem.wf = true ∧
    ((List.range 37).map fun i => s'.mem.read (0x10000 + i)) =
      ((List.range 37).map fun i => (message37 4).mem.read (0x10000 + i)) ∧
    ((after (exec .ftnNext s')).map (·.errCode) = some .ok) :=
  ⟨message37_inv 4, by decide +kernel, by decide +kernel, by decide +kernel⟩

/-- DecodeOfEncode and EncodeOfDecode, at the largest field. -/
theorem witness_encode : (Instr.crcByte 0xFF).wellFormed = true ∧ decode 0x00FF0002 = .ok (.crcByte 0xFF) :=
  ⟨by decide, rfl⟩

/-- DecodeClassifiesEveryWord: each clause. -/
theorem witness_classes :
    opcField 0x00000004 ∉ legalOpcodes ∧ opcField 0x00000035 ∈ legalOpcodes ∧
    (opcField 0x00001000 ∈ legalOpcodes ∧ (0x00001000 : Word).extractLsb' 12 4 ≠ 0) ∧
    (opcField 0x00000203 ∈ legalOpcodes ∧ (0x00000203 : Word).extractLsb' 9 3 ≠ 0) ∧
    (opcField 0x01000002 ∈ legalOpcodes ∧ (0x01000002 : Word).extractLsb' 24 8 ≠ 0) := by decide

/-- A host whose next access is not a CTRL write with SRST starts no soft reset. -/
theorem not_resetNow {s : State} (h : ∀ v : Word, v.getLsbD 1 = true → s.host.head? ≠ some (some (.write .word 0x00008 v))) :
    ¬resetNow s := fun ⟨v, _, hh, hv⟩ => h v hv (by rw [hh]; rfl)

/-- StepRunsThePendingCommand: a command, both kinds of no command, no access, a cycle without one, and a CTRL write without
SRST; and a fetch word. -/
theorem witness_step :
    (∀ h ∈ [[], [none], [some (Access.write .word 0x00008 1)]],
      (busyWith 0x12 1 h).pending = some ⟨0x12, ⟨0, 0, 0, 0⟩, 1⟩ ∧ ¬resetNow (busyWith 0x12 1 h)) ∧
    decode 0x12 = .ok .prngNext ∧ decode 4 = .error .illegalOpcode ∧ decode 0x1000 = .error .reservedField ∧
    decode (BitVec.ofNat 32 0x12) = .ok .prngNext := by
  refine ⟨fun h hh => ?_, rfl, rfl, rfl, rfl⟩
  simp only [List.mem_cons, List.not_mem_nil, or_false] at hh
  rcases hh with rfl | rfl | rfl
  · exact ⟨rfl, not_resetNow fun v _ => by simp [busyWith]⟩
  · exact ⟨rfl, not_resetNow fun v _ => by simp [busyWith]⟩
  · refine ⟨rfl, not_resetNow fun v hv hc => ?_⟩
    simp only [busyWith, List.head?_cons, Option.some.injEq, Access.write.injEq, true_and] at hc
    rw [← hc] at hv
    exact absurd hv (by decide)

/-- StepWaitsOutTheLatency: idle with an access, two cycles left with one, and a soft reset. -/
theorem witness_wait :
    ({ State.reset with host := [some (.write .word 0x00010 0x12)] } : State).pending = none ∧
    ((busyWith 0 2 [some (.read .word 0x0000C)]).pending = some ⟨0, ⟨0, 0, 0, 0⟩, 2⟩ ∧
      ¬resetNow (busyWith 0 2 [some (.read .word 0x0000C)])) ∧
    resetNow (busyWith 0 2 [some (.write .word 0x00008 2)]) :=
  ⟨rfl, ⟨rfl, not_resetNow fun v _ => by simp [busyWith]⟩, 2, [], rfl, by decide⟩

/-- A command written through the host's list is accepted by one step and runs in the next: CRC_BYTE 0xFF (95 section 2.2). -/
theorem test_step_accepts_and_runs :
    ((after (step { State.reset with host := [some (.write .word 0x00010 0x00FF0002)] })).bind
      (fun t => after (step t))).map (fun t => (t.crcState, t.busy)) = some (0x00FFFFFF, false) := by decide +kernel

/-- CompletionRaisesTheInterrupt: no access to come, a cycle without one, and a write that is not to CTRL. -/
theorem witness_interrupt :
    ∀ h ∈ [[], [none], [some (Access.write .word 0x0000C 2)]], (busyWith 4 1 h).pending = some ⟨4, ⟨0, 0, 0, 0⟩, 1⟩ ∧
      ∀ (size : Size) (v : Word), (busyWith 4 1 h).host.head? ≠ some (some (.write size 0x00008 v)) := by
  intro h hh
  simp only [List.mem_cons, List.not_mem_nil, or_false] at hh
  rcases hh with rfl | rfl | rfl <;> exact ⟨rfl, fun size v => by simp [busyWith]⟩

/-- SetWinsOverClear and CompletionRaisesTheInterrupt. -/
theorem witness_completion :
    (busyWith 4 1 [some (.write .word 0x0000C 6)]).host = some (.write .word 0x0000C 6) :: [] ∧
    (busyWith 4 1 []).pending = some ⟨4, ⟨0, 0, 0, 0⟩, 1⟩ ∧ (6 : Word).getLsbD 1 = true := by decide

/-- EveryPendingCommandCompletes: three cycles, with a host that also writes CTRL. -/
theorem witness_completes :
    let s := busyWith 0x12 3 [some (.write .word 0x00008 1)]
    s.pending = some ⟨0x12, ⟨0, 0, 0, 0⟩, 3⟩ ∧
      ∀ (size : Size) (v : Word), some (Access.write size 0x00008 v) ∈ s.host → v.getLsbD 1 = false := by
  refine ⟨rfl, fun size v h => ?_⟩
  simp only [busyWith, List.mem_singleton, Option.some.injEq, Access.write.injEq] at h
  rw [h.2.2]
  decide

/-- StepKeepsCanonicalMemory and StepKeepsTheInvariant. -/
theorem witness_invariant : (message37 0).Inv ∧ step (message37 0) = .next (message37 0) := ⟨message37_inv 0, rfl⟩

/-- PowerOnMeetsTheInvariant: an image that lists a byte. -/
theorem witness_powerOn : Params.reference.wellFormed = true ∧ Memory.wf [(0x10000, 7)] = true := by decide

/-- BusErrorsChangeNothing: the last legal accesses of windows. -/
theorem witness_bus_legal :
    legalAccess Params.reference .word 0x00098 ∧ legalAccess Params.reference .byte 0x10FFF ∧
    legalAccess Params.reference .half 0x200FE ∧ legalAccess Params.reference .word 0x61FFC :=
  ⟨by decide +kernel, by decide +kernel, by decide +kernel, by decide +kernel⟩

/-- BusErrorsChangeNothing: the first illegal accesses, by address, by width and by alignment. -/
theorem witness_bus_illegal :
    ¬legalAccess Params.reference .word 0x0009C ∧ ¬legalAccess Params.reference .half 0x00000 ∧
    ¬legalAccess Params.reference .byte 0x11000 ∧ ¬legalAccess Params.reference .half 0x20001 ∧
    ¬legalAccess Params.reference .word 0x20100 ∧ ¬legalAccess Params.reference .word 0x62000 :=
  ⟨by decide +kernel, by decide +kernel, by decide +kernel, by decide +kernel, by decide +kernel, by decide +kernel⟩

/-- CmdWriteIsAcceptedOrRejected: both clauses. -/
theorem witness_cmd : State.reset.busy = false ∧ (busyWith 0 1 []).busy = true := by decide

/-- The target of a legal access. -/
def target (size : Size) (addr : BusAddr) : Option Target :=
  match busTarget Params.reference size addr with
  | .ok t => some t
  | .error _ => none

/-- LaneHalvesAreWrittenAlone: a CTRL write that sets IE and starts no soft reset. -/
theorem witness_ctrl : (1 : Word).getLsbD 1 = false ∧ (1 : Word).getLsbD 0 = true := by decide

/-- ReadsChangeOnlyTheResponse: the first and the last register of the map, the last one that busy reads keep, and the ends of
RAM windows that they keep and do not keep. -/
theorem witness_reads :
    ((0x000, 0x55524643) ∈ registerValues State.reset ∧ (0x098, 0) ∈ registerValues State.reset) ∧
    ((0x020, 0) ∈ registerValues (busyWith 0 1 []) ∧ (busyWith 0 1 []).busy = true) ∧
    (0x10000 ≤ (0x51FFC : BusAddr).toNat ∧ (0x51FFC : BusAddr).toNat / 0x10000 ∈ [1, 2, 5]) ∧
    (0x10000 ≤ (0x7FFFC : BusAddr).toNat ∧ (0x7FFFC : BusAddr).toNat / 0x10000 ∉ [1, 2, 5]) ∧
    legalAccess Params.reference .word 0x51FFC :=
  ⟨by decide +kernel, by decide +kernel, by decide +kernel, by decide +kernel, by decide +kernel⟩

/-- WritesWhileBusyAreDropped: the first and the last register and RAM of each kind. -/
theorem witness_busyWrites :
    target .word 0x00014 = some (.reg .arg0) ∧ target .word 0x0005C = some (.reg .prngS3Hi) ∧
    target .byte 0x10000 = some (.ram .msgRam 0) ∧ target .word 0x51FFC = some (.ram .wgtRam 0x1FFC) ∧
    target .word 0x00000 = some (.reg .id) ∧ target .word 0x00098 = some (.reg .selSeq) ∧
    target .half 0x30000 = some (.ram .outRam 0) ∧ target .word 0x70FFC = some (.ram .aliasRam 0xFFC) ∧
    Reg.prngS3Hi ∈ droppedWhileBusy ∧ Reg.selSeq ∈ readOnlyRegs := by decide +kernel

/-- LockedAndReadOnlyRamsKeepTheirBytes and RamWritesReadBack: the last byte of MSG_RAM, locked and not; SEED_RAM; and a
read-only RAM. -/
theorem witness_ramWrites :
    (message37 0).ftnValid = true ∧ State.reset.ftnValid = false ∧ State.reset.busy = false ∧
    target .byte 0x10FFF = some (.ram .msgRam 0xFFF) ∧ target .word 0x200FC = some (.ram .seedRam 0xFC) ∧
    target .word 0x303FC = some (.ram .outRam 0x3FC) := by decide +kernel

/-- SoftResetKeepsTheRams: idle, and with each kind of command pending. -/
theorem witness_softReset :
    (2 : Word).getLsbD 1 = true ∧ State.reset.pending = none ∧
    ([0x33, 0x31, 0x32, 0x16, 0x20, 0x120, 0x21].map fun w => (busyWith w 1 []).pending.map (·.word)) =
      [some 0x33, some 0x31, some 0x32, some 0x16, some 0x20, some 0x120, some 0x21] := by decide

end Sys2Proof.Machine.Tests
end

section
/-! SUPPORT and proofs of O22, O23. What every command keeps, and where it stores. -/

namespace Sys2Proof.Machine

/-! ### The part of the state that no command writes -/

/-- The fields of the host and of the model's bookkeeping (10_state.md R36, R62; log 1, log 6, log 7, log 10). -/
def State.hostFields (s : State) :
    Params × Bool × Bool × Bool × Word × Args × Option Response × List (Option Access) × Nat :=
  (s.params, s.ie, s.cmdRej, s.wDrop, s.cmdLast, s.args, s.resp, s.host, s.draws)

/-- Equal host fields, field by field. -/
theorem State.hostFields_eq_iff {s t : State} :
    t.hostFields = s.hostFields ↔
      t.params = s.params ∧ t.ie = s.ie ∧ t.cmdRej = s.cmdRej ∧ t.wDrop = s.wDrop ∧ t.cmdLast = s.cmdLast ∧
        t.args = s.args ∧ t.resp = s.resp ∧ t.host = s.host ∧ t.draws = s.draws := by
  simp only [State.hostFields, Prod.mk.injEq]

@[simp] theorem State.complete_hostFields (s : State) (c : ErrorCode) : (s.complete c).hostFields = s.hostFields := rfl

/-- The fields of the host stream, the sampler and the CRC unit (10_state.md R38, R40, R42, R44). -/
def State.streamFields (s : State) : Lanes × DWord × Word × Bool × Word :=
  (s.lanes, s.prngOut, s.smpN, s.smpValid, s.crcState)

/-- Equal stream fields, field by field. -/
theorem State.streamFields_eq_iff {s t : State} :
    t.streamFields = s.streamFields ↔
      t.lanes = s.lanes ∧ t.prngOut = s.prngOut ∧ t.smpN = s.smpN ∧ t.smpValid = s.smpValid ∧
        t.crcState = s.crcState := by
  simp only [State.streamFields, Prod.mk.injEq]

@[simp] theorem State.complete_streamFields (s : State) (c : ErrorCode) :
    (s.complete c).streamFields = s.streamFields := rfl

/-- The writes of a command spare the host's fields, and ERR is left to the completion (40_control.md R111). -/
theorem effect_ok_hostFields {i : Instr} {s t : State} (h : effect i s = .ok t) :
    t.hostFields = s.hostFields ∧ t.err = s.err := by
  cases i with
  | nop | crcInit | crcByte | prngSeedPair | prngNext | prngDouble | ftnClear => cases h; exact ⟨rfl, rfl⟩
  | crcBuf m => obtain ⟨-, rfl⟩ := crcBuf_ok h; exact ⟨rfl, rfl⟩
  | prngSeed => obtain ⟨-, rfl⟩ := prngSeed_ok h; exact ⟨rfl, rfl⟩
  | prngInt => obtain ⟨-, h⟩ := prngInt_ok h; obtain ⟨d, -, rfl⟩ := drawHostInt_ok h; exact ⟨rfl, rfl⟩
  | prngByte => obtain ⟨d, -, rfl⟩ := drawHostInt_ok h; exact ⟨rfl, rfl⟩
  | prngShuffle => obtain ⟨-, -, r, -, rfl⟩ := prngShuffle_ok h; simp [State.hostFields]
  | smpBuild m => obtain ⟨-, -, rfl⟩ := smpBuild_ok h; simp [State.hostFields]
  | smpSample => obtain ⟨-, d, -, rfl⟩ := smpSample_ok h; exact ⟨rfl, rfl⟩
  | ftnConfig => obtain ⟨-, rfl⟩ := ftnConfig_ok h; exact ⟨rfl, rfl⟩
  | ftnNext => obtain ⟨-, -, sel, -, rfl⟩ := ftnNext_ok h; simp [State.hostFields]
  | ftnChoose => obtain ⟨-, -, sel, -, rfl⟩ := ftnChoose_ok h; simp [State.hostFields]
  | ftnMix => obtain ⟨-, -, rfl⟩ := ftnMix_ok h; simp [State.hostFields]
  | ftnSeek => obtain ⟨-, rfl⟩ := ftnSeek_ok h; exact ⟨rfl, rfl⟩

/-- The commands of the fountain unit (44_fountain.md). -/
def fountainCommands : List Instr := [.ftnConfig, .ftnNext, .ftnChoose, .ftnMix, .ftnSeek, .ftnClear]

/-- The writes of a fountain command spare the other units (10_state.md R60). -/
theorem effect_ok_streamFields {i : Instr} {s t : State} (hi : i ∈ fountainCommands) (h : effect i s = .ok t) :
    t.streamFields = s.streamFields := by
  cases i with
  | ftnConfig => obtain ⟨-, rfl⟩ := ftnConfig_ok h; rfl
  | ftnNext => obtain ⟨-, -, sel, -, rfl⟩ := ftnNext_ok h; simp [State.streamFields]
  | ftnChoose => obtain ⟨-, -, sel, -, rfl⟩ := ftnChoose_ok h; simp [State.streamFields]
  | ftnMix => obtain ⟨-, -, rfl⟩ := ftnMix_ok h; simp [State.streamFields]
  | ftnSeek => obtain ⟨-, rfl⟩ := ftnSeek_ok h; rfl
  | ftnClear => cases h; rfl
  | _ => simp [fountainCommands] at hi

/-! ### Where a command stores -/

/-- Memory with a byte string stored from the first byte of each of some RAMs, in turn. -/
def Memory.storeAtBases (m : Memory) (stores : List (Ram × List Byte)) : Memory :=
  stores.foldl (fun m st => m.writeBytes st.1.base st.2) m

/-- Stores leave every byte outside their strings alone. -/
theorem Memory.read_storeAtBases_outside (m : Memory) {stores : List (Ram × List Byte)} {a : Nat}
    (h : ∀ st ∈ stores, a < st.1.base ∨ st.1.base + st.2.length ≤ a) :
    (m.storeAtBases stores).read a = m.read a := by
  induction stores generalizing m with
  | nil => rfl
  | cons st stores ih =>
    have tail := ih (m.writeBytes st.1.base st.2) fun x hx => h x (List.mem_cons_of_mem _ hx)
    exact tail.trans (Memory.read_writeBytes_outside _ _ (h st List.mem_cons_self))

/-- `m` is the memory of `s` after one byte string is stored at the first byte of each of these RAMs; from a state that meets
the invariant each string fits its RAM. -/
def State.StoresTo (s : State) (rams : List Ram) (m : Memory) : Prop :=
  ∃ stores : List (Ram × List Byte), stores.map Prod.fst = rams ∧ m = s.mem.storeAtBases stores ∧
    (s.Inv → ∀ st ∈ stores, st.2.length ≤ st.1.size s.params)

theorem State.StoresTo.nothing (s : State) : s.StoresTo [] s.mem := ⟨[], rfl, rfl, by simp⟩

theorem State.StoresTo.one {s : State} {r : Ram} {bs : List Byte} (h : s.Inv → bs.length ≤ r.size s.params) :
    s.StoresTo [r] (s.mem.writeBytes r.base bs) :=
  ⟨[(r, bs)], rfl, rfl, by simpa using h⟩

theorem State.StoresTo.two {s : State} {r r' : Ram} {bs bs' : List Byte}
    (h : s.Inv → bs.length ≤ r.size s.params ∧ bs'.length ≤ r'.size s.params) :
    s.StoresTo [r, r'] ((s.mem.writeBytes r.base bs).writeBytes r'.base bs') :=
  ⟨[(r, bs), (r', bs')], rfl, rfl, by simpa using h⟩

/-- A byte below every RAM stored to reads as before. -/
theorem State.StoresTo.read_below {s : State} {rams : List Ram} {m : Memory} (h : s.StoresTo rams m) {a : Nat}
    (ha : ∀ r ∈ rams, a < r.base) : m.read a = s.mem.read a := by
  obtain ⟨stores, rfl, rfl, -⟩ := h
  exact Memory.read_storeAtBases_outside _ fun st hst => .inl (ha _ (List.mem_map_of_mem hst))

/-- From a state that meets the invariant, a byte outside the RAMs stored to reads as before. -/
theorem State.StoresTo.read_outside {s : State} {rams : List Ram} {m : Memory} (h : s.StoresTo rams m) (inv : s.Inv)
    {a : Nat} (ha : ∀ r ∈ rams, a < r.base ∨ r.base + r.size s.params ≤ a) : m.read a = s.mem.read a := by
  obtain ⟨stores, rfl, rfl, hfit⟩ := h
  refine Memory.read_storeAtBases_outside _ fun st hst => ?_
  have hout := ha _ (List.mem_map_of_mem hst)
  have hlen := hfit inv st hst
  omega

theorem bytes32_selEntries_length (sel : List Nat) : (bytes32 (selEntries sel)).length = 4 * sel.length := by
  rw [bytes32_length, selEntries, List.length_map]

/-- The table that buildAlias answers for `n` weights has `n` entries. -/
theorem buildAlias_length {w : List F64} {n : Nat} (h : w.length = n) :
    (buildAlias w n).prob.length = n ∧ (buildAlias w n).other.length = n := by
  have inv := (aliasStart_inv h).turns n
  rw [← aliasLoop_eq_turns] at inv
  exact ⟨by simp only [buildAlias, fillOnes_length, inv.prob], inv.other⟩

theorem State.weights_length (s : State) (m : BitVec 1) (n : Nat) : (s.weights m n).length = n := by
  unfold State.weights harmonicWeights
  split <;> simp only [List.length_map, List.length_range]

/-- While configured, a selection fits SEL_RAM and a fragment OUT_RAM (44_fountain.md R202). -/
theorem State.Inv.fountain_fits {s : State} (inv : s.Inv) (hv : s.ftnValid = true) :
    max 1 s.ftnFragCount.toNat ≤ s.params.maxFrags ∧ s.ftnFragLen.toNat ≤ s.params.outRamSize := by
  obtain ⟨-, ⟨hf1, hf⟩, ⟨-, hl⟩, -⟩ := inv.fountain hv
  omega

/-- Everything a command can store: one byte string from the first byte of each RAM that it writes, the RAMs being those of
70_reset_and_hazards.md R272. -/
theorem effect_ok_storesTo {i : Instr} {s t : State} (h : effect i s = .ok t) : s.StoresTo (writtenRams i) t.mem := by
  cases i with
  | nop | crcInit | crcByte | prngSeedPair | prngNext | prngDouble | ftnClear => cases h; exact .nothing s
  | crcBuf m => obtain ⟨-, rfl⟩ := crcBuf_ok h; exact .nothing s
  | prngSeed => obtain ⟨-, rfl⟩ := prngSeed_ok h; exact .nothing s
  | prngInt => obtain ⟨-, h⟩ := prngInt_ok h; obtain ⟨d, -, rfl⟩ := drawHostInt_ok h; exact .nothing s
  | prngByte => obtain ⟨d, -, rfl⟩ := drawHostInt_ok h; exact .nothing s
  | smpSample => obtain ⟨-, d, -, rfl⟩ := smpSample_ok h; exact .nothing s
  | ftnConfig => obtain ⟨-, rfl⟩ := ftnConfig_ok h; exact .nothing s
  | ftnSeek => obtain ⟨-, rfl⟩ := ftnSeek_ok h; exact .nothing s
  | prngShuffle =>
    obtain ⟨⟨-, hn⟩, hk, r, -, rfl⟩ := prngShuffle_ok h
    refine .one (r := .selRam) fun _ => ?_
    rw [bytes32_selEntries_length, List.length_take, Ram.size]
    omega
  | smpBuild m =>
    obtain ⟨⟨-, hn⟩, -, rfl⟩ := smpBuild_ok h
    obtain ⟨hp, ho⟩ := buildAlias_length (s.weights_length m s.operands.a0.toNat)
    refine .two (r := .probRam) (r' := .aliasRam) fun _ => ?_
    rw [bytes64_length, bytes32_length, List.length_map, hp, ho, Ram.size, Ram.size]
    omega
  | ftnNext =>
    obtain ⟨hv, -, sel, hsel, rfl⟩ := ftnNext_ok h
    refine .two (r := .selRam) (r' := .outRam) fun inv => ?_
    have hlen := chooseFragments_length hsel
    obtain ⟨hf, hl⟩ := inv.fountain_fits hv
    rw [bytes32_selEntries_length, State.mix_length, Ram.size, Ram.size]
    omega
  | ftnChoose =>
    obtain ⟨hv, -, sel, hsel, rfl⟩ := ftnChoose_ok h
    refine .one (r := .selRam) fun inv => ?_
    have hlen := chooseFragments_length hsel
    obtain ⟨hf, -⟩ := inv.fountain_fits hv
    rw [bytes32_selEntries_length, Ram.size]
    omega
  | ftnMix =>
    obtain ⟨hv, -, rfl⟩ := ftnMix_ok h
    refine .one (r := .outRam) fun inv => ?_
    rw [State.mix_length]
    exact (inv.fountain_fits hv).2

/-! ### Commands run to their completion -/

/-- Everything a command can do: its effect, completed with OK, or nothing but a completion with an error. -/
theorem exec_next {i : Instr} {s t : State} (h : exec i s = .next t) :
    (∃ u, effect i s = .ok u ∧ t = u.complete .ok) ∨ ∃ e, effect i s = .error e ∧ t = s.complete e :=
  State.commit_next (exec_eq_commit i s ▸ h)

/-- No command writes the host's fields. -/
theorem exec_hostFields {i : Instr} {s t : State} (h : exec i s = .next t) : t.hostFields = s.hostFields := by
  rcases exec_next h with ⟨u, hu, rfl⟩ | ⟨e, -, rfl⟩
  · exact (State.complete_hostFields u .ok).trans (effect_ok_hostFields hu).1
  · rfl

/-- A fountain command leaves the other units' fields. -/
theorem exec_streamFields {i : Instr} {s t : State} (hi : i ∈ fountainCommands) (h : exec i s = .next t) :
    t.streamFields = s.streamFields := by
  rcases exec_next h with ⟨u, hu, rfl⟩ | ⟨e, -, rfl⟩
  · exact (State.complete_streamFields u .ok).trans (effect_ok_streamFields hi hu)
  · rfl

/-- A command that completes has stored to its RAMs, or to none when it ended with an error. -/
theorem exec_storesTo {i : Instr} {s t : State} (h : exec i s = .next t) :
    s.StoresTo (writtenRams i) t.mem ∨ t.mem = s.mem := by
  rcases exec_next h with ⟨u, hu, rfl⟩ | ⟨e, -, rfl⟩
  · rw [State.complete_mem]
    exact .inl (effect_ok_storesTo hu)
  · exact .inr rfl

/-- From any state, a byte below every RAM that the command writes reads as before. -/
theorem exec_read_below {i : Instr} {s t : State} (h : exec i s = .next t) {a : Nat}
    (ha : ∀ r ∈ writtenRams i, a < r.base) : t.mem.read a = s.mem.read a := by
  rcases exec_storesTo h with hs | hm
  · exact hs.read_below ha
  · rw [hm]

/-- From a state that meets the invariant, a byte outside the RAMs that the command writes reads as before. -/
theorem exec_read_outside {i : Instr} {s t : State} (inv : s.Inv) (h : exec i s = .next t) {a : Nat}
    (ha : ∀ r ∈ writtenRams i, a < r.base ∨ r.base + r.size s.params ≤ a) : t.mem.read a = s.mem.read a := by
  rcases exec_storesTo h with hs | hm
  · exact hs.read_outside inv ha
  · rw [hm]

/-- A RAM of legal size lies in its 64 KiB window (20_memory.md R71). -/
theorem Ram.size_le_window {p : Params} (h : p.wellFormed = true) (r : Ram) : r.size p ≤ 0x10000 := by
  simp only [Params.wellFormed, Params.msgRamSizeLegal, Params.seedRamSizeLegal, Params.outRamSizeLegal,
    Params.maxFragsLegal, Bool.and_eq_true, decide_eq_true_eq] at h
  cases r <;> simp only [Ram.size] <;> omega

/-- The RAMs that commands write are OUT_RAM, SEL_RAM, PROB_RAM and ALIAS_RAM: not MSG_RAM and SEED_RAM, which lie below
them, nor WGT_RAM, which lies between (10_state.md R52, R53, R56). -/
theorem base_of_mem_writtenRams {i : Instr} {r : Ram} (h : r ∈ writtenRams i) :
    r.base = 0x30000 ∨ r.base = 0x40000 ∨ r.base = 0x60000 ∨ r.base = 0x70000 := by
  cases i <;> simp only [writtenRams, List.mem_cons, List.not_mem_nil, or_false] at h
  case ftnNext | smpBuild => rcases h with rfl | rfl <;> decide
  case ftnMix | ftnChoose | prngShuffle => subst h; decide

/-- A fountain command writes no RAM but OUT_RAM and SEL_RAM. -/
theorem base_of_mem_writtenRams_fountain :
    ∀ i ∈ fountainCommands, ∀ r ∈ writtenRams i, r.base = 0x30000 ∨ r.base = 0x40000 := by decide

/-- Settles O22: the frame of exec, and the windows of the RAMs that a command writes. -/
theorem noCommandWritesWhatTheHostOwns : Obligations.NoCommandWritesWhatTheHostOwns := by
  intro i s t h
  refine ⟨State.hostFields_eq_iff.1 (exec_hostFields h), fun a ha => ?_, fun inv a hlo hhi => ?_⟩
  · refine exec_read_below h fun r hr => ?_
    have := base_of_mem_writtenRams hr
    omega
  · refine exec_read_outside inv h fun r hr => ?_
    have := base_of_mem_writtenRams hr
    have := r.size_le_window inv.params
    omega

/-- Settles O23: the frame of exec for the fountain unit, whose RAMs end below PROB_RAM. -/
theorem fountainLeavesTheOtherUnits : Obligations.FountainLeavesTheOtherUnits := by
  intro i s t hi h
  refine ⟨State.streamFields_eq_iff.1 (exec_streamFields hi h), fun inv a ha => ?_⟩
  refine exec_read_outside inv h fun r hr => ?_
  have := base_of_mem_writtenRams_fountain i hi r hr
  have := r.size_le_window inv.params
  omega

end Sys2Proof.Machine
end

section
/-! SUPPORT and proofs of O52, O56, O58. What one host access addresses and what a register write does. -/

namespace Sys2Proof.Machine

/-! ### The target of an access -/

/-- A word access at an offset of the register map is an access to its register (10_state.md R21, 20_memory.md R72). -/
theorem busTarget_of_mem_registerMap (p : Params) {x : Nat × Reg} (h : x ∈ registerMap) :
    busTarget p .word (BitVec.ofNat 19 x.1) = .ok (.reg x.2) := by
  have maps : ∀ x ∈ registerMap, windowRam ((BitVec.ofNat 19 x.1).toNat / 0x10000) = none ∧
      regAt ((BitVec.ofNat 19 x.1).toNat % 0x10000) = some x.2 := by decide
  obtain ⟨hw, hr⟩ := maps x h
  simp only [busTarget, hw, hr, if_true]

/-- The RAM of a window, its first address and its size (20_memory.md R71). -/
theorem windowRam_eq_some {n : Nat} {r : Ram} (h : windowRam n = some r) :
    r.base = n * 0x10000 ∧ ∀ p, r.size p = windowSize p n := by
  unfold windowRam at h
  split at h <;> cases h <;> exact ⟨rfl, fun _ => rfl⟩

/-- Every address past the register window lies in the window of a RAM. -/
theorem exists_windowRam {addr : BusAddr} (h : 0x10000 ≤ addr.toNat) : ∃ r, windowRam (addr.toNat / 0x10000) = some r := by
  have hlt := addr.isLt
  have hlo : 1 ≤ addr.toNat / 0x10000 := by omega
  have hhi : addr.toNat / 0x10000 < 8 := by omega
  interval_cases addr.toNat / 0x10000 <;> exact ⟨_, rfl⟩

/-- A legal access past the register window addresses the RAM of its window (20_memory.md R71, R73). -/
theorem busTarget_of_legal_ram {p : Params} {size : Size} {addr : BusAddr} (hlo : 0x10000 ≤ addr.toNat)
    (h : legalAccess p size addr) :
    ∃ r, windowRam (addr.toNat / 0x10000) = some r ∧ busTarget p size addr = .ok (.ram r (addr.toNat % 0x10000)) := by
  obtain ⟨r, hr⟩ := exists_windowRam hlo
  rcases h with ⟨hreg, -⟩ | ⟨-, haligned, hfits⟩
  · omega
  · rw [← (windowRam_eq_some hr).2 p] at hfits
    exact ⟨r, hr, by simp only [busTarget, hr, haligned, hfits, and_self, if_true]⟩

/-! ### A served access -/

theorem State.hostAccess_read {s : State} {size : Size} {addr : BusAddr} {t : Target}
    (h : busTarget s.params size addr = .ok t) : s.hostAccess (.read size addr) = s.serveRead size t := by
  simp only [State.hostAccess, State.access, h]

theorem State.hostAccess_write {s : State} {size : Size} {addr : BusAddr} {t : Target} (v : Word)
    (h : busTarget s.params size addr = .ok t) : s.hostAccess (.write size addr v) = s.serveWrite size t v := by
  simp only [State.hostAccess, State.access, h]

/-- An access that is a bus error changes only the response (20_memory.md R74). -/
theorem State.hostAccess_error {s : State} {size : Size} {addr : BusAddr} {e : Fault}
    (h : busTarget s.params size addr = .error e) :
    s.hostAccess (.read size addr) = { s with resp := some (.errorRead 0) } ∧
      ∀ v, s.hostAccess (.write size addr v) = { s with resp := some .errorWrite } := by
  simp only [State.hostAccess, State.access, h, errorResponse, implies_true, and_self]

/-- A word write at an offset of the register map. -/
theorem State.hostAccess_write_reg (s : State) {x : Nat × Reg} (h : x ∈ registerMap) (v : Word) :
    s.hostAccess (.write .word (BitVec.ofNat 19 x.1) v) = { s.writeReg v x.2 with resp := some .ack } :=
  State.hostAccess_write v (busTarget_of_mem_registerMap s.params h)

/-- A read while idle, or of what no command writes, answers the target's value (70_reset_and_hazards.md R276). -/
theorem State.serveRead_stable {s : State} {size : Size} {t : Target} (h : s.busy = false ∨ t.stableWhileBusy = true) :
    s.serveRead size t = { s with resp := some (readData size (s.readTarget size t)) } := by
  rcases s.serveRead_cases size t with ⟨hbusy, hunstable, -⟩ | ⟨-, hs⟩
  · simp [hbusy, hunstable] at h
  · exact hs

/-! ### Writes to registers -/

/-- A STATUS write, busy or idle (10_state.md R25). -/
theorem State.hostAccess_write_status (s : State) (v : Word) :
    s.hostAccess (.write .word 0x0000C v) = { s.writeStatus v with resp := some .ack } :=
  s.hostAccess_write_reg (x := (0x00C, .status)) (by decide) v

/-- A CMD write (10_state.md R35). -/
theorem State.hostAccess_write_cmd (s : State) (w : Word) :
    s.hostAccess (.write .word 0x00010 w) = { s.writeCmd w with resp := some .ack } :=
  s.hostAccess_write_reg (x := (0x010, .cmd)) (by decide) w

/-- A CTRL write (10_state.md R24). -/
theorem State.hostAccess_write_ctrl (s : State) (v : Word) :
    s.hostAccess (.write .word 0x00008 v) = { s.writeCtrl v with resp := some .ack } :=
  s.hostAccess_write_reg (x := (0x008, .ctrl)) (by decide) v

theorem State.writeCtrl_of_not_srst {s : State} {v : Word} (h : v.getLsbD 1 = false) :
    s.writeCtrl v = { s with ie := v.getLsbD 0 } := by
  rw [State.writeCtrl, h, if_neg Bool.false_ne_true]

/-- A register write that a busy block would drop is done by an idle one (70_reset_and_hazards.md R275). -/
theorem State.hostAccess_write_idle {s t : State} {v : Word} (hb : s.busy = false) {x : Nat × Reg} (h : x ∈ registerMap)
    (hw : s.writeReg v x.2 = s.unlessBusy t) :
    s.hostAccess (.write .word (BitVec.ofNat 19 x.1) v) = { t with resp := some .ack } := by
  rw [s.hostAccess_write_reg h, hw, State.unlessBusy_idle t hb]

/-- Settles O52, by the two branches of a CMD write. -/
theorem cmdWriteIsAcceptedOrRejected : Obligations.CmdWriteIsAcceptedOrRejected := by
  intro s w
  rw [s.hostAccess_write_cmd]
  refine ⟨fun hidle => ⟨latencyOf s.params s.draws w, latencyOf_pos _ _ _, ?_⟩, fun hbusy => ?_⟩
  · rw [State.writeCmd_idle w hidle]; rfl
  · rw [State.writeCmd_busy w hbusy]

/-- Settles O56: each register's write, undropped because the block is idle. -/
theorem laneHalvesAreWrittenAlone : Obligations.LaneHalvesAreWrittenAlone := by
  refine ⟨fun s v hsrst => ?_, fun s v hb => ⟨?_, ?_, ?_, ?_, ?_, ?_, ?_, ?_, ?_, ?_, ?_, ?_⟩⟩
  · rw [s.hostAccess_write_ctrl, State.writeCtrl_of_not_srst hsrst]
  · exact State.hostAccess_write_idle hb (x := (0x014, .arg0)) (by decide) rfl
  · exact State.hostAccess_write_idle hb (x := (0x018, .arg1)) (by decide) rfl
  · exact State.hostAccess_write_idle hb (x := (0x01C, .arg2)) (by decide) rfl
  · exact State.hostAccess_write_idle hb (x := (0x020, .arg3)) (by decide) rfl
  · exact State.hostAccess_write_idle hb (x := (0x040, .prngS0Lo)) (by decide) rfl
  · exact State.hostAccess_write_idle hb (x := (0x044, .prngS0Hi)) (by decide) rfl
  · exact State.hostAccess_write_idle hb (x := (0x048, .prngS1Lo)) (by decide) rfl
  · exact State.hostAccess_write_idle hb (x := (0x04C, .prngS1Hi)) (by decide) rfl
  · exact State.hostAccess_write_idle hb (x := (0x050, .prngS2Lo)) (by decide) rfl
  · exact State.hostAccess_write_idle hb (x := (0x054, .prngS2Hi)) (by decide) rfl
  · exact State.hostAccess_write_idle hb (x := (0x058, .prngS3Lo)) (by decide) rfl
  · exact State.hostAccess_write_idle hb (x := (0x05C, .prngS3Hi)) (by decide) rfl

/-! ### The STATUS word -/

/-- A flag appended below a word is its bit 0. -/
theorem getLsbD_append_flagBit_zero {n : Nat} (x : BitVec n) (b : Bool) : (x ++ flagBit b).getLsbD 0 = b := by
  cases b <;> simp only [BitVec.getLsbD_append, flagBit] <;> rfl

/-- The bits above an appended flag. -/
theorem getLsbD_append_flagBit_succ {n : Nat} (x : BitVec n) (b : Bool) (i : Nat) :
    (x ++ flagBit b).getLsbD (i + 1) = x.getLsbD i := by
  simp only [BitVec.getLsbD_append, Nat.not_lt.2 (Nat.le_add_left 1 i), if_false, Nat.add_sub_cancel]

/-- The flags of the STATUS word, bits 0 to 7 (10_state.md R25). -/
theorem State.statusWord_flags (s : State) :
    s.statusWord.getLsbD 0 = s.busy ∧ s.statusWord.getLsbD 1 = s.done ∧ s.statusWord.getLsbD 2 = s.err ∧
      s.statusWord.getLsbD 3 = s.cmdRej ∧ s.statusWord.getLsbD 4 = s.wDrop ∧ s.statusWord.getLsbD 5 = s.ftnValid ∧
      s.statusWord.getLsbD 6 = s.smpValid ∧ s.statusWord.getLsbD 7 = s.ftnComplete := by
  simp only [State.statusWord, getLsbD_append_flagBit_zero, getLsbD_append_flagBit_succ, and_self]

/-- Above the flags of the STATUS word stand ERRCODE and 16 zero bits. -/
theorem State.statusWord_getLsbD_add_eight (s : State) (i : Nat) :
    s.statusWord.getLsbD (8 + i) = (0#16 ++ s.errCode.toByte).getLsbD i := by
  rw [Nat.add_comm]
  simp only [State.statusWord, getLsbD_append_flagBit_succ]

/-- ERRCODE and the reserved half of the STATUS word (10_state.md R25, R34). -/
theorem State.statusWord_fields (s : State) :
    s.statusWord.extractLsb' 8 8 = s.errCode.toByte ∧ s.statusWord.extractLsb' 16 16 = 0 := by
  constructor <;> apply BitVec.eq_of_getLsbD_eq <;> intro i hi
  · rw [BitVec.getLsbD_extractLsb', s.statusWord_getLsbD_add_eight, BitVec.getLsbD_append]
    simp only [hi, decide_true, Bool.true_and, if_true]
  · rw [BitVec.getLsbD_extractLsb', show 16 + i = 8 + (8 + i) by omega, s.statusWord_getLsbD_add_eight, BitVec.getLsbD_append]
    simp [show ¬8 + i < 8 by omega]

/-- Settles O58, by the layout of the STATUS word and the W1C write. -/
theorem statusLayoutAndClears : Obligations.StatusLayoutAndClears := by
  refine ⟨rfl, fun s => ⟨?_, s.hostAccess_write_status⟩⟩
  obtain ⟨h0, h1, h2, h3, h4, h5, h6, h7⟩ := s.statusWord_flags
  exact ⟨h0, h1, h2, h3, h4, h5, h6, h7, s.statusWord_fields⟩

end Sys2Proof.Machine
end

section
/-! SUPPORT and proofs of O57, O44. What reads answer, and what the cycle of a completion leaves. -/

namespace Sys2Proof.Machine

/-! ### Reads of registers -/

theorem State.ctrlWord_eq (s : State) : s.ctrlWord = if s.ie then 1 else 0 := by
  unfold State.ctrlWord
  cases s.ie <;> rfl

/-- The values of the registers are what the map's registers read as (10_state.md R21). -/
theorem registerValues_eq (s : State) : registerValues s = registerMap.map fun x => (x.1, s.readReg x.2) := by
  unfold registerValues
  rw [← s.ctrlWord_eq]
  rfl

/-- The registers from ID to ARG3 keep their value while busy (70_reset_and_hazards.md R276). -/
theorem stableWhileBusy_of_offset_le : ∀ x ∈ registerMap, x.1 ≤ 0x020 → (Target.reg x.2).stableWhileBusy = true := by
  decide

/-! ### Reads of RAM bytes and entries -/

theorem Memory.readBytes_one (m : Memory) (a : Nat) : m.readBytes a 1 = [m.read a] := rfl

theorem Memory.readBytes_two (m : Memory) (a : Nat) : m.readBytes a 2 = [m.read a, m.read (a + 1)] := rfl

theorem Memory.readBytes_four (m : Memory) (a : Nat) :
    m.readBytes a 4 = [m.read a, m.read (a + 1), m.read (a + 2), m.read (a + 3)] := rfl

/-- Two byte strings, one above the other, as a number (20_memory.md R75). -/
theorem fromLE_append (bs cs : List Byte) : fromLE (bs ++ cs) = fromLE bs + 256 ^ bs.length * fromLE cs := by
  induction bs with
  | nil => simp [fromLE]
  | cons b bs ih =>
    rw [List.cons_append, fromLE, ih, fromLE, List.length_cons, Nat.pow_succ]
    ring

theorem Memory.readBytes_add (m : Memory) (a k n : Nat) :
    m.readBytes a (k + n) = m.readBytes a k ++ m.readBytes (a + k) n := by
  induction k generalizing a with
  | zero => simp [Memory.readBytes]
  | succ k ih =>
    rw [Nat.succ_add, Memory.readBytes, Memory.readBytes, ih, List.cons_append, Nat.add_assoc a, Nat.add_comm 1]

/-- A little-endian word is its four bytes' number (20_memory.md R77). -/
theorem wordAt_eq (m : Memory) (a : Nat) : wordAt m a = BitVec.ofNat 32 (fromLE (m.readBytes a 4)) := by
  rw [Memory.readBytes_four, ofNat_fromLE_four, wordAt]

theorem fromLE_readBytes_four (m : Memory) (a : Nat) : fromLE (m.readBytes a 4) = (wordAt m a).toNat := by
  have h0 := (m.read a).isLt
  have h1 := (m.read (a + 1)).isLt
  have h2 := (m.read (a + 2)).isLt
  have h3 := (m.read (a + 3)).isLt
  rw [wordAt_eq, BitVec.toNat_ofNat, Memory.readBytes_four]
  simp only [fromLE]
  omega

/-- Eight little-endian bytes are two words, the low one first (20_memory.md R76). -/
theorem ofNat_fromLE_readBytes_eight (m : Memory) (a : Nat) :
    BitVec.ofNat 64 (fromLE (m.readBytes a 8)) = wordAt m (a + 4) ++ wordAt m a := by
  have hlo := (wordAt m a).isLt
  have hhi := (wordAt m (a + 4)).isLt
  apply BitVec.eq_of_toNat_eq
  rw [m.readBytes_add a 4 4, fromLE_append, Memory.readBytes_length, fromLE_readBytes_four, fromLE_readBytes_four,
    BitVec.toNat_ofNat, BitVec.toNat_append, ← Nat.shiftLeft_add_eq_or_of_lt hlo, Nat.shiftLeft_eq]
  omega

theorem State.entry32_eq_wordAt (s : State) (r : Ram) (j : Nat) : s.entry32 r j = wordAt s.mem (r.base + 4 * j) :=
  (wordAt_eq _ _).symm

theorem State.entry64_eq_wordAt (s : State) (r : Ram) (j : Nat) :
    s.entry64 r j = wordAt s.mem (r.base + 8 * j + 4) ++ wordAt s.mem (r.base + 8 * j) :=
  ofNat_fromLE_readBytes_eight _ _

/-- A RAM read answers its bytes, little-endian, in the width of the access (20_memory.md R75). -/
theorem readData_readTarget_ram (s : State) (size : Size) (r : Ram) (o : Nat) :
    readData size (s.readTarget size (.ram r o)) = ramData s.mem size (r.base + o) := by
  cases size with
  | byte =>
    have h0 := (s.mem.read (r.base + o)).isLt
    simp only [readData, State.readTarget, State.memRead, Size.bytes, ramData, Memory.readBytes_one, fromLE,
      Response.data8.injEq]
    bv_omega
  | half =>
    have h0 := (s.mem.read (r.base + o)).isLt
    have h1 := (s.mem.read (r.base + o + 1)).isLt
    simp only [readData, State.readTarget, State.memRead, Size.bytes, ramData, Memory.readBytes_two, fromLE,
      Response.data16.injEq]
    apply BitVec.eq_of_toNat_eq
    rw [toNat_append_byte, BitVec.toNat_setWidth, BitVec.toNat_ofNat]
    omega
  | word => simp only [readData, State.readTarget, State.memRead, Size.bytes, ramData, wordAt_eq]

/-- The RAMs that no command writes keep their value while busy (70_reset_and_hazards.md R276). -/
theorem stableWhileBusy_of_window {n : Nat} {r : Ram} (h : windowRam n = some r) (hn : n ∈ [1, 2, 5]) (o : Nat) :
    (Target.ram r o).stableWhileBusy = true := by
  simp only [List.mem_cons, List.not_mem_nil, or_false] at hn
  rcases hn with rfl | rfl | rfl <;> cases h <;> rfl

/-! ### Reads change only the response -/

/-- A register read that answers its value: any register when idle, ID to ARG3 while busy. -/
theorem State.hostAccess_read_reg (s : State) {x : Nat × Reg} (h : x ∈ registerMap) (hb : s.busy = false ∨ x.1 ≤ 0x020) :
    s.hostAccess (.read .word (BitVec.ofNat 19 x.1)) = { s with resp := some (.data32 (s.readReg x.2)) } := by
  rw [State.hostAccess_read (busTarget_of_mem_registerMap s.params h),
    State.serveRead_stable (hb.imp_right (stableWhileBusy_of_offset_le x h))]
  rfl

/-- A RAM read that answers its bytes: any RAM when idle, MSG_RAM, SEED_RAM and WGT_RAM while busy. -/
theorem State.hostAccess_read_ram (s : State) {size : Size} {addr : BusAddr} (hlo : 0x10000 ≤ addr.toNat)
    (h : legalAccess s.params size addr) (hb : s.busy = false ∨ addr.toNat / 0x10000 ∈ [1, 2, 5]) :
    s.hostAccess (.read size addr) = { s with resp := some (ramData s.mem size addr.toNat) } := by
  obtain ⟨r, hw, ht⟩ := busTarget_of_legal_ram hlo h
  have hbase : r.base + addr.toNat % 0x10000 = addr.toNat := by
    rw [(windowRam_eq_some hw).1]
    omega
  rw [State.hostAccess_read ht, State.serveRead_stable (hb.imp_right (stableWhileBusy_of_window hw · _)),
    readData_readTarget_ram, hbase]

/-- Everything a read, legal or not, can do: the response, and while busy one draw (20_memory.md R74, R82). -/
theorem State.hostAccess_read_cases (s : State) (size : Size) (addr : BusAddr) :
    (∃ r, s.hostAccess (.read size addr) = { s with resp := some r }) ∨
      (s.busy = true ∧ ∃ r, s.hostAccess (.read size addr) = { s with resp := some r, draws := s.draws + 1 }) := by
  cases ht : busTarget s.params size addr with
  | error e => exact .inl ⟨_, (State.hostAccess_error ht).1⟩
  | ok t =>
    rw [State.hostAccess_read ht]
    rcases s.serveRead_cases size t with ⟨hbusy, -, hs⟩ | ⟨-, hs⟩
    · exact .inr ⟨hbusy, _, hs⟩
    · exact .inl ⟨_, hs⟩

/-- Settles O57: register reads through the map, RAM reads through the windows, the entries, and the frame of a read. -/
theorem readsChangeOnlyTheResponse : Obligations.ReadsChangeOnlyTheResponse := by
  intro s
  refine ⟨fun x hx hb => ?_, fun size addr hlo h hb => s.hostAccess_read_ram hlo h hb, fun j => ?_, fun size addr => ?_⟩
  · rw [registerValues_eq, List.mem_map] at hx
    obtain ⟨y, hy, rfl⟩ := hx
    exact s.hostAccess_read_reg hy hb
  · exact ⟨s.entry32_eq_wordAt .selRam j, s.entry64_eq_wordAt .wgtRam j, s.entry64_eq_wordAt .probRam j,
      s.entry32_eq_wordAt .aliasRam j⟩
  · rcases s.hostAccess_read_cases size addr with ⟨r, hr⟩ | ⟨hbusy, r, hr⟩
    · exact ⟨⟨r, s.draws, hr⟩, fun _ => ⟨r, hr⟩⟩
    · exact ⟨⟨r, s.draws + 1, hr⟩, fun hidle => by simp [hidle] at hbusy⟩

/-! ### The cycle of a completion -/

/-- A command always completes, with its flags and the host's fields as they were (40_control.md R111). -/
theorem exec_completes (i : Instr) (s : State) :
    ∃ t, exec i s = .next t ∧ t.done = true ∧ t.busy = false ∧ t.err = (s.err || t.errCode != .ok) ∧
      t.hostFields = s.hostFields := by
  rw [exec_eq_commit]
  cases h : effect i s with
  | ok u =>
    obtain ⟨hhost, herr⟩ := effect_ok_hostFields h
    exact ⟨u.complete .ok, rfl, rfl, rfl, by rw [State.complete_err, herr, State.complete_errCode], hhost⟩
  | error e => exact ⟨s.complete e, rfl, rfl, rfl, rfl, rfl⟩

/-- So does a word that is no command (30_encoding.md R91). -/
theorem runWord_completes (w : Word) (s : State) :
    ∃ t, runWord w s = .next t ∧ t.done = true ∧ t.busy = false ∧ t.err = (s.err || t.errCode != .ok) ∧
      t.hostFields = s.hostFields := by
  cases h : decode w with
  | ok i =>
    rw [runWord_ok h]
    exact exec_completes i s
  | error e => exact ⟨_, runWord_error h s, rfl, rfl, rfl, rfl⟩

/-- The step of a command in its last cycle, when the host's access keeps it pending (40_control.md R111, log 5). -/
theorem step_last_cycle {s : State} {p : Pending} (hp : s.pending = some p) (hc : p.cyclesLeft ≤ 1)
    (hkeep : s.hostPhase.pending = some p) : step s = runWord p.word s.hostPhase := by
  have hbusy : s.busy = true := by rw [State.busy, hp]; rfl
  rw [step, cycle, hbusy, if_pos rfl, sequencerPhase, hkeep]
  simp only [hc, if_true]

/-- Settles O44: the host's write comes first in the cycle, then the completion sets its flags over it. -/
theorem setWinsOverClear : Obligations.SetWinsOverClear := by
  intro s p v rest hp hc hhost
  have hphase : s.hostPhase = { State.writeStatus { s with host := rest } v with resp := some .ack } := by
    rw [State.hostPhase_some hhost, State.hostAccess_write_status]
  have hstep := step_last_cycle hp hc (by rw [hphase]; exact hp)
  obtain ⟨t, ht, hdone, hbusy, herr, hfields⟩ := runWord_completes p.word s.hostPhase
  obtain ⟨-, -, hrej, hdrop, -⟩ := State.hostFields_eq_iff.1 hfields
  rw [hphase] at herr hrej hdrop
  exact ⟨t, hstep.trans ht, hdone, hbusy, herr, hrej, hdrop⟩

end Sys2Proof.Machine
end

section
/-! SUPPORT and proofs of O47, O48. What one host access does to the parts of the state that the invariant speaks of, and what
every step does to memory. -/

namespace Sys2Proof.Machine

/-! ### The held fields -/

/-- The sampler's fields that tell of the held table (10_state.md R32, R44). -/
def State.tableFields (s : State) : Bool × Word := (s.smpValid, s.smpN)

/-- Equal table fields, field by field. -/
theorem State.tableFields_eq_iff {s t : State} :
    t.tableFields = s.tableFields ↔ t.smpValid = s.smpValid ∧ t.smpN = s.smpN := by
  simp only [State.tableFields, Prod.mk.injEq]

/-- The fields of the held configuration (10_state.md R31, R45 to R48). -/
def State.configFields (s : State) : Bool × Word × Word × Word × Word :=
  (s.ftnValid, s.ftnMsgLen, s.ftnFragLen, s.ftnFragCount, s.ftnChecksum)

/-- Equal configuration fields, field by field. -/
theorem State.configFields_eq_iff {s t : State} :
    t.configFields = s.configFields ↔
      t.ftnValid = s.ftnValid ∧ t.ftnMsgLen = s.ftnMsgLen ∧ t.ftnFragLen = s.ftnFragLen ∧
        t.ftnFragCount = s.ftnFragCount ∧ t.ftnChecksum = s.ftnChecksum := by
  simp only [State.configFields, Prod.mk.injEq]

/-- All that the invariant speaks of, but for memory and the latch. -/
def State.heldFields (s : State) : Params × Word × (Bool × Word) × (Bool × Word × Word × Word × Word) :=
  (s.params, s.selCount, s.tableFields, s.configFields)

/-- Equal held fields, group by group. -/
theorem State.heldFields_eq_iff {s t : State} :
    t.heldFields = s.heldFields ↔
      t.params = s.params ∧ t.selCount = s.selCount ∧ t.tableFields = s.tableFields ∧
        t.configFields = s.configFields := by
  simp only [State.heldFields, Prod.mk.injEq]

/-! ### What a host access leaves held -/

/-- `t` comes from `s` with the held fields and memory as they were, and with the latch if `s` has it. -/
def State.Keeps (s t : State) : Prop := t.heldFields = s.heldFields ∧ t.mem = s.mem ∧ (s.latchOk → t.latchOk)

/-- With nothing pending there is nothing latched. -/
theorem State.latchOk_of_idle {s : State} (h : s.busy = false) : s.latchOk := by
  intro p hp
  simp [State.busy, hp] at h

/-- An accepted command is latched (40_control.md R110) with at least one cycle to go (70_reset_and_hazards.md R281). -/
theorem State.accept_latchOk (s : State) (w : Word) : (s.accept w).latchOk := by
  intro p hp
  rw [State.accept_pending, Option.some.injEq] at hp
  subst hp
  exact ⟨rfl, rfl, latencyOf_pos _ _ _⟩

/-- A write that a busy block drops keeps what its idle form keeps. -/
theorem State.Keeps.unlessBusy {s u : State} (hf : u.heldFields = s.heldFields) (hm : u.mem = s.mem)
    (hp : u.pending = s.pending) : s.Keeps (s.unlessBusy u) := by
  cases hb : s.busy with
  | true => rw [State.unlessBusy_busy u hb]; exact ⟨rfl, rfl, id⟩
  | false =>
    rw [State.unlessBusy_idle u hb]
    exact ⟨hf, hm, fun _ => State.latchOk_of_idle (by rw [State.busy, hp]; exact hb)⟩

/-- Everything a register write can do: a soft reset, or nothing to what is held (10_state.md R24, R25, R35). -/
theorem State.writeReg_cases (s : State) (v : Word) (r : Reg) :
    s.writeReg v r = s.softReset ∨ s.Keeps (s.writeReg v r) := by
  cases r with
  | ctrl =>
    simp only [State.writeReg, State.writeCtrl]
    split
    · exact .inl rfl
    · exact .inr ⟨rfl, rfl, id⟩
  | status => exact .inr ⟨rfl, rfl, id⟩
  | cmd =>
    right
    simp only [State.writeReg]
    cases hb : s.busy with
    | true => rw [State.writeCmd_busy v hb]; exact ⟨rfl, rfl, id⟩
    | false => rw [State.writeCmd_idle v hb]; exact ⟨rfl, rfl, fun _ => s.accept_latchOk v⟩
  | arg0 | arg1 | arg2 | arg3 | prngS0Lo | prngS0Hi | prngS1Lo | prngS1Hi | prngS2Lo | prngS2Hi | prngS3Lo | prngS3Hi =>
    exact .inr (.unlessBusy rfl rfl rfl)
  | _ => exact .inr ⟨rfl, rfl, id⟩

/-- A RAM whose bytes a host write changes in this state: MSG_RAM while it is unlocked, SEED_RAM, SEL_RAM and WGT_RAM
(20_memory.md R78, R79). -/
def State.writable (s : State) (r : Ram) : Prop := r = .msgRam ∧ s.ftnValid = false ∨ r ∈ [Ram.seedRam, .selRam, .wgtRam]

/-- Everything a RAM write can do: nothing to what is held, or, on an idle block, the bytes stored in a writable RAM. -/
theorem State.writeRam_cases (s : State) (r : Ram) (o : Nat) (bs : List Byte) :
    s.Keeps (s.writeRam r o bs) ∨ (s.busy = false ∧ s.writable r ∧ s.writeRam r o bs = s.memWrite r o bs) := by
  have store : s.writable r → s.Keeps (s.unlessBusy (s.memWrite r o bs)) ∨
      (s.busy = false ∧ s.writable r ∧ s.unlessBusy (s.memWrite r o bs) = s.memWrite r o bs) := by
    intro hr
    cases hb : s.busy with
    | true => rw [State.unlessBusy_busy _ hb]; exact .inl ⟨rfl, rfl, id⟩
    | false => exact .inr ⟨rfl, hr, State.unlessBusy_idle _ hb⟩
  cases r with
  | msgRam =>
    simp only [State.writeRam]
    split
    · exact .inl ⟨rfl, rfl, id⟩
    · rename_i hv
      exact store (.inl ⟨rfl, by simpa using hv⟩)
  | seedRam | selRam | wgtRam => exact store (.inr (by decide))
  | outRam | probRam | aliasRam => exact .inl ⟨rfl, rfl, id⟩

/-- Everything a host access can do to what the invariant speaks of: nothing, a soft reset, or bytes stored inside a writable
RAM of an idle block (20_memory.md R74, R78, R79; 70_reset_and_hazards.md R271, R275). -/
theorem State.hostAccess_effect (s : State) (a : Access) :
    s.Keeps (s.hostAccess a) ∨
    s.hostAccess a = { s.softReset with resp := some .ack } ∨
    ∃ r o bs, s.busy = false ∧ s.writable r ∧ o + bs.length ≤ r.size s.params ∧
      s.hostAccess a = { s.memWrite r o bs with resp := some .ack } := by
  cases a with
  | read size addr =>
    rcases s.hostAccess_read_cases size addr with ⟨r, h⟩ | ⟨-, r, h⟩ <;> rw [h] <;> exact .inl ⟨rfl, rfl, id⟩
  | write size addr v =>
    cases ht : busTarget s.params size addr with
    | error e => rw [(State.hostAccess_error ht).2 v]; exact .inl ⟨rfl, rfl, id⟩
    | ok t =>
      rw [State.hostAccess_write v ht]
      cases t with
      | reg r =>
        rcases s.writeReg_cases v r with h | h
        · exact .inr (.inl (by simp only [State.serveWrite, h]))
        · exact .inl h
      | ram r o =>
        obtain ⟨-, -, -, hfits⟩ := busTarget_ram ht
        rcases s.writeRam_cases r o (toLE size.bytes v.toNat) with h | ⟨hb, hw, h⟩
        · exact .inl h
        · exact .inr (.inr ⟨r, o, toLE size.bytes v.toNat, hb, hw, by rwa [toLE_length],
            by simp only [State.serveWrite, h]⟩)

/-! ### Steps from their parts -/

/-- What the host's accesses and what the sequencer keep, every step keeps; `P` does not look at the accesses to come. -/
theorem step_preserves {P : State → Prop} (hhost : ∀ s rest, P s → P { s with host := rest })
    (haccess : ∀ s a, P s → P (State.hostAccess s a)) (hseq : ∀ s t, P s → sequencerPhase s = .next t → P t)
    {s t : State} (hs : P s) (h : step s = .next t) : P t := by
  have hphase : P s.hostPhase := by
    cases hh : s.host with
    | nil => rwa [State.hostPhase_nil hh]
    | cons x rest =>
      cases x with
      | none => rw [State.hostPhase_none hh]; exact hhost s rest hs
      | some a => rw [State.hostPhase_some hh]; exact haccess _ a (hhost s rest hs)
  rcases step_cases s with ⟨-, e⟩ | ⟨-, e⟩
  · rw [e] at h
    cases h
    exact hphase
  · exact hseq _ _ hphase (e ▸ h)

/-- Everything a word that runs can do: its command, or nothing but a completion with an error (30_encoding.md R91). -/
theorem runWord_next {w : Word} {s t : State} (h : runWord w s = .next t) :
    (∃ i, decode w = .ok i ∧ exec i s = .next t) ∨ ∃ e, t = s.complete e := by
  cases hd : decode w with
  | ok i => exact .inl ⟨i, rfl, runWord_ok hd s ▸ h⟩
  | error e =>
    rw [runWord_error hd] at h
    exact .inr ⟨_, by simpa using h.symm⟩

/-- Everything the sequencer's part of a cycle can lead to: nothing, a command's writes completed with OK, a completion with an
error, or one cycle less. -/
theorem sequencerPhase_next {s t : State} (h : sequencerPhase s = .next t) :
    t = s ∨ (∃ i u, effect i s = .ok u ∧ t = u.complete .ok) ∨ (∃ e, t = s.complete e) ∨
      ∃ p, s.pending = some p ∧ 1 < p.cyclesLeft ∧
        t = { s with pending := some { p with cyclesLeft := p.cyclesLeft - 1 } } := by
  rcases sequencerPhase_cases s with ⟨-, e⟩ | ⟨p, -, -, e⟩ | ⟨p, hp, hc, e⟩ <;> rw [e] at h
  · exact .inl (by simpa using h.symm)
  · rcases runWord_next h with ⟨i, -, hi⟩ | ⟨c, hc⟩
    · rcases exec_next hi with ⟨u, hu, ht⟩ | ⟨c, -, ht⟩
      · exact .inr (.inl ⟨i, u, hu, ht⟩)
      · exact .inr (.inr (.inl ⟨c, ht⟩))
    · exact .inr (.inr (.inl ⟨c, hc⟩))
  · exact .inr (.inr (.inr ⟨p, hp, hc, by simpa using h.symm⟩))

/-- Settles O47: an idle cycle is the host's access, and a busy one waits or completes. -/
theorem noStepStops : Obligations.NoStepStops := by
  intro s
  rcases step_cases s with ⟨-, e⟩ | ⟨-, e⟩ <;> rw [e]
  · exact ⟨_, rfl⟩
  · rcases sequencerPhase_cases s.hostPhase with ⟨-, e⟩ | ⟨p, -, -, e⟩ | ⟨p, -, -, e⟩ <;> rw [e]
    · exact ⟨_, rfl⟩
    · obtain ⟨t, ht, -⟩ := runWord_completes p.word s.hostPhase
      exact ⟨t, ht⟩
    · exact ⟨_, rfl⟩

/-! ### The canonical form of memory -/

/-- Stores keep the canonical form. -/
theorem Memory.wf_storeAtBases {m : Memory} (h : m.wf = true) (stores : List (Ram × List Byte)) :
    (m.storeAtBases stores).wf = true := by
  induction stores generalizing m with
  | nil => exact h
  | cons st stores ih => exact ih (Memory.wf_writeBytes h _ _)

/-- A command's stores keep the canonical form. -/
theorem effect_ok_mem_wf {i : Instr} {s t : State} (hs : s.mem.wf = true) (h : effect i s = .ok t) : t.mem.wf = true := by
  obtain ⟨stores, -, hm, -⟩ := effect_ok_storesTo h
  rw [hm]
  exact Memory.wf_storeAtBases hs stores

/-- A host access keeps the canonical form, a soft reset that aborts a command included (70_reset_and_hazards.md R272). -/
theorem State.hostAccess_mem_wf {s : State} (hs : s.mem.wf = true) (a : Access) : (s.hostAccess a).mem.wf = true := by
  rcases s.hostAccess_effect a with ⟨-, hm, -⟩ | e | ⟨r, o, bs, -, -, -, e⟩
  · rwa [hm]
  · rw [e]; exact State.resetMem_wf hs
  · rw [e]; exact Memory.wf_writeBytes hs _ _

/-- The sequencer's part of a cycle keeps the canonical form. -/
theorem sequencerPhase_mem_wf {s t : State} (hs : s.mem.wf = true) (h : sequencerPhase s = .next t) :
    t.mem.wf = true := by
  rcases sequencerPhase_next h with rfl | ⟨i, u, hu, rfl⟩ | ⟨c, rfl⟩ | ⟨p, -, -, rfl⟩
  · exact hs
  · rw [State.complete_mem]; exact effect_ok_mem_wf hs hu
  · exact hs
  · exact hs

/-- Settles O48, by the two parts of a cycle. -/
theorem stepKeepsCanonicalMemory : Obligations.StepKeepsCanonicalMemory := fun _ _ hs h =>
  step_preserves (P := fun s => s.mem.wf = true) (fun _ _ hs => hs) (fun _ a hs => State.hostAccess_mem_wf hs a)
    (fun _ _ => sequencerPhase_mem_wf) hs h

end Sys2Proof.Machine
end

section
/-! SUPPORT and proof of O49. The invariant, component by component, over a store of bytes, a command, a soft reset and a host
access. -/

namespace Sys2Proof.Machine

/-! ### Components of the invariant that a change spares -/

/-- The held table is as it was when its fields and the bytes of its aliases are. -/
theorem State.samplerOk_congr {s t : State} (h : s.samplerOk) (hp : t.params = s.params) (hf : t.tableFields = s.tableFields)
    (hm : ∀ a, Ram.base .aliasRam ≤ a → t.mem.read a = s.mem.read a) : t.samplerOk := by
  obtain ⟨hv, hn⟩ := State.tableFields_eq_iff.1 hf
  have entry (i : Nat) : t.aliasOf i = s.aliasOf i := by
    unfold State.aliasOf State.entry32 State.memRead
    rw [Memory.readBytes_congr fun k _ => hm _ (by omega)]
  simp only [State.samplerOk, hv, hn, hp, entry]
  exact h

/-- The held configuration is as it was when its fields are and, while it is held, the bytes of MSG_RAM. -/
theorem State.fountainOk_congr {s t : State} (h : s.fountainOk) (hp : t.params = s.params)
    (hf : t.configFields = s.configFields)
    (hm : s.ftnValid = true → ∀ a, a < Ram.base .msgRam + s.params.msgRamSize → t.mem.read a = s.mem.read a) :
    t.fountainOk := by
  obtain ⟨hv, hlen, hfrag, hcount, hsum⟩ := State.configFields_eq_iff.1 hf
  intro hheld
  rw [hv] at hheld
  have hold := h hheld
  have message : t.memRead .msgRam 0 s.ftnMsgLen.toNat = s.memRead .msgRam 0 s.ftnMsgLen.toNat := by
    obtain ⟨⟨-, hfits⟩, -⟩ := hold
    exact Memory.readBytes_congr fun k hk => hm hheld _ (by omega)
  rw [hp, hlen, hfrag, hcount, hsum, message]
  exact hold

/-- The invariant speaks only of the held fields, memory and the latch. -/
theorem State.Inv.of_keeps {s t : State} (inv : s.Inv) (h : s.Keeps t) : t.Inv := by
  obtain ⟨hf, hm, hl⟩ := h
  obtain ⟨hp, hsel, ht, hc⟩ := State.heldFields_eq_iff.1 hf
  exact
    { params := by rw [hp]; exact inv.params
      mem := by rw [hm]; exact inv.mem
      latch := hl inv.latch
      sel := by rw [hp, hsel]; exact inv.sel
      sampler := State.samplerOk_congr inv.sampler hp ht fun a _ => by rw [hm]
      fountain := State.fountainOk_congr inv.fountain hp hc fun _ a _ => by rw [hm] }

/-! ### Host accesses -/

/-- A soft reset establishes the invariant again (70_reset_and_hazards.md R271): nothing is held. -/
theorem State.Inv.softReset {s : State} (inv : s.Inv) : s.softReset.Inv where
  params := inv.params
  mem := State.resetMem_wf inv.mem
  latch := State.latchOk_of_idle rfl
  sel := Nat.zero_le _
  sampler := fun h => absurd h Bool.false_ne_true
  fountain := fun h => absurd h Bool.false_ne_true

/-- The writable RAMs lie below ALIAS_RAM, and while a configuration is held above MSG_RAM (20_memory.md R71, R79). -/
theorem State.writable_base {s : State} {r : Ram} (h : s.writable r) :
    r.base ≤ 0x50000 ∧ (s.ftnValid = true → 0x20000 ≤ r.base) := by
  rcases h with ⟨rfl, hv⟩ | h
  · exact ⟨by decide, fun hheld => absurd (hheld.symm.trans hv) Bool.false_ne_true.symm⟩
  · simp only [List.mem_cons, List.not_mem_nil, or_false] at h
    rcases h with rfl | rfl | rfl <;> exact ⟨by decide, fun _ => by decide⟩

/-- Bytes that an idle block stores inside a writable RAM are not those of a held table or message. -/
theorem State.Inv.memWrite {s : State} (inv : s.Inv) {r : Ram} {o : Nat} {bs : List Byte} (hb : s.busy = false)
    (hr : s.writable r) (hfits : o + bs.length ≤ r.size s.params) : (s.memWrite r o bs).Inv := by
  obtain ⟨hbelow, habove⟩ := State.writable_base hr
  have hsize := r.size_le_window inv.params
  exact
    { params := inv.params
      mem := Memory.wf_writeBytes inv.mem _ _
      latch := State.latchOk_of_idle hb
      sel := inv.sel
      sampler := State.samplerOk_congr inv.sampler rfl rfl fun a ha =>
        Memory.read_writeBytes_outside _ _ (by simp only [Ram.base] at ha; omega)
      fountain := State.fountainOk_congr inv.fountain rfl rfl fun hheld a ha =>
        Memory.read_writeBytes_outside _ _ (by
          have := habove hheld
          have := Ram.size_le_window inv.params .msgRam
          simp only [Ram.base, Ram.size] at *
          omega) }

/-- A host access keeps the invariant. -/
theorem State.Inv.hostAccess {s : State} (inv : s.Inv) (a : Access) : (s.hostAccess a).Inv := by
  have respond (t : State) (h : t.Inv) : State.Inv { t with resp := some .ack } :=
    h.of_keeps ⟨rfl, rfl, id⟩
  rcases s.hostAccess_effect a with h | e | ⟨r, o, bs, hb, hr, hfits, e⟩
  · exact inv.of_keeps h
  · rw [e]; exact respond _ inv.softReset
  · rw [e]; exact respond _ (inv.memWrite hb hr hfits)

/-! ### Which commands write what is held -/

/-- The commands that write SEL_COUNT, the held table and the held configuration are few; every other one leaves them
(10_state.md R44 to R51). -/
theorem effect_ok_held {i : Instr} {s t : State} (h : effect i s = .ok t) :
    (i ∉ [.prngShuffle, .ftnNext, .ftnChoose] → t.selCount = s.selCount) ∧
    ((∀ m, i ≠ .smpBuild m) → t.tableFields = s.tableFields) ∧
    (i ∉ [.ftnConfig, .ftnClear] → t.configFields = s.configFields) := by
  cases i with
  | nop | crcInit | crcByte | prngSeedPair | prngNext | prngDouble => cases h; exact ⟨fun _ => rfl, fun _ => rfl, fun _ => rfl⟩
  | ftnClear => cases h; exact ⟨fun _ => rfl, fun _ => rfl, fun hi => absurd (by decide) hi⟩
  | crcBuf m => obtain ⟨-, rfl⟩ := crcBuf_ok h; exact ⟨fun _ => rfl, fun _ => rfl, fun _ => rfl⟩
  | prngSeed => obtain ⟨-, rfl⟩ := prngSeed_ok h; exact ⟨fun _ => rfl, fun _ => rfl, fun _ => rfl⟩
  | prngInt =>
    obtain ⟨-, h⟩ := prngInt_ok h
    obtain ⟨d, -, rfl⟩ := drawHostInt_ok h
    exact ⟨fun _ => rfl, fun _ => rfl, fun _ => rfl⟩
  | prngByte => obtain ⟨d, -, rfl⟩ := drawHostInt_ok h; exact ⟨fun _ => rfl, fun _ => rfl, fun _ => rfl⟩
  | prngShuffle =>
    obtain ⟨-, -, r, -, rfl⟩ := prngShuffle_ok h
    exact ⟨fun hi => absurd (by decide) hi, fun _ => by simp [State.tableFields], fun _ => by simp [State.configFields]⟩
  | smpBuild m =>
    obtain ⟨-, -, rfl⟩ := smpBuild_ok h
    exact ⟨fun _ => by simp, fun hi => absurd rfl (hi m), fun _ => by simp [State.configFields]⟩
  | smpSample => obtain ⟨-, d, -, rfl⟩ := smpSample_ok h; exact ⟨fun _ => rfl, fun _ => rfl, fun _ => rfl⟩
  | ftnConfig => obtain ⟨-, rfl⟩ := ftnConfig_ok h; exact ⟨fun _ => rfl, fun _ => rfl, fun hi => absurd (by decide) hi⟩
  | ftnNext =>
    obtain ⟨-, -, sel, -, rfl⟩ := ftnNext_ok h
    exact ⟨fun hi => absurd (by decide) hi, fun _ => by simp [State.tableFields], fun _ => by simp [State.configFields]⟩
  | ftnChoose =>
    obtain ⟨-, -, sel, -, rfl⟩ := ftnChoose_ok h
    exact ⟨fun hi => absurd (by decide) hi, fun _ => by simp [State.tableFields], fun _ => by simp [State.configFields]⟩
  | ftnMix =>
    obtain ⟨-, -, rfl⟩ := ftnMix_ok h
    exact ⟨fun _ => rfl, fun _ => by simp [State.tableFields], fun _ => by simp [State.configFields]⟩
  | ftnSeek => obtain ⟨-, rfl⟩ := ftnSeek_ok h; exact ⟨fun _ => rfl, fun _ => rfl, fun _ => rfl⟩

theorem effect_ok_params {i : Instr} {s t : State} (h : effect i s = .ok t) : t.params = s.params :=
  (State.hostFields_eq_iff.1 (effect_ok_hostFields h).1).1

/-! ### The selection -/

/-- A selection of at most `n` entries gives a SEL_COUNT of at most `n`. -/
theorem State.writeSel_selCount_le {n : Nat} {sel : List Nat} (h : sel.length ≤ n) (s : State) (seq : Word) :
    (s.writeSel sel seq).selCount.toNat ≤ n := by
  rw [State.writeSel_selCount, BitVec.toNat_ofNat]
  exact (Nat.mod_le _ _).trans h

/-- A command's selection fits SEL_RAM (10_state.md R50, R55). -/
theorem effect_ok_selCount {i : Instr} {s t : State} (inv : s.Inv) (h : effect i s = .ok t) :
    t.selCount.toNat ≤ s.params.maxFrags := by
  have chosen {seq : Word} {sel : List Nat} (hv : s.ftnValid = true)
      (hsel : chooseFragments s.params seq s.ftnFragCount s.ftnChecksum = .ok sel) : sel.length ≤ s.params.maxFrags :=
    (chooseFragments_length hsel).trans (inv.fountain_fits hv).1
  by_cases hi : i ∈ [.prngShuffle, .ftnNext, .ftnChoose]
  · simp only [List.mem_cons, List.not_mem_nil, or_false] at hi
    rcases hi with rfl | rfl | rfl
    · obtain ⟨⟨-, hn⟩, hk, r, -, rfl⟩ := prngShuffle_ok h
      exact State.writeSel_selCount_le ((List.length_take_le _ _).trans (hk.trans hn)) s 0
    · obtain ⟨hv, -, sel, hsel, rfl⟩ := ftnNext_ok h
      exact State.writeSel_selCount_le (chosen hv hsel) s (s.ftnSeqNum + 1)
    · obtain ⟨hv, -, sel, hsel, rfl⟩ := ftnChoose_ok h
      exact State.writeSel_selCount_le (chosen hv hsel) s s.operands.a0
  · rw [(effect_ok_held h).1 hi]
    exact inv.sel

/-! ### The held table -/

/-- Two byte strings stored one after the other. -/
theorem Memory.writeBytes_append (m : Memory) (a : Nat) (bs cs : List Byte) :
    m.writeBytes a (bs ++ cs) = (m.writeBytes a bs).writeBytes (a + bs.length) cs := by
  induction bs generalizing m a with
  | nil => rfl
  | cons b bs ih =>
    rw [List.cons_append, Memory.writeBytes, ih, Memory.writeBytes, List.length_cons, Nat.add_assoc, Nat.add_comm 1]

/-- The bytes of an entry that was stored with others (20_memory.md R77). -/
theorem Memory.readBytes_writeBytes_bytes32 {m : Memory} (h : m.wf = true) (a : Nat) (vs : List Word) {i : Nat}
    (hi : i < vs.length) : (m.writeBytes a (bytes32 vs)).readBytes (a + 4 * i) 4 = toLE 4 vs[i].toNat := by
  induction vs generalizing m a i with
  | nil => simp at hi
  | cons v vs ih =>
    have hsplit : bytes32 (v :: vs) = toLE 4 v.toNat ++ bytes32 vs := rfl
    have hlen := toLE_length 4 v.toNat
    have hwf := Memory.wf_writeBytes h a (toLE 4 v.toNat)
    rw [hsplit, Memory.writeBytes_append, hlen]
    cases i with
    | zero =>
      rw [Memory.readBytes_congr fun k hk => Memory.read_writeBytes_outside _ _ (.inl (by omega))]
      have hread := Memory.readBytes_writeBytes h a (toLE 4 v.toNat)
      rwa [hlen] at hread
    | succ i =>
      rw [show a + 4 * (i + 1) = a + 4 + 4 * i by omega]
      exact ih hwf (a + 4) (by simpa using hi)

/-- An entry of ALIAS_RAM after a table is stored (10_state.md R57). -/
theorem State.writeTable_aliasOf {s : State} (h : s.mem.wf = true) (t : AliasTable) {i : Nat} (hi : i < t.other.length) :
    (s.writeTable t).aliasOf i = BitVec.ofNat 32 t.other[i] := by
  have hwf := Memory.wf_writeBytes h (Ram.base .probRam) (bytes64 t.prob)
  have hread := Memory.readBytes_writeBytes_bytes32 hwf (Ram.base .aliasRam) (t.other.map (BitVec.ofNat 32))
    (i := i) (by simpa using hi)
  rw [List.getElem_map] at hread
  have hentry : (s.writeTable t).memRead .aliasRam (4 * i) 4 = toLE 4 (BitVec.ofNat 32 t.other[i]).toNat := hread
  have hlt := (BitVec.ofNat 32 t.other[i]).isLt
  rw [State.aliasOf, State.entry32, hentry, fromLE_toLE, Nat.mod_eq_of_lt (by omega), BitVec.ofNat_toNat, BitVec.setWidth_eq]

/-- The aliases settled so far are indices of the table; turns keep that, since they take them from a stack. -/
theorem aliasTurns_other_lt {n : Nat} {b : AliasBuild} (inv : AliasInv n b) (h : ∀ x ∈ b.table.other, x < n) (k : Nat) :
    ∀ x ∈ (aliasTurns b k).table.other, x < n := by
  induction k with
  | zero => exact h
  | succ k ih =>
    rw [aliasTurns]
    rcases aliasTurn_cases (aliasTurns b k) with ⟨-, e⟩ | ⟨a, g, small, large, -, hl, e⟩
    · rwa [e]
    · have hg : g < n := (inv.turns k).index g (by simp [hl])
      rw [e, aliasPair_table]
      intro x hx
      rcases List.mem_or_eq_of_mem_set hx with hx | rfl
      · exact ih x hx
      · exact hg

/-- The aliases that buildAlias answers are indices of the table (43_sampler.md R187). -/
theorem buildAlias_other_lt {w : List F64} {n : Nat} (h : w.length = n) (hn : 1 ≤ n) :
    ∀ x ∈ (buildAlias w n).other, x < n := by
  have start : ∀ x ∈ (aliasStart w n).table.other, x < n := fun x hx => by
    rw [List.eq_of_mem_replicate hx]
    exact hn
  have turns := aliasTurns_other_lt (aliasStart_inv h) start n
  rw [← aliasLoop_eq_turns] at turns
  exact turns

/-- SMP_BUILD leaves a table with aliases in range (43_sampler.md R183, R187). -/
theorem smpBuild_samplerOk {m : BitVec 1} {s t : State} (hwf : s.mem.wf = true) (h : smpBuild m s = .ok t) :
    t.samplerOk := by
  obtain ⟨hn, -, rfl⟩ := smpBuild_ok h
  generalize hw : s.weights m s.operands.a0.toNat = w
  have hlen : w.length = s.operands.a0.toNat := by rw [← hw, State.weights_length]
  intro _
  refine ⟨hn.1, hn.2, fun i hi => ?_⟩
  have hother : i < (buildAlias w s.operands.a0.toNat).other.length := by rwa [(buildAlias_length hlen).2]
  have hlt := buildAlias_other_lt hlen hn.1 _ (List.getElem_mem hother)
  have hentry := State.writeTable_aliasOf hwf _ hother
  refine lt_of_le_of_lt ?_ hlt
  refine (congrArg BitVec.toNat hentry).trans_le ?_
  rw [BitVec.toNat_ofNat]
  exact Nat.mod_le _ _

/-- The commands that do not build a table write only OUT_RAM and SEL_RAM. -/
theorem base_of_mem_writtenRams_of_ne_smpBuild {i : Instr} (hi : ∀ m, i ≠ .smpBuild m) {r : Ram} (hr : r ∈ writtenRams i) :
    r.base ≤ 0x40000 := by
  cases i with
  | smpBuild m => exact absurd rfl (hi m)
  | ftnMix | ftnNext | ftnChoose | prngShuffle => revert r; decide
  | _ => cases hr

/-- A command leaves the held table in range: it builds a new one, or spares the aliases. -/
theorem effect_ok_samplerOk {i : Instr} {s t : State} (inv : s.Inv) (h : effect i s = .ok t) : t.samplerOk := by
  by_cases hi : ∀ m, i ≠ .smpBuild m
  · refine State.samplerOk_congr inv.sampler (effect_ok_params h) ((effect_ok_held h).2.1 hi) fun a ha => ?_
    refine (effect_ok_storesTo h).read_outside inv fun r hr => .inr ?_
    have hbase := base_of_mem_writtenRams_of_ne_smpBuild hi hr
    have hsize := r.size_le_window inv.params
    simp only [Ram.base] at ha hbase ⊢
    omega
  · simp only [not_forall, not_not] at hi
    obtain ⟨m, rfl⟩ := hi
    exact smpBuild_samplerOk inv.mem h

/-! ### The held configuration -/

/-- The division that rounds up is the library's. -/
theorem ceilDiv_le_iff {a b c : Nat} (hb : 0 < b) : ceilDiv a b ≤ c ↔ a ≤ b * c := ceilDiv_le_iff_le_mul hb

/-- The fragments cover the message and the last one is not empty (44_fountain.md R200). -/
theorem fragLen_cover {len max : Nat} (hlen : 0 < len) (hmax : 0 < max) :
    1 ≤ fragCount len max ∧ 1 ≤ fragLen len max ∧ (fragCount len max - 1) * fragLen len max < len ∧
      len ≤ fragCount len max * fragLen len max := by
  have hcount : 0 < fragCount len max := by
    by_contra h0
    have := (ceilDiv_le_iff (c := 0) hmax).1 (Nat.not_lt.1 h0)
    omega
  have hcover : len ≤ fragCount len max * fragLen len max := (ceilDiv_le_iff hcount).1 le_rfl
  have hpos : 0 < fragLen len max := Nat.pos_of_ne_zero fun h0 => by
    rw [h0, Nat.mul_zero] at hcover
    omega
  have hle : fragLen len max ≤ max := by
    rw [fragLen, ceilDiv_le_iff hcount, Nat.mul_comm]
    exact (ceilDiv_le_iff hmax).1 le_rfl
  have hlast : max * (fragCount len max - 1) < len := by
    rw [← Nat.not_le, ← ceilDiv_le_iff hmax]
    exact Nat.not_le.2 (Nat.sub_lt hcount Nat.one_pos)
  refine ⟨hcount, hpos, lt_of_le_of_lt ?_ hlast, hcover⟩
  rw [Nat.mul_comm]
  exact Nat.mul_le_mul_right _ hle

/-- FTN_CONFIG leaves a configuration that fits, with the checksum of the message as it stands (44_fountain.md R202, R203). -/
theorem ftnConfig_fountainOk {s t : State} (hp : s.params.wellFormed = true) (h : ftnConfig s = .ok t) : t.fountainOk := by
  obtain ⟨hok, rfl⟩ := ftnConfig_ok h
  simp only [ftnParamsOk, Bool.and_eq_true, bne_iff_ne, ne_eq, decide_eq_true_eq] at hok
  obtain ⟨⟨⟨⟨⟨⟨hlen, hmax⟩, -⟩, -⟩, hmsg⟩, hcount⟩, hfrag⟩ := hok
  obtain ⟨hcount1, hfrag1, hlast, hcover⟩ := fragLen_cover (Nat.pos_of_ne_zero hlen) (Nat.pos_of_ne_zero hmax)
  have hsel := Ram.size_le_window hp .selRam
  have hout := Ram.size_le_window hp .outRam
  simp only [Ram.size] at hsel hout
  intro _
  simp only [BitVec.toNat_ofNat, Nat.mod_eq_of_lt (show fragCount s.operands.a0.toNat s.operands.a1.toNat < 2 ^ 32 by omega),
    Nat.mod_eq_of_lt (show fragLen s.operands.a0.toNat s.operands.a1.toNat < 2 ^ 32 by omega)]
  exact ⟨⟨Nat.pos_of_ne_zero hlen, hmsg⟩, ⟨hcount1, hcount⟩, ⟨hfrag1, hfrag⟩, hlast, hcover, rfl⟩

/-- A command leaves the held configuration true: it makes a new one, drops it, or spares it and MSG_RAM. -/
theorem effect_ok_fountainOk {i : Instr} {s t : State} (inv : s.Inv) (h : effect i s = .ok t) : t.fountainOk := by
  by_cases hi : i ∈ [.ftnConfig, .ftnClear]
  · simp only [List.mem_cons, List.not_mem_nil, or_false] at hi
    rcases hi with rfl | rfl
    · exact ftnConfig_fountainOk inv.params h
    · cases h
      exact fun hv => absurd hv Bool.false_ne_true
  · refine State.fountainOk_congr inv.fountain (effect_ok_params h) ((effect_ok_held h).2.2 hi) fun _ a ha => ?_
    refine (effect_ok_storesTo h).read_below fun r hr => ?_
    have hbase := base_of_mem_writtenRams hr
    have hsize := Ram.size_le_window inv.params .msgRam
    simp only [Ram.base, Ram.size] at ha hbase hsize ⊢
    omega

/-! ### Steps -/

/-- The writes of a command, completed, keep the invariant. -/
theorem State.Inv.effect_ok {i : Instr} {s t : State} (inv : s.Inv) (h : effect i s = .ok t) (c : ErrorCode) :
    (t.complete c).Inv where
  params := (effect_ok_params h).symm ▸ inv.params
  mem := (effect_ok_mem_wf inv.mem h :)
  latch := State.latchOk_of_idle rfl
  sel := (effect_ok_params h).symm ▸ (effect_ok_selCount inv h :)
  sampler := (effect_ok_samplerOk inv h :)
  fountain := (effect_ok_fountainOk inv h :)

/-- The sequencer's part of a cycle keeps the invariant. -/
theorem State.Inv.sequencerPhase {s t : State} (inv : s.Inv) (h : sequencerPhase s = .next t) : t.Inv := by
  rcases sequencerPhase_next h with rfl | ⟨i, u, hu, rfl⟩ | ⟨c, rfl⟩ | ⟨p, hp, hc, rfl⟩
  · exact inv
  · exact inv.effect_ok hu .ok
  · exact inv.of_keeps ⟨rfl, rfl, fun _ => State.latchOk_of_idle rfl⟩
  · refine inv.of_keeps ⟨rfl, rfl, fun hl q hq => ?_⟩
    obtain ⟨hw, ha, -⟩ := hl p hp
    cases hq
    exact ⟨hw, ha, by simp only; omega⟩

/-- Settles O49, by the two parts of a cycle. -/
theorem stepKeepsTheInvariant : Obligations.StepKeepsTheInvariant := fun _ _ inv h =>
  step_preserves (P := State.Inv) (fun _ _ inv => inv.of_keeps ⟨rfl, rfl, id⟩) (fun _ a inv => inv.hostAccess a)
    (fun _ _ inv => inv.sequencerPhase) inv h

end Sys2Proof.Machine
end

section
/-! SUPPORT and proofs of O51, O54, O55. The legal accesses as the maps list them, and what a legal RAM write stores. -/

namespace Sys2Proof.Machine

/-! ### The register map -/

/-- The registers in the order of the map, each with its offset (10_state.md R21). -/
theorem registers_zip_offsets : registers.zip (resetReads.map Prod.fst) = registerMap.map Prod.swap := by decide

theorem resetReads_offsets : resetReads.map Prod.fst = registerMap.map Prod.fst := by decide

/-- Each offset of the map has one register. -/
theorem regAt_eq_some_iff {o : Nat} {r : Reg} : regAt o = some r ↔ (o, r) ∈ registerMap := by
  have listed : ∀ x ∈ registerMap, regAt x.1 = some x.2 := by decide
  refine ⟨fun h => ?_, listed (o, r)⟩
  obtain ⟨before, after, hmap, -⟩ := List.lookup_eq_some_iff.1 h
  rw [hmap]
  exact List.mem_append_right before List.mem_cons_self

/-- Each register of the map has one offset. -/
theorem registerMap_offset_unique : ∀ x ∈ registerMap, ∀ y ∈ registerMap, x.2 = y.2 → x.1 = y.1 := by decide

theorem registerMap_offset_lt : ∀ x ∈ registerMap, x.1 < 0x10000 := by decide

/-! ### The targets of the legal accesses -/

/-- The windows without a RAM are the register window (20_memory.md R71). -/
theorem lt_of_windowRam_eq_none {addr : BusAddr} (h : windowRam (addr.toNat / 0x10000) = none) : addr.toNat < 0x10000 := by
  by_contra hge
  obtain ⟨r, hr⟩ := exists_windowRam (Nat.not_lt.1 hge)
  rw [h] at hr
  cases hr

/-- An access addresses a register exactly when it is a word access at the register's offset (20_memory.md R72). -/
theorem busTarget_eq_reg_iff {p : Params} {size : Size} {addr : BusAddr} {r : Reg} :
    busTarget p size addr = .ok (.reg r) ↔ size = .word ∧ (addr.toNat, r) ∈ registerMap := by
  constructor
  · intro h
    obtain ⟨hw, hs, hr⟩ := busTarget_reg h
    rw [Nat.mod_eq_of_lt (lt_of_windowRam_eq_none hw)] at hr
    exact ⟨hs, regAt_eq_some_iff.1 hr⟩
  · rintro ⟨rfl, hr⟩
    have := busTarget_of_mem_registerMap p hr
    rwa [BitVec.ofNat_toNat, BitVec.setWidth_eq] at this

/-- An access addresses a RAM exactly when it is a legal one in the RAM's window (20_memory.md R71, R73). -/
theorem busTarget_eq_ram_iff {p : Params} {size : Size} {addr : BusAddr} {r : Ram} {o : Nat} :
    busTarget p size addr = .ok (.ram r o) ↔
      legalAccess p size addr ∧ windowRam (addr.toNat / 0x10000) = some r ∧ o = addr.toNat % 0x10000 := by
  constructor
  · intro h
    obtain ⟨hw, ho, haligned, hfits⟩ := busTarget_ram h
    refine ⟨.inr ⟨?_, ho ▸ haligned, ?_⟩, hw, ho⟩
    · by_contra hlt
      rw [Nat.div_eq_of_lt (Nat.not_le.1 hlt)] at hw
      cases hw
    · rw [← (windowRam_eq_some hw).2 p, ← ho]
      exact hfits
  · rintro ⟨hlegal, hw, rfl⟩
    have hlo : 0x10000 ≤ addr.toNat := by
      by_contra hlt
      rw [Nat.div_eq_of_lt (Nat.not_le.1 hlt)] at hw
      cases hw
    obtain ⟨r', hr', ht⟩ := busTarget_of_legal_ram hlo hlegal
    obtain rfl : r' = r := Option.some.inj (hr'.symm.trans hw)
    exact ht

/-- Exactly the legal accesses have a target (20_memory.md R72, R73, R74). -/
theorem exists_busTarget_iff_legal {p : Params} {size : Size} {addr : BusAddr} :
    (∃ t, busTarget p size addr = .ok t) ↔ legalAccess p size addr := by
  constructor
  · rintro ⟨t, ht⟩
    cases t with
    | reg r =>
      obtain ⟨hs, hr⟩ := busTarget_eq_reg_iff.1 ht
      refine .inl ⟨registerMap_offset_lt _ hr, hs, ?_⟩
      rw [resetReads_offsets]
      exact List.mem_map_of_mem hr
    | ram r o => exact (busTarget_eq_ram_iff.1 ht).1
  · rintro (⟨-, hs, hr⟩ | ⟨hlo, hram⟩)
    · rw [resetReads_offsets, List.mem_map] at hr
      obtain ⟨⟨o, r⟩, hr, rfl⟩ := hr
      exact ⟨.reg r, busTarget_eq_reg_iff.2 ⟨hs, hr⟩⟩
    · obtain ⟨r, -, ht⟩ := busTarget_of_legal_ram hlo (.inr ⟨hlo, hram⟩)
      exact ⟨_, ht⟩

/-- The windows of the RAMs are those of the address map (20_memory.md R71). -/
theorem windowRam_eq_some_iff {n : Nat} {r : Ram} : windowRam n = some r ↔ (r, n) ∈ ramWindows := by
  have listed : ∀ x ∈ ramWindows, windowRam x.2 = some x.1 := by decide
  refine ⟨fun h => ?_, listed (r, n)⟩
  unfold windowRam at h
  split at h <;> cases h <;> decide

/-- Each RAM has one window. -/
theorem ramWindows_unique : ∀ x ∈ ramWindows, ∀ y ∈ ramWindows, x.1 = y.1 → x.2 = y.2 := by decide

/-! ### Accesses -/

theorem State.access_read {s : State} {size : Size} {addr : BusAddr} {t : Target}
    (h : busTarget s.params size addr = .ok t) : s.access (.read size addr) = .ok (s.serveRead size t) := by
  simp only [State.access, h]

theorem State.access_write {s : State} {size : Size} {addr : BusAddr} {t : Target} (v : Word)
    (h : busTarget s.params size addr = .ok t) : s.access (.write size addr v) = .ok (s.serveWrite size t v) := by
  simp only [State.access, h]

/-- Settles O51: the targets are those of the two maps, an access with a target is served, and one without is a bus error. -/
theorem busErrorsChangeNothing : Obligations.BusErrorsChangeNothing := by
  intro s size addr v
  refine ⟨fun hlegal => ?_, fun hillegal => ?_, fun x hx => ?_, fun x hx => ⟨fun o => ?_, ?_⟩⟩
  · obtain ⟨t, ht⟩ := exists_busTarget_iff_legal.2 hlegal
    exact ⟨⟨_, State.access_read ht⟩, _, State.access_write v ht⟩
  · cases ht : busTarget s.params size addr with
    | ok t => exact absurd (exists_busTarget_iff_legal.1 ⟨t, ht⟩) hillegal
    | error e =>
      obtain ⟨hread, hwrite⟩ := State.hostAccess_error ht
      exact ⟨hread, hwrite v⟩
  · rw [registers_zip_offsets, List.mem_map] at hx
    obtain ⟨y, hy, rfl⟩ := hx
    rw [busTarget_eq_reg_iff]
    refine and_congr_right fun _ => ⟨fun h => registerMap_offset_unique _ h y hy rfl, fun h => ?_⟩
    rw [h]
    exact hy
  · rw [busTarget_eq_ram_iff, windowRam_eq_some_iff]
    refine and_congr_right fun _ => ⟨fun ⟨hw, ho⟩ => ?_, fun ⟨ha, ho⟩ => ?_⟩
    · have := ramWindows_unique _ hw x hx rfl
      omega
    · rw [show addr.toNat / 0x10000 = x.2 by omega]
      exact ⟨hx, by omega⟩
  · obtain ⟨hbase, hsize⟩ := windowRam_eq_some (windowRam_eq_some_iff.2 hx)
    exact ⟨hbase, hsize s.params⟩

/-! ### RAM writes -/

/-- A write to locked MSG_RAM is dropped with WDROP (20_memory.md R79). -/
theorem State.writeRam_locked {s : State} (h : s.ftnValid = true) (o : Nat) (bs : List Byte) :
    s.writeRam .msgRam o bs = { s with wDrop := true } := by
  simp only [State.writeRam, h, if_true]

/-- A write to a read-only RAM is ignored (20_memory.md R78). -/
theorem State.writeRam_readOnly {r : Ram} (h : r ∈ [Ram.outRam, .probRam, .aliasRam]) (s : State) (o : Nat)
    (bs : List Byte) : s.writeRam r o bs = s := by
  simp only [List.mem_cons, List.not_mem_nil, or_false] at h
  rcases h with rfl | rfl | rfl <;> rfl

/-- An idle block stores what is written to a writable RAM. -/
theorem State.writeRam_idle {s : State} {r : Ram} (hb : s.busy = false) (h : s.writable r) (o : Nat) (bs : List Byte) :
    s.writeRam r o bs = s.memWrite r o bs := by
  rcases h with ⟨rfl, hv⟩ | h
  · simp only [State.writeRam, hv, Bool.false_eq_true, if_false, State.unlessBusy_idle _ hb]
  · simp only [List.mem_cons, List.not_mem_nil, or_false] at h
    rcases h with rfl | rfl | rfl <;> exact State.unlessBusy_idle _ hb

/-- A legal RAM write, in terms of what the RAM does with its bytes. -/
theorem State.hostAccess_write_ram {s : State} {size : Size} {addr : BusAddr} {r : Ram} {o : Nat} (v : Word)
    (h : busTarget s.params size addr = .ok (.ram r o)) :
    s.hostAccess (.write size addr v) = { s.writeRam r o (toLE size.bytes v.toNat) with resp := some .ack } :=
  State.hostAccess_write v h

/-- Settles O54, by the lock and by the read-only windows. -/
theorem lockedAndReadOnlyRamsKeepTheirBytes : Obligations.LockedAndReadOnlyRamsKeepTheirBytes := by
  intro s size addr v o
  refine ⟨fun hv ht => ?_, fun r hr ht => ?_, fun r _ ht => ⟨_, State.access_read ht⟩⟩
  · rw [State.hostAccess_write_ram v ht, State.writeRam_locked hv]
  · rw [State.hostAccess_write_ram v ht, State.writeRam_readOnly hr]

/-- Byte `k` of a number, little-endian. -/
theorem toLE_getElem {n v k : Nat} (h : k < (toLE n v).length) : (toLE n v)[k] = BitVec.ofNat 8 (v / 256 ^ k) := by
  induction n generalizing v k with
  | zero => simp [toLE] at h
  | succ n ih =>
    cases k with
    | zero => simp [toLE]
    | succ k => simp only [toLE, List.getElem_cons_succ, ih, Nat.div_div_eq_div_mul, Nat.pow_succ']

/-- Byte `k` of the data of a write is its bits 8k+7 to 8k (20_memory.md R75). -/
theorem toLE_getElem_eq_extractLsb' {n k : Nat} (v : Word) (h : k < (toLE n v.toNat).length) :
    (toLE n v.toNat)[k] = v.extractLsb' (8 * k) 8 := by
  rw [toLE_getElem]
  apply BitVec.eq_of_toNat_eq
  rw [BitVec.toNat_ofNat, BitVec.extractLsb'_toNat, Nat.shiftRight_eq_div_pow, Nat.pow_mul]

/-- Read data take the low bits of the access's width (20_memory.md R75). -/
theorem readData_ofNat_mod (size : Size) (v : Word) :
    readData size (BitVec.ofNat 32 (v.toNat % 256 ^ size.bytes)) = readData size v := by
  have := v.isLt
  cases size with
  | byte => simp only [readData, Size.bytes, Response.data8.injEq]; bv_omega
  | half => simp only [readData, Size.bytes, Response.data16.injEq]; bv_omega
  | word => simp only [readData, Size.bytes, Response.data32.injEq]; bv_omega

/-- A RAM answers what was stored there (20_memory.md R75). -/
theorem State.readData_memWrite {s : State} (h : s.mem.wf = true) (size : Size) (r : Ram) (o : Nat) (v : Word) :
    readData size ((s.memWrite r o (toLE size.bytes v.toNat)).readTarget size (.ram r o)) = readData size v := by
  have hback := Memory.readBytes_writeBytes h (r.base + o) (toLE size.bytes v.toNat)
  rw [toLE_length] at hback
  have hread : (s.memWrite r o (toLE size.bytes v.toNat)).memRead r o size.bytes = toLE size.bytes v.toNat := hback
  rw [State.readTarget, hread, fromLE_toLE, readData_ofNat_mod]

/-- A legal read of an idle block answers its target's value. -/
theorem State.hostAccess_read_resp {s : State} {size : Size} {addr : BusAddr} {t : Target} (hb : s.busy = false)
    (h : busTarget s.params size addr = .ok t) :
    (s.hostAccess (.read size addr)).resp = some (readData size (s.readTarget size t)) := by
  rw [State.hostAccess_read h, State.serveRead_stable (.inl hb)]

/-- Settles O55: the write is one stored byte string, which reads back byte by byte and whole. -/
theorem ramWritesReadBack : Obligations.RamWritesReadBack := by
  intro s size addr v r o hb hwf ht hr
  have hlen := toLE_length size.bytes v.toNat
  rw [State.hostAccess_write_ram v ht, State.writeRam_idle hb hr]
  refine ⟨fun k hk => ?_, fun a ha => ?_, rfl, ?_⟩
  · exact (Memory.read_writeBytes_inside hwf _ _ (by rwa [hlen])).trans (toLE_getElem_eq_extractLsb' v _)
  · exact Memory.read_writeBytes_outside _ _ (by rwa [hlen])
  · have hstored := State.readData_memWrite hwf size r o v
    have hresp := State.hostAccess_read_resp (s := { s.memWrite r o (toLE size.bytes v.toNat) with resp := some .ack }) hb ht
    exact hresp.trans (congrArg some hstored)

end Sys2Proof.Machine
end

section
/-! SUPPORT and proofs of O38, O39, O40, O41. The decoder as the opcode map's rows say it, and the encoder against it. -/

namespace Sys2Proof.Machine

/-! ### Bit fields of a word -/

/-- A field of a word put back at its place is the word with every other bit cleared. -/
theorem setWidth_extractLsb'_shiftLeft {n : Nat} (w : BitVec n) (s k : Nat) :
    (w.extractLsb' s k).setWidth n <<< s = w &&& (BitVec.allOnes k).setWidth n <<< s := by
  apply BitVec.eq_of_getLsbD_eq
  intro i hi
  rcases Nat.lt_or_ge i s with hs | hs
  · simp [hs]
  · have hat : s + (i - s) = i := by omega
    simp [hat, hi, Nat.not_lt.2 hs, Bool.and_comm]

/-- What is put at a field's place is read back from there. -/
theorem extractLsb'_setWidth_shiftLeft {n k s : Nat} (x : BitVec k) (h : s + k ≤ n) :
    (x.setWidth n <<< s).extractLsb' s k = x := by
  apply BitVec.eq_of_getLsbD_eq
  intro i hi
  have hn : s + i < n := by omega
  simp [hi, hn]

/-- A field that the mask covers and the fixed bits leave 0 is 0 in every word with these fixed bits. -/
theorem extractLsb'_eq_zero_of_and {n : Nat} {w mask fixed : BitVec n} {s k : Nat} (h : w &&& mask = fixed)
    (hmask : mask.extractLsb' s k = BitVec.allOnes k) (hfixed : fixed.extractLsb' s k = 0) : w.extractLsb' s k = 0 := by
  rw [← h, BitVec.extractLsb'_and, hmask, BitVec.and_allOnes] at hfixed
  exact hfixed

/-! ### The decoder, row by row -/

theorem legalOpcodes_eq : legalOpcodes = opcodeMap.map Row.opc := rfl

/-- No two rows of the opcode map share an opcode (30_encoding.md R93). -/
theorem legalOpcodes_nodup : legalOpcodes.Nodup := by decide

/-- The row of an opcode is the only one with it. -/
theorem find?_opcodeMap {r : Row} (h : r ∈ opcodeMap) : opcodeMap.find? (fun x => x.opc == r.opc) = some r := by
  cases hf : opcodeMap.find? (fun x => x.opc == r.opc) with
  | none => simpa using List.find?_eq_none.1 hf r h
  | some x =>
    have hopc : x.opc = r.opc := by simpa using List.find?_some hf
    rw [List.inj_on_of_nodup_map (legalOpcodes_eq ▸ legalOpcodes_nodup) (List.mem_of_find?_eq_some hf) h hopc]

/-- Every row of the opcode map decodes its words as R91 and R95 say. -/
theorem encodedAs_of_mem {r : Row} (h : r ∈ opcodeMap) : encodedAs r.opc r.mask r.fixed r.build := by
  intro w hw
  rw [decode, opcField, hw, find?_opcodeMap h]

/-- A word whose opcode no row has (30_encoding.md R94). -/
theorem decode_of_notMem_legalOpcodes {w : Word} (h : opcField w ∉ legalOpcodes) : decode w = .error .illegalOpcode := by
  have hnone : opcodeMap.find? (fun r => r.opc == opcField w) = none :=
    List.find?_eq_none.2 fun r hr hopc => h (by
      rw [legalOpcodes_eq, ← eq_of_beq hopc]
      exact List.mem_map_of_mem hr)
  rw [decode, hnone]

/-- A word whose opcode is in the map decodes by the row of that opcode (30_encoding.md R91, R95). -/
theorem exists_row_of_mem_legalOpcodes {w : Word} (h : opcField w ∈ legalOpcodes) :
    ∃ r ∈ opcodeMap, decode w = if w &&& r.mask = r.fixed then .ok (r.build w) else .error .reservedField := by
  rw [legalOpcodes_eq] at h
  obtain ⟨r, hr, hopc⟩ := List.mem_map.1 h
  exact ⟨r, hr, encodedAs_of_mem hr w hopc.symm⟩

/-- Every command that comes out of the decoder was built by a row whose fixed bits the word has. -/
theorem decode_eq_ok {w : Word} {i : Instr} (h : decode w = .ok i) :
    ∃ r ∈ opcodeMap, w &&& r.mask = r.fixed ∧ i = r.build w := by
  by_cases hlegal : opcField w ∈ legalOpcodes
  · obtain ⟨r, hr, hdecode⟩ := exists_row_of_mem_legalOpcodes hlegal
    rw [hdecode] at h
    split at h
    · rename_i hfixed
      exact ⟨r, hr, hfixed, (Except.ok.inj h).symm⟩
    · cases h
  · rw [decode_of_notMem_legalOpcodes hlegal] at h
    cases h

/-! ### The reserved fields -/

/-- Every row checks RSV, MODE[3:1] and IMM16[15:8] to be 0 (30_encoding.md R90, R95). -/
theorem reserved_of_mem_opcodeMap : ∀ r ∈ opcodeMap, ∀ f ∈ [(12, 4), (9, 3), (24, 8)],
    r.mask.extractLsb' f.1 f.2 = BitVec.allOnes f.2 ∧ r.fixed.extractLsb' f.1 f.2 = 0 := by decide

/-- So a word that decodes has 0 in these fields. -/
theorem reserved_eq_zero {w : Word} {r : Row} (hr : r ∈ opcodeMap) (h : w &&& r.mask = r.fixed) :
    ∀ f ∈ [(12, 4), (9, 3), (24, 8)], w.extractLsb' f.1 f.2 = 0 := by
  intro f hf
  obtain ⟨hmask, hfixed⟩ := reserved_of_mem_opcodeMap r hr f hf
  exact extractLsb'_eq_zero_of_and h hmask hfixed

/-! ### The encoder against the rows -/

/-- The command that a row builds has the row's fixed bits in its word, and the field bits that it was built from. -/
theorem encode_build : ∀ r ∈ opcodeMap, ∀ w, encode (r.build w) = r.fixed ||| w &&& ~~~r.mask := by
  have noField (w c : Word) : c = c ||| w &&& ~~~0xFFFFFFFF#32 := by simp
  have modeField (w c : Word) : c ||| (modeBit w).setWidth 32 <<< 8 = c ||| w &&& ~~~0xFFFFFEFF#32 :=
    congrArg (c ||| ·) (setWidth_extractLsb'_shiftLeft w 8 1)
  have immField (w c : Word) : c ||| (immByte w).setWidth 32 <<< 16 = c ||| w &&& ~~~0xFF00FFFF#32 :=
    congrArg (c ||| ·) (setWidth_extractLsb'_shiftLeft w 16 8)
  simp only [opcodeMap, List.forall_mem_cons]
  exact ⟨
    -- NOP to CRC_BUF
    (noField · _), (noField · _), (immField · _), (modeField · _),
    -- PRNG_SEED to PRNG_SHUFFLE
    (noField · _), (noField · _), (noField · _), (noField · _), (noField · _), (noField · _), (noField · _),
    -- SMP_BUILD, SMP_SAMPLE
    (modeField · _), (noField · _),
    -- FTN_CONFIG to FTN_CLEAR
    (noField · _), (noField · _), (noField · _), (noField · _), (noField · _), (noField · _),
    List.forall_mem_nil _⟩

/-- The byte of a CRC_BYTE is read back from its word. -/
theorem immByte_encode_crcByte (b : Byte) : immByte (encode (.crcByte b)) = b := by
  have hopc : (2#32).extractLsb' 16 8 = 0#8 := by decide
  calc immByte (2#32 ||| b.setWidth 32 <<< 16)
      = (2#32).extractLsb' 16 8 ||| (b.setWidth 32 <<< 16).extractLsb' 16 8 := BitVec.extractLsb'_or
    _ = b := by rw [hopc, extractLsb'_setWidth_shiftLeft b (by decide), BitVec.zero_or]

/-- Decoding gives back every command. The words of the commands without a field are closed. -/
theorem decode_encode (i : Instr) : decode (encode i) = .ok i := by
  cases i with
  | crcByte b =>
    obtain ⟨hopc, hfixed⟩ := Laws.EncodeFits.crcByte_fixed b
    have hrow : (⟨0x02, 0x00000002, 0xFF00FFFF, fun w => .crcByte (immByte w)⟩ : Row) ∈ opcodeMap := by simp [opcodeMap]
    rw [encodedAs_of_mem hrow _ hopc.symm, if_pos hfixed]
    exact congrArg (fun x => Except.ok (Instr.crcByte x)) (immByte_encode_crcByte b)
  | crcBuf m | smpBuild m =>
    rcases BitVec.eq_zero_or_eq_one m with rfl | rfl <;> rfl
  | _ => rfl

/-! ### The obligations -/

/-- Settles O38: every command is well formed. -/
theorem decodeOfEncode : Obligations.DecodeOfEncode := fun i _ => decode_encode i

/-- Settles O39: the bits under the mask of the word's row are its fixed bits, and the others are the command's fields. -/
theorem encodeOfDecode : Obligations.EncodeOfDecode := by
  intro w i h
  obtain ⟨r, hr, hfixed, rfl⟩ := decode_eq_ok h
  calc encode (r.build w)
      = r.fixed ||| w &&& ~~~r.mask := encode_build r hr w
    _ = w &&& r.mask ||| w &&& ~~~r.mask := by rw [hfixed]
    _ = w := by rw [← BitVec.and_or_distrib_left, BitVec.or_not_self, BitVec.and_allOnes]

/-- Settles O40, by the row of the word's opcode. -/
theorem decodeClassifiesEveryWord : Obligations.DecodeClassifiesEveryWord := by
  intro w
  refine ⟨decode_of_notMem_legalOpcodes, fun h => ?_, fun h hset => ?_⟩
  · obtain ⟨r, -, hdecode⟩ := exists_row_of_mem_legalOpcodes h
    rw [hdecode]
    split
    · exact .inl ⟨_, rfl⟩
    · exact .inr rfl
  · obtain ⟨r, hr, hdecode⟩ := exists_row_of_mem_legalOpcodes h
    rw [hdecode]
    refine if_neg fun hfixed => ?_
    have hzero := reserved_eq_zero hr hfixed
    rcases hset with hrsv | hmode | himm
    · exact hrsv (hzero (12, 4) (by decide))
    · exact hmode (hzero (9, 3) (by decide))
    · exact himm (hzero (24, 8) (by decide))

/-- Settles O41: each word written out is the word of its command. -/
theorem writtenWordsDecode : Obligations.WrittenWordsDecode :=
  ⟨decode_encode .nop, decode_encode (.crcByte 0x61), decode_encode (.crcBuf 1), decode_encode .prngShuffle,
    decode_encode (.smpBuild 1), decode_encode .ftnNext⟩

end Sys2Proof.Machine
end

section
/-! SUPPORT and proof of O42. The step of a pending command in its last cycle. -/

namespace Sys2Proof.Machine

/-- The host's part of a cycle takes the next place of its list. -/
theorem State.hostPhase_eq_served (s : State) : s.hostPhase = s.served := by
  cases h : s.host with
  | nil =>
    rw [State.hostPhase_nil h, State.served, h]
    exact congrArg (fun l => { s with host := l }) h
  | cons x rest =>
    cases x with
    | none => rw [State.hostPhase_none h, State.served, h]; rfl
    | some a => rw [State.hostPhase_some h, State.served, h]

/-- A cycle of the host without a soft reset keeps the pending command (70_reset_and_hazards.md R271, R274). -/
theorem State.served_pending {s : State} (hb : s.busy = true) (h : ¬resetNow s) : s.served.pending = s.pending := by
  rw [← State.hostPhase_eq_served]
  cases hh : s.host with
  | nil => rw [State.hostPhase_nil hh]
  | cons x rest =>
    cases x with
    | none => rw [State.hostPhase_none hh]
    | some a =>
      rw [State.hostPhase_some hh]
      refine State.hostAccess_pending (s := { s with host := rest }) hb fun v hv => ?_
      subst hv
      exact Bool.eq_false_iff.2 fun hsrst => h ⟨v, rest, hh, hsrst⟩

/-- A command in its last cycle runs on the state that the host's access leaves (40_control.md R111, log 5). -/
theorem step_eq_runWord_served {s : State} {p : Pending} (hp : s.pending = some p) (hc : p.cyclesLeft ≤ 1)
    (h : ¬resetNow s) : step s = runWord p.word s.served := by
  have hb : s.busy = true := by rw [State.busy, hp]; rfl
  have hkeep : s.served.pending = some p := (State.served_pending hb h).trans hp
  rw [← State.hostPhase_eq_served] at hkeep ⊢
  exact step_last_cycle hp hc hkeep

/-- A completion with an error (60_exceptions.md R243). -/
theorem State.complete_eq_errorState (s : State) {e : ErrorCode} (h : e ≠ .ok) : s.complete e = errorState s e := by
  have herr : (s.err || e != .ok) = true := by simp [h]
  rw [State.complete, errorState, herr]

/-- `withFetchWord` puts the word in its last cycle, with a place of the host's list that holds no access (log 6). -/
theorem step_withFetchWord (s : State) {w : Nat} (h : w < 2 ^ 32) :
    step (s.withFetchWord 32 w) = runWord (BitVec.ofNat 32 w)
      { s with cmdLast := BitVec.ofNat 32 w, pending := some ⟨BitVec.ofNat 32 w, s.args, 1⟩ } := by
  rw [State.withFetchWord, Nat.mod_eq_of_lt h]
  exact step_last_cycle (s := s.withPendingWord (BitVec.ofNat 32 w)) rfl le_rfl rfl

/-- Settles O42: the last cycle runs the pending word, which is a command or completes with its error. -/
theorem stepRunsThePendingCommand : Obligations.StepRunsThePendingCommand := by
  refine ⟨fun s p hp hc hreset => ?_, fun s w i hw hi => ?_⟩
  · rw [step_eq_runWord_served hp hc hreset]
    refine ⟨fun i hi => runWord_ok hi _, fun he => ?_, fun he => ?_⟩ <;> rw [runWord_error he]
    · exact congrArg _ (State.complete_eq_errorState _ (by decide))
    · exact congrArg _ (State.complete_eq_errorState _ (by decide))
  · rw [step_withFetchWord s hw, runWord_ok hi]

end Sys2Proof.Machine
end

section
/-! SUPPORT and proofs of O1, O20, O21. How every command ends. -/

namespace Sys2Proof.Machine

/-- Settles O20: a completion with an error code is one of the state before the command. -/
theorem failedCommandsCommitNothing : Obligations.FailedCommandsCommitNothing := by
  intro i s t h hcode
  rcases exec_next h with ⟨u, -, rfl⟩ | ⟨e, -, rfl⟩
  · exact absurd (State.complete_errCode u .ok) hcode
  · exact State.complete_eq_errorState s hcode

/-- Settles O21: whatever the effect, the completion writes the flags, and no effect writes ERR. -/
theorem everyCommandCompletesWithItsFlags : Obligations.EveryCommandCompletesWithItsFlags := by
  intro i s
  obtain ⟨t, hnext, hdone, hbusy, herr, -⟩ := exec_completes i s
  exact ⟨t, hnext, hdone, hbusy, herr⟩

/-- A completion with OK leaves ERR (40_control.md R111; 10_state.md R28). -/
theorem State.complete_ok_eq_okState (s : State) : s.complete .ok = okState s := by
  have herr : (s.err || ErrorCode.ok != .ok) = s.err := by simp
  rw [State.complete, okState, herr]

/-- A command whose writes are those of `t` answers `t`, completed with OK (40_control.md R111). -/
theorem exec_of_effect_ok {i : Instr} {s t : State} (h : effect i s = .ok t) : exec i s = .next (okState t) := by
  rw [exec_eq_commit, h, State.commit_ok, State.complete_ok_eq_okState]

/-- Settles O1: the first row of the opcode map, and a command without writes. -/
theorem nopOnlyCompletes : Obligations.NopOnlyCompletes :=
  ⟨encodedAs_of_mem List.mem_cons_self, fun _ => exec_of_effect_ok rfl⟩

end Sys2Proof.Machine
end

section
/-! SUPPORT and proofs of O24, O2, O3, O4, O25. The CRC32 unit: the turns of crc_step are linear, a command folds in its bytes,
and commands in a row fold in theirs one after the other. -/

namespace Sys2Proof.Machine

/-! ### The turns of crc_step (41_crc.md R130) -/

theorem crcBit_of_zero_leaving {s : Word} (h : s.getLsbD 0 = false) : crcBit s = s >>> 1 :=
  if_neg (Bool.eq_false_iff.1 h)

theorem crcBit_of_one_leaving {s : Word} (h : s.getLsbD 0 = true) : crcBit s = s >>> 1 ^^^ 0xEDB88320 := if_pos h

/-- A turn is linear: where a 1 leaves both words, the two polynomials cancel. -/
theorem crcBit_xor (x y : Word) : crcBit (x ^^^ y) = crcBit x ^^^ crcBit y := by
  have hbit : (x ^^^ y).getLsbD 0 = (x.getLsbD 0 ^^ y.getLsbD 0) := BitVec.getLsbD_xor
  have hshift : (x ^^^ y) >>> 1 = x >>> 1 ^^^ y >>> 1 := BitVec.ushiftRight_xor_distrib x y 1
  cases hx : x.getLsbD 0 <;> cases hy : y.getLsbD 0 <;> rw [hx, hy] at hbit
  case false.false =>
    rw [crcBit_of_zero_leaving hbit, crcBit_of_zero_leaving hx, crcBit_of_zero_leaving hy, hshift]
  case false.true =>
    rw [crcBit_of_one_leaving hbit, crcBit_of_zero_leaving hx, crcBit_of_one_leaving hy, hshift, BitVec.xor_assoc]
  case true.false =>
    rw [crcBit_of_one_leaving hbit, crcBit_of_one_leaving hx, crcBit_of_zero_leaving hy, hshift]
    ac_rfl
  case true.true =>
    rw [crcBit_of_zero_leaving hbit, crcBit_of_one_leaving hx, crcBit_of_one_leaving hy, hshift]
    calc x >>> 1 ^^^ y >>> 1
        = x >>> 1 ^^^ y >>> 1 ^^^ (0xEDB88320 ^^^ 0xEDB88320) := by rw [BitVec.xor_self, BitVec.xor_zero]
      _ = x >>> 1 ^^^ 0xEDB88320 ^^^ (y >>> 1 ^^^ 0xEDB88320) := by ac_rfl

theorem repeat_crcBit_xor (n : Nat) (x y : Word) :
    Nat.repeat crcBit n (x ^^^ y) = Nat.repeat crcBit n x ^^^ Nat.repeat crcBit n y := by
  induction n with
  | zero => rfl
  | succ n ih => rw [Nat.repeat, ih, crcBit_xor]; rfl

/-- While only zeros leave, the turns only shift. -/
theorem repeat_crcBit_of_low_zero {n : Nat} {x : Word} (h : ∀ i, i < n → x.getLsbD i = false) :
    Nat.repeat crcBit n x = x >>> n := by
  induction n with
  | zero => exact (BitVec.ushiftRight_zero x).symm
  | succ n ih =>
    have hout : (x >>> n).getLsbD 0 = false := by
      rw [BitVec.getLsbD_ushiftRight]
      exact h n (Nat.lt_succ_self n)
    rw [Nat.repeat, ih fun i hi => h i (Nat.lt_succ_of_lt hi), crcBit_of_zero_leaving hout, BitVec.shiftRight_add]

/-- A byte folded into the low bits does not reach the bits that a shift by eight keeps. -/
theorem xor_byte_ushiftRight_eight (x : Word) (b : Byte) : (x ^^^ b.setWidth 32) >>> 8 = x >>> 8 := by
  have hgone : b.setWidth 32 >>> 8 = 0#32 := by bv_omega
  rw [BitVec.ushiftRight_xor_distrib, hgone, BitVec.xor_zero]

/-- Eight turns of a word put together of its upper bytes and a byte: the turns act on the two apart. -/
theorem repeat_crcBit_xor_byte {x : Word} (h : ∀ i, i < 8 → x.getLsbD i = false) (b : Byte) :
    Nat.repeat crcBit 8 (x ^^^ b.setWidth 32) = x >>> 8 ^^^ crcStep 0 b := by
  have hbyte : crcStep 0 b = Nat.repeat crcBit 8 (b.setWidth 32) := congrArg (Nat.repeat crcBit 8) BitVec.zero_xor
  rw [repeat_crcBit_xor, repeat_crcBit_of_low_zero h, hbyte]

/-- Eight turns shift the upper bytes down and put the low byte through the table. -/
theorem repeat_crcBit_eight (x : Word) : Nat.repeat crcBit 8 x = x >>> 8 ^^^ crcStep 0 (x.setWidth 8) := by
  have hupper : ∀ i, i < 8 → (x ^^^ (x.setWidth 8).setWidth 32).getLsbD i = false := by
    intro i hi
    have h32 : i < 32 := by omega
    simp [hi, h32]
  calc Nat.repeat crcBit 8 x
      = Nat.repeat crcBit 8 (x ^^^ (x.setWidth 8).setWidth 32 ^^^ (x.setWidth 8).setWidth 32) := by
        rw [BitVec.xor_assoc, BitVec.xor_self, BitVec.xor_zero]
    _ = (x ^^^ (x.setWidth 8).setWidth 32) >>> 8 ^^^ crcStep 0 (x.setWidth 8) := repeat_crcBit_xor_byte hupper _
    _ = x >>> 8 ^^^ crcStep 0 (x.setWidth 8) := by rw [xor_byte_ushiftRight_eight]

/-- Settles O24: the turns are crcStep's own, and act on the word with the byte folded in. -/
theorem crcStepHasTheTableForm : Obligations.CrcStepHasTheTableForm := by
  refine fun s b => ⟨rfl, ?_⟩
  rw [← xor_byte_ushiftRight_eight s b]
  exact repeat_crcBit_eight (s ^^^ b.setWidth 32)

/-! ### The commands (41_crc.md R133 to R135) -/

/-- Settles O2: the row of the opcode map, and a command that raises no error. -/
theorem crcInitResetsTheRemainder : Obligations.CrcInitResetsTheRemainder :=
  have hrow : (⟨0x01, 0x00000001, 0xFFFFFFFF, fun _ => .crcInit⟩ : Row) ∈ opcodeMap := by simp [opcodeMap]
  ⟨encodedAs_of_mem hrow, fun _ => exec_of_effect_ok rfl⟩

/-- Settles O3: the row with its byte left open, and a command that raises no error. -/
theorem crcByteFoldsItsByte : Obligations.CrcByteFoldsItsByte :=
  have hrow : (⟨0x02, 0x00000002, 0xFF00FFFF, fun w => .crcByte (immByte w)⟩ : Row) ∈ opcodeMap := by simp [opcodeMap]
  ⟨encodedAs_of_mem hrow, fun _ _ => exec_of_effect_ok rfl⟩

/-- A command that raises an error answers the state before it, completed with that error (60_exceptions.md R243). -/
theorem exec_of_effect_error {i : Instr} {s : State} {e : ErrorCode} (h : effect i s = .error e) (he : e ≠ .ok) :
    exec i s = .next (errorState s e) := by
  rw [exec_eq_commit, h, State.commit_error, State.complete_eq_errorState s he]

theorem crcSpace_size (m : BitVec 1) (p : Params) :
    (crcSpace m).size p = if m = 0 then p.msgRamSize else p.seedRamSize := by
  unfold crcSpace
  split <;> rfl

theorem crcSpace_base (m : BitVec 1) : (crcSpace m).base = if m = 0 then 0x10000 else 0x20000 := by
  unfold crcSpace
  split <;> rfl

/-- CRC_BUF with its range past the end of its RAM. -/
theorem crcBuf_of_size_lt {m : BitVec 1} {s : State}
    (h : (crcSpace m).size s.params < s.operands.a0.toNat + s.operands.a1.toNat) : crcBuf m s = .error .badArg := if_pos h

/-- CRC_BUF with its range in its RAM folds in the bytes of the range. -/
theorem crcBuf_of_le_size {m : BitVec 1} {s : State}
    (h : s.operands.a0.toNat + s.operands.a1.toNat ≤ (crcSpace m).size s.params) :
    crcBuf m s = .ok { s with
      crcState := crcFold s.crcState ((List.range s.operands.a1.toNat).map fun i =>
        s.mem.read ((crcSpace m).base + s.operands.a0.toNat + i)) } := by
  rw [crcBuf, if_neg (Nat.not_lt.2 h), State.memRead, Memory.readBytes_eq_map]

/-- Settles O4: both ends of the range check, whose sum of naturals does not wrap. -/
theorem crcBufFoldsItsRange : Obligations.CrcBufFoldsItsRange := by
  have hrow : (⟨0x03, 0x00000003, 0xFFFFFEFF, fun w => .crcBuf (modeBit w)⟩ : Row) ∈ opcodeMap := by simp [opcodeMap]
  refine ⟨encodedAs_of_mem hrow, fun m s => ⟨fun hpast => ?_, fun hfits => ?_⟩⟩
  · rw [← crcSpace_size] at hpast
    exact exec_of_effect_error (crcBuf_of_size_lt hpast) (by decide)
  · rw [← crcSpace_size] at hfits
    exact exec_of_effect_ok (crcBuf_of_le_size hfits)

/-! ### Streaming (41_crc.md R136) -/

theorem crcFold_append (r : Word) (x y : List Byte) : crcFold r (x ++ y) = crcFold (crcFold r x) y := List.foldl_append

theorem State.crcState_eq_crcResult_xor (s : State) : s.crcState = s.crcResult ^^^ 0xFFFFFFFF := by
  rw [State.crcResult, BitVec.xor_assoc, BitVec.xor_self, BitVec.xor_zero]

/-- A command issued whose writes are those of `t` hands `t`, completed with OK, to the commands after it. -/
theorem runIssued_cons {c : Instr × Args} {s t : State} (h : effect c.1 (s.issued c.1 c.2) = .ok t)
    (cs : List (Instr × Args)) : runIssued (c :: cs) s = runIssued cs (okState t) := by
  rw [runIssued, exec_of_effect_ok h]
  exact if_pos rfl

/-- The state that a piece of a stream leaves: its bytes are folded in. -/
def State.afterPiece (s : State) (c : Instr × Args) : State :=
  { s.issued c.1 c.2 with crcState := crcFold s.crcState (crcPieceBytes s c) }

/-- A piece in range folds in its bytes. -/
theorem effect_issued_crcPiece {s : State} {c : Instr × Args} (h : crcPieceOk s c) :
    effect c.1 (s.issued c.1 c.2) = .ok (s.afterPiece c) := by
  obtain ⟨i, a⟩ := c
  cases i with
  | crcByte b => rfl
  | crcBuf m =>
    have hfits : a.a0.toNat + a.a1.toNat ≤ (crcSpace m).size s.params := by rw [crcSpace_size]; exact h
    have hfold := crcBuf_of_le_size (s := s.issued (.crcBuf m) a) hfits
    rw [crcSpace_base] at hfold
    exact hfold
  | _ => exact h.elim

/-- Pieces in range all complete with OK and fold in their bytes in order; they store nothing, so each reads the bytes that
stood in memory before the first. -/
theorem runIssued_crcPieces {pieces : List (Instr × Args)} {s : State} (h : ∀ c ∈ pieces, crcPieceOk s c)
    (hok : s.errCode = .ok) :
    ∃ t, runIssued pieces s = some t ∧ t.crcState = crcFold s.crcState (pieces.flatMap (crcPieceBytes s)) ∧
      t.errCode = .ok ∧ t.mem = s.mem := by
  induction pieces generalizing s with
  | nil => exact ⟨s, rfl, rfl, hok, rfl⟩
  | cons c cs ih =>
    obtain ⟨hc, hcs⟩ := List.forall_mem_cons.1 h
    obtain ⟨t, hrun, hcrc, herr, hmem⟩ := ih (s := okState (s.afterPiece c)) hcs rfl
    refine ⟨t, ?_, ?_, herr, hmem⟩
    · rw [runIssued_cons (effect_issued_crcPiece hc), hrun]
    · rw [List.flatMap_cons, crcFold_append]
      exact hcrc

/-- Settles O25: the pieces run from the state that CRC_INIT leaves, whose remainder is that of the empty string. -/
theorem crcCommandsStream : Obligations.CrcCommandsStream := by
  refine ⟨fun r x y => (crcFold_append r x y).symm, fun _ => rfl, fun s a pieces h => ?_⟩
  obtain ⟨t, hrun, hcrc, herr, hmem⟩ :=
    runIssued_crcPieces (s := okState { s.issued .crcInit a with crcState := 0xFFFFFFFF }) h rfl
  have hresult : t.crcResult = crc32 (pieces.flatMap (crcPieceBytes s)) := congrArg (· ^^^ 0xFFFFFFFF) hcrc
  exact ⟨t, (runIssued_cons rfl pieces).trans hrun, hresult, t.crcState_eq_crcResult_xor, herr, hmem⟩

end Sys2Proof.Machine
end

section
/-! SUPPORT and proofs of O26, O5, O6, O7, O8. The step of the PRNG and its inverse, and the commands that seed the lanes or take
one step of them. -/

namespace Sys2Proof.Machine

/-! ### The step and its inverse (42_prng.md R150) -/

theorem xor_xor_same {n : Nat} (x y : BitVec n) : x ^^^ y ^^^ y = x := by
  rw [BitVec.xor_assoc, BitVec.xor_self, BitVec.xor_zero]

/-- A word from its xor with itself shifted up by 17: the shifted copies cancel in pairs, and the last one is shifted out. -/
def unshift17 (z : DWord) : DWord := z ^^^ z <<< 17 ^^^ z <<< 34 ^^^ z <<< 51

theorem unshift17_xor_shiftLeft (z : DWord) : unshift17 z ^^^ unshift17 z <<< 17 = z := by
  have hpairs (a b c d : DWord) : a ^^^ b ^^^ c ^^^ d ^^^ (b ^^^ c ^^^ d) = a := by
    rw [BitVec.xor_assoc (a ^^^ b), BitVec.xor_assoc a, BitVec.xor_assoc b, xor_xor_same]
  have hout : z <<< 68 = 0#64 := BitVec.shiftLeft_eq_zero (by decide)
  simp only [unshift17, BitVec.shiftLeft_xor_distrib, ← BitVec.shiftLeft_add, Nat.reduceAdd, hout, BitVec.xor_zero, hpairs]

theorem unshift17_xor (x y : DWord) : unshift17 (x ^^^ y) = unshift17 x ^^^ unshift17 y := by
  have hregroup (a b c d p q r t : DWord) :
      a ^^^ p ^^^ (b ^^^ q) ^^^ (c ^^^ r) ^^^ (d ^^^ t) = a ^^^ b ^^^ c ^^^ d ^^^ (p ^^^ q ^^^ r ^^^ t) := by ac_rfl
  simp only [unshift17, BitVec.shiftLeft_xor_distrib, hregroup]

theorem unshift17_shiftLeft (x : DWord) : unshift17 (x <<< 17) = unshift17 x <<< 17 := by
  simp only [unshift17, BitVec.shiftLeft_xor_distrib, ← BitVec.shiftLeft_add, Nat.reduceAdd]

theorem unshift17_of_xor_shiftLeft (b : DWord) : unshift17 (b ^^^ b <<< 17) = b := by
  rw [unshift17_xor, unshift17_shiftLeft, unshift17_xor_shiftLeft]

/-! A rotation and its opposite: bit by bit, the two branches of the one meet those of the other. -/

theorem rotateRight_rotateLeft {n r : Nat} (h : r < n) (x : BitVec n) : (x.rotateRight r).rotateLeft r = x := by
  ext i hi
  have hr : r % n = r := Nat.mod_eq_of_lt h
  grind

theorem rotateLeft_rotateRight {n r : Nat} (h : r < n) (x : BitVec n) : (x.rotateLeft r).rotateRight r = x := by
  ext i hi
  have hr : r % n = r := Nat.mod_eq_of_lt h
  grind

/-- The lanes before a step from those after it. -/
def prngBack (l : Lanes) : Lanes :=
  let y := l.s3.rotateRight 45
  let a := l.s0 ^^^ y
  let b := unshift17 (l.s1 ^^^ l.s2)
  ⟨a, b, l.s1 ^^^ b ^^^ a, y ^^^ b⟩

theorem prngBack_prngNext (l : Lanes) : prngBack (prngNext l).2 = l := by
  obtain ⟨a, b, c, d⟩ := l
  have hb : b ^^^ (c ^^^ a) ^^^ (c ^^^ a ^^^ b <<< 17) = b ^^^ b <<< 17 := by
    rw [BitVec.xor_assoc b, ← BitVec.xor_assoc (c ^^^ a), BitVec.xor_self, BitVec.zero_xor]
  have hc : b ^^^ (c ^^^ a) ^^^ b ^^^ a = c := by
    rw [BitVec.xor_comm b, xor_xor_same, xor_xor_same]
  simp only [prngNext, prngBack, rotateLeft_rotateRight (n := 64) (r := 45) (by decide), hb, unshift17_of_xor_shiftLeft,
    xor_xor_same, hc]

theorem prngNext_prngBack (l : Lanes) : (prngNext (prngBack l)).2 = l := by
  obtain ⟨p, q, r, t⟩ := l
  have hb := unshift17_xor_shiftLeft (q ^^^ r)
  have hr : q ^^^ unshift17 (q ^^^ r) ^^^ unshift17 (q ^^^ r) <<< 17 = r := by
    rw [BitVec.xor_assoc, hb, ← BitVec.xor_assoc, BitVec.xor_self, BitVec.zero_xor]
  have hq : unshift17 (q ^^^ r) ^^^ (q ^^^ unshift17 (q ^^^ r)) = q := by
    rw [BitVec.xor_comm, xor_xor_same]
  simp only [prngNext, prngBack, xor_xor_same, hq, hr, rotateRight_rotateLeft (n := 64) (r := 45) (by decide)]

/-- Settles O26: the written formula is the step's own, and prngBack undoes the step from either side. -/
theorem prngStepIsABijection : Obligations.PrngStepIsABijection := by
  refine ⟨fun _ _ _ _ => rfl, fun l l' h => ?_, fun l' => ⟨prngBack l', prngNext_prngBack l'⟩, by decide⟩
  rw [← prngBack_prngNext l, h, prngBack_prngNext]

/-! ### Seeding (42_prng.md R151) -/

/-- Eight bytes of a digest, one by one. -/
theorem digestLane_eq (d : Digest) {k : Nat} (h : k + 7 < 32) :
    digestLane d k = d[k] ++ d[k + 1] ++ d[k + 2] ++ d[k + 3] ++ d[k + 4] ++ d[k + 5] ++ d[k + 6] ++ d[k + 7] := by
  have hcons : ∀ j n, (hj : j < 32) → (d.toList.drop j).take (n + 1) = d[j] :: (d.toList.drop (j + 1)).take n := by
    intro j n hj
    rw [List.drop_eq_getElem_cons (by simpa using hj), List.take_succ_cons, Vector.getElem_toList]
  have hbytes : (d.toList.drop k).take 8 =
      [d[k], d[k + 1], d[k + 2], d[k + 3], d[k + 4], d[k + 5], d[k + 6], d[k + 7]] := by
    rw [hcons k 7 (by omega), hcons (k + 1) 6 (by omega), hcons (k + 2) 5 (by omega), hcons (k + 3) 4 (by omega),
      hcons (k + 4) 3 (by omega), hcons (k + 5) 2 (by omega), hcons (k + 6) 1 (by omega), hcons (k + 7) 0 (by omega),
      List.take_zero]
  rw [digestLane, hbytes, ofNat_fromBE_eight]

theorem lanesOf_eq (d : Digest) : lanesOf d = bigEndianLanes d := by
  simp only [lanesOf, bigEndianLanes, Lanes.mk.injEq]
  exact ⟨digestLane_eq d (by decide), digestLane_eq d (by decide), digestLane_eq d (by decide), digestLane_eq d (by decide)⟩

theorem seedLanes_eq (p : Params) (seed : List Byte) : seedLanes p seed = bigEndianLanes (hashOf p seed) := lanesOf_eq _

/-- PRNG_SEED with a seed longer than SEED_RAM. -/
theorem prngSeed_of_size_lt {s : State} (h : s.params.seedRamSize < s.operands.a0.toNat) : prngSeed s = .error .badArg :=
  if_pos h

/-- PRNG_SEED with its seed in SEED_RAM. -/
theorem prngSeed_of_le_size {s : State} (h : s.operands.a0.toNat ≤ s.params.seedRamSize) :
    prngSeed s = .ok { s with
      lanes := bigEndianLanes (hashOf s.params ((List.range s.operands.a0.toNat).map fun i => s.mem.read (0x20000 + i))) } := by
  rw [prngSeed, if_neg (Nat.not_lt.2 h), seedLanes_eq, State.memRead, Memory.readBytes_eq_map]
  rfl

/-- Settles O5: both sides of the length check. -/
theorem prngSeedSeedsFromSeedRam : Obligations.PrngSeedSeedsFromSeedRam := by
  have hrow : (⟨0x10, 0x00000010, 0xFFFFFFFF, fun _ => .prngSeed⟩ : Row) ∈ opcodeMap := by simp [opcodeMap]
  refine ⟨encodedAs_of_mem hrow, fun s => ⟨fun hlong => ?_, fun hfits => ?_⟩⟩
  · exact exec_of_effect_error (prngSeed_of_size_lt hlong) (by decide)
  · exact exec_of_effect_ok (prngSeed_of_le_size hfits)

/-- Settles O6: the seed and the lanes, byte by byte. -/
theorem prngSeedPairSeedsFromTwoWords : Obligations.PrngSeedPairSeedsFromTwoWords := by
  have hrow : (⟨0x11, 0x00000011, 0xFFFFFFFF, fun _ => .prngSeedPair⟩ : Row) ∈ opcodeMap := by simp [opcodeMap]
  refine ⟨encodedAs_of_mem hrow, fun s => exec_of_effect_ok ?_⟩
  rw [effect, seedLanes_eq, be32_bytes, be32_bytes]
  rfl

/-! ### One step (42_prng.md R158, R159) -/

/-- Settles O7: the row of the opcode map, and one step of the lanes. -/
theorem prngNextReturnsTheRawOutput : Obligations.PrngNextReturnsTheRawOutput :=
  have hrow : (⟨0x12, 0x00000012, 0xFFFFFFFF, fun _ => .prngNext⟩ : Row) ∈ opcodeMap := by simp [opcodeMap]
  ⟨encodedAs_of_mem hrow, fun _ => exec_of_effect_ok rfl⟩

/-- Settles O8: one step, whose double is formed for every raw output. -/
theorem prngDoubleReturnsTheDouble : Obligations.PrngDoubleReturnsTheDouble :=
  have hrow : (⟨0x13, 0x00000013, 0xFFFFFFFF, fun _ => .prngDouble⟩ : Row) ∈ opcodeMap := by simp [opcodeMap]
  ⟨encodedAs_of_mem hrow, fun _ => exec_of_effect_ok rfl⟩

end Sys2Proof.Machine
end

section
/-! SUPPORT and proof of O27. Binary64 over the rationals: each operation is one rounding `fl` of the exact result, and `fl` of an
integer number of units is its RNE53. -/

namespace Sys2Proof.Machine

/-! ### The value of a pattern as a rational (00_scope.md R11) -/

theorem notFinite_iff {a : F64} : notFinite a ↔ f64Finite a = false := by
  simp only [notFinite, f64Finite, f64Exp, bne_eq_false_iff_eq, ← BitVec.toNat_inj]
  rfl

theorem not_notFinite_iff {a : F64} : ¬notFinite a ↔ f64Finite a = true := by
  rw [notFinite_iff, Bool.not_eq_false]

theorem unitsPerOne_cast : (unitsPerOne : ℚ) = 2 ^ 1074 := by
  unfold unitsPerOne
  rw [Nat.cast_pow, Nat.cast_ofNat]

theorem unitsPerOne_cast_pos : (0 : ℚ) < unitsPerOne := by exact_mod_cast unitsPerOne_pos

theorem f64Real_eq (a : F64) : f64Real a = f64Ratio a := by
  have hexp : a.extractLsb' 52 11 = 0 ↔ f64Exp a = 0 := by
    simp only [f64Exp, ← BitVec.toNat_inj]
    rfl
  rw [f64Ratio_eq, f64Real, f64Sign, unitsPerOne_cast]
  congr 1
  simp only [f64Units, hexp]
  split
  · rw [f64Frac, zpow_neg, zpow_ofNat, div_eq_mul_inv]
  · have hpow : ((f64Exp a : ℕ) : ℤ) - 1075 = ((f64Exp a - 1 : ℕ) : ℤ) - 1074 := by omega
    rw [← f64Exp, ← f64Frac, hpow, zpow_sub₀ two_ne_zero, zpow_natCast, zpow_ofNat, Nat.cast_mul, Nat.cast_pow,
      Nat.cast_ofNat, mul_div_assoc]

theorem f64Real_eq_value (a : F64) : f64Real a = f64Value a / unitsPerOne := f64Real_eq a

/-! ### One rounding (R11) -/

theorem overflowBound_cast : (overflowBound : ℚ) = 2 ^ 1024 - 2 ^ 970 := by
  unfold overflowBound
  rw [Nat.cast_sub (Nat.pow_le_pow_right (by decide) (by decide)), Nat.cast_pow, Nat.cast_pow, Nat.cast_ofNat]

/-- `fl` rounds the number it is given. -/
theorem roundsTo_fl (neg : Bool) {num den : Nat} (hd : 0 < den) :
    roundsTo ((if neg then -1 else 1) * (num / den)) (fl neg num den) := by
  have hden : (0 : ℚ) < den := by exact_mod_cast hd
  have habs : |(if neg then -1 else 1 : ℚ) * (num / den)| = num / den := by
    rw [abs_mul, abs_of_nonneg (by positivity : (0 : ℚ) ≤ num / den)]
    cases neg <;> simp
  have hbound : (2 : ℚ) ^ 1024 - 2 ^ 970 ≤ num / den ↔ overflowBound * den ≤ num := by
    rw [← overflowBound_cast, le_div_iff₀ hden]
    exact_mod_cast Iff.rfl
  refine ⟨fun h => ?_, fun h => ?_⟩
  · rw [habs, hbound] at h
    have hpos : (0 : ℚ) < num / den := by
      have : 0 < num := lt_of_lt_of_le (Nat.mul_pos overflowBound_pos hd) h
      positivity
    rw [fl_overflow neg h]
    cases neg
    · simp [not_lt.2 hpos.le]
    · simp [hpos]
  · rw [habs, ← not_le, hbound] at h
    obtain ⟨hfin, hnear⟩ := fl_nearest neg hd h
    refine ⟨not_notFinite_iff.2 hfin, fun d _ => ?_⟩
    rw [f64Real_eq, f64Real_eq]
    exact hnear d

/-! ### The operations (R11) -/

theorem f64Value_eq_zero_iff {a : F64} : f64Value a = 0 ↔ f64Units a = 0 := by
  unfold f64Value
  split <;> omega

theorem f64Real_eq_zero_iff {a : F64} : f64Real a = 0 ↔ f64Units a = 0 := by
  rw [f64Real_eq_value, div_eq_zero_iff, or_iff_left unitsPerOne_cast_pos.ne', Int.cast_eq_zero, f64Value_eq_zero_iff]

theorem sign_mul_natAbs (v : Int) : (if decide (v < 0) then -1 else 1 : ℚ) * v.natAbs = v := by
  rcases lt_or_ge v 0 with h | h
  · simp [h, Nat.cast_natAbs, abs_of_neg]
  · simp [not_lt.2 h, Nat.cast_natAbs, abs_of_nonneg h]

theorem f64add_roundsTo (a b : F64) : roundsTo (f64Real a + f64Real b) (f64add a b) := by
  have h := roundsTo_fl (decide (f64Value a + f64Value b < 0)) (num := (f64Value a + f64Value b).natAbs) unitsPerOne_pos
  rw [← mul_div_assoc, sign_mul_natAbs, Int.cast_add, add_div, ← f64Real_eq_value, ← f64Real_eq_value] at h
  exact h

theorem f64add_eq_zero {a b : F64} (h : f64Real a + f64Real b = 0) : f64add a b = 0 := by
  have hv : f64Value a + f64Value b = 0 := by
    rw [f64Real_eq_value, f64Real_eq_value, ← add_div, div_eq_zero_iff, or_iff_left unitsPerOne_cast_pos.ne'] at h
    exact_mod_cast h
  simp only [f64add, hv]
  exact fl_zero false unitsPerOne_pos

theorem f64neg_eq (a : F64) : f64neg a = a ^^^ 0x8000000000000000#64 := rfl

theorem f64neg_exp (a : F64) : f64Exp (f64neg a) = f64Exp a := by
  have hexp : (0x8000000000000000#64).extractLsb' 52 11 = 0#11 := by decide
  rw [f64Exp, f64neg_eq, BitVec.extractLsb'_xor, hexp, BitVec.xor_zero, f64Exp]

theorem f64neg_frac (a : F64) : f64Frac (f64neg a) = f64Frac a := by
  have hfrac : (0x8000000000000000#64).extractLsb' 0 52 = 0#52 := by decide
  rw [f64Frac, f64neg_eq, BitVec.extractLsb'_xor, hfrac, BitVec.xor_zero, f64Frac]

theorem f64neg_units (a : F64) : f64Units (f64neg a) = f64Units a := by
  rw [f64Units, f64Units, f64neg_exp, f64neg_frac]

theorem f64neg_sign (a : F64) : f64Sign (f64neg a) = !f64Sign a := by
  have hbit : (0x8000000000000000#64).getLsbD 63 = true := by decide
  simp only [f64Sign, f64neg_eq, BitVec.getLsbD_xor, hbit, Bool.xor_true]

theorem f64Real_neg (a : F64) : f64Real (f64neg a) = -f64Real a := by
  rw [f64Real_eq, f64Real_eq, f64Ratio_eq, f64Ratio_eq, f64neg_units, f64neg_sign]
  cases f64Sign a <;> simp

theorem f64sub_roundsTo (a b : F64) : roundsTo (f64Real a - f64Real b) (f64sub a b) := by
  rw [sub_eq_add_neg, ← f64Real_neg]
  exact f64add_roundsTo a (f64neg b)

theorem f64sub_eq_zero {a b : F64} (h : f64Real a - f64Real b = 0) : f64sub a b = 0 := by
  rw [sub_eq_add_neg, ← f64Real_neg] at h
  exact f64add_eq_zero h

theorem xor_sign_mul (s t : Bool) (x y : ℚ) :
    (if s then -1 else 1 : ℚ) * x * ((if t then -1 else 1) * y) = (if (s ^^ t) then -1 else 1) * (x * y) := by
  cases s <;> cases t <;> simp

theorem xor_sign_div (s t : Bool) (x y : ℚ) :
    (if s then -1 else 1 : ℚ) * x / ((if t then -1 else 1) * y) = (if (s ^^ t) then -1 else 1) * (x / y) := by
  cases s <;> cases t <;> simp [neg_div, div_neg]

/-- The sign of a zero product or quotient (log 11). -/
theorem fl_zero_xor (a b : F64) {den : Nat} (hd : 0 < den) :
    fl (f64Sign a ^^ f64Sign b) 0 den = if a.getLsbD 63 = b.getLsbD 63 then 0 else 0x8000000000000000 := by
  rw [fl_zero _ hd, f64Sign, f64Sign]
  cases a.getLsbD 63 <;> cases b.getLsbD 63 <;> rfl

theorem f64mul_roundsTo (a b : F64) : roundsTo (f64Real a * f64Real b) (f64mul a b) := by
  have h := roundsTo_fl (f64Sign a ^^ f64Sign b) (num := f64Units a * f64Units b) (Nat.mul_pos unitsPerOne_pos unitsPerOne_pos)
  rw [Nat.cast_mul, Nat.cast_mul, mul_div_mul_comm, ← xor_sign_mul, ← f64Ratio_eq, ← f64Ratio_eq, ← f64Real_eq,
    ← f64Real_eq] at h
  exact h

theorem f64mul_of_zero {a b : F64} (h : f64Real a * f64Real b = 0) :
    f64mul a b = if a.getLsbD 63 = b.getLsbD 63 then 0 else 0x8000000000000000 := by
  have hunits : f64Units a * f64Units b = 0 := by
    rwa [mul_eq_zero, f64Real_eq_zero_iff, f64Real_eq_zero_iff, ← Nat.mul_eq_zero] at h
  rw [f64mul, hunits, fl_zero_xor a b (Nat.mul_pos unitsPerOne_pos unitsPerOne_pos)]

theorem f64Units_pos {a : F64} (h : f64Real a ≠ 0) : 0 < f64Units a :=
  Nat.pos_of_ne_zero fun h0 => h (f64Real_eq_zero_iff.2 h0)

theorem f64div_roundsTo (a : F64) {b : F64} (hb : f64Real b ≠ 0) : roundsTo (f64Real a / f64Real b) (f64div a b) := by
  have h := roundsTo_fl (f64Sign a ^^ f64Sign b) (num := f64Units a) (f64Units_pos hb)
  rw [← div_div_div_cancel_right₀ unitsPerOne_cast_pos.ne', ← xor_sign_div, ← f64Ratio_eq, ← f64Ratio_eq, ← f64Real_eq,
    ← f64Real_eq] at h
  exact h

theorem f64div_of_zero {a b : F64} (hb : f64Real b ≠ 0) (h : f64Real a = 0) :
    f64div a b = if a.getLsbD 63 = b.getLsbD 63 then 0 else 0x8000000000000000 := by
  rw [f64div, f64Real_eq_zero_iff.1 h, fl_zero_xor a b (f64Units_pos hb)]

theorem f64IsNaN_eq_false {a : F64} (h : ¬notFinite a) : f64IsNaN a = false := by
  have hexp : f64Exp a ≠ 2047 := by simpa [f64Finite] using not_notFinite_iff.1 h
  simp [f64IsNaN, hexp]

theorem f64IsNaN_eq_true {a : F64} (h : notFinite a) (hfrac : a.extractLsb' 0 52 ≠ 0) : f64IsNaN a = true := by
  have hexp : f64Exp a = 2047 := by simpa [f64Finite] using notFinite_iff.1 h
  have hne : f64Frac a ≠ 0 := fun h0 => hfrac (BitVec.eq_of_toNat_eq h0)
  simp [f64IsNaN, hexp, hne]

theorem f64lt_iff {a b : F64} (ha : ¬notFinite a) (hb : ¬notFinite b) : f64lt a b = true ↔ f64Real a < f64Real b := by
  rw [f64Real_eq_value, f64Real_eq_value, div_lt_div_iff_of_pos_right unitsPerOne_cast_pos, Int.cast_lt]
  simp [f64lt, f64IsNaN_eq_false ha, f64IsNaN_eq_false hb]

theorem f64lt_of_nan {a b : F64} (h : (notFinite a ∧ a.extractLsb' 0 52 ≠ 0) ∨ (notFinite b ∧ b.extractLsb' 0 52 ≠ 0)) :
    f64lt a b = false := by
  rcases h with ⟨hinf, hfrac⟩ | ⟨hinf, hfrac⟩ <;> simp [f64lt, f64IsNaN_eq_true hinf hfrac]

theorem f64trunc_eq_floor {a : F64} (h : 0 ≤ f64Real a) : (f64trunc a : ℤ) = ⌊f64Real a⌋ := by
  have hval : f64Value a = f64Units a := by
    have hnonneg : 0 ≤ f64Value a := by
      rw [f64Real_eq_value, le_div_iff₀ unitsPerOne_cast_pos, zero_mul] at h
      exact_mod_cast h
    unfold f64Value at *
    split_ifs at * <;> omega
  rw [f64Real_eq_value, hval, f64trunc, Int.cast_natCast, Rat.floor_natCast_div_natCast]
  rfl

/-! ### Rounding to an integer -/

theorem roundTiesEven_eq (num den : Nat) :
    roundTiesEven num den =
      if den < 2 * (num % den) ∨ (2 * (num % den) = den ∧ num / den % 2 = 1) then num / den + 1 else num / den := rfl

/-- Rounding looks at the quotient only. -/
theorem roundTiesEven_mul_right (num den : Nat) {k : Nat} (hk : 0 < k) :
    roundTiesEven (num * k) (den * k) = roundTiesEven num den := by
  have hlt : den * k < 2 * (num % den * k) ↔ den < 2 * (num % den) := by
    rw [← Nat.mul_assoc]
    exact Nat.mul_lt_mul_right hk
  have heq : 2 * (num % den * k) = den * k ↔ 2 * (num % den) = den := by
    rw [← Nat.mul_assoc]
    exact Nat.mul_left_inj hk.ne'
  simp only [roundTiesEven_eq, Nat.mul_div_mul_right num den hk, Nat.mul_mod_mul_right, hlt, heq]

theorem roundTiesEven_one (q : Nat) : roundTiesEven q 1 = q := by
  rw [roundTiesEven_eq, Nat.mod_one, Nat.div_one, if_neg (by omega)]

theorem roundTiesEven_bounds (num den : Nat) :
    num / den ≤ roundTiesEven num den ∧ roundTiesEven num den ≤ num / den + 1 := by
  rw [roundTiesEven_eq]
  split <;> omega

/-- The rounded quotient is at most a half too large. -/
theorem two_mul_roundTiesEven_mul_le (num den : Nat) : 2 * (roundTiesEven num den * den) ≤ 2 * num + den := by
  have hdiv := Nat.div_add_mod num den
  rw [roundTiesEven_eq]
  split
  · rw [Nat.add_mul, Nat.mul_comm (num / den)]
    omega
  · rw [Nat.mul_comm (num / den)]
    omega

/-! ### RNE53 (R12) -/

theorem rne53_of_lt {v : Nat} (h : v < 2 ^ 53) : rne53 v = v := if_pos h

theorem log2_spacing_of_lt {v : Nat} (h : v < 2 ^ 53) : v.log2 - 52 = 0 := by
  rcases Nat.eq_zero_or_pos v with rfl | hpos
  · rfl
  · have := (Nat.log2_lt hpos.ne').2 h
    omega

theorem log2_spacing_of_ge {v : Nat} (h : 2 ^ 53 ≤ v) : 1 ≤ v.log2 - 52 := by
  have := (Nat.le_log2 (by omega)).2 h
  omega

/-- RNE53 rounds to a multiple of the spacing, which is 1 below 2^53. -/
theorem rne53_eq (v : Nat) : rne53 v = roundTiesEven v (2 ^ (v.log2 - 52)) * 2 ^ (v.log2 - 52) := by
  rcases Nat.lt_or_ge v (2 ^ 53) with h | h
  · rw [rne53_of_lt h, log2_spacing_of_lt h, Nat.pow_zero, roundTiesEven_one, Nat.mul_one]
  · obtain ⟨e, he⟩ : ∃ e, v.log2 - 52 = e + 1 := ⟨v.log2 - 52 - 1, by have := log2_spacing_of_ge h; omega⟩
    have hcond : ∀ r, (r > 2 ^ e ↔ 2 ^ (e + 1) < 2 * r) ∧ (r = 2 ^ e ↔ 2 * r = 2 ^ (e + 1)) := fun r => by omega
    simp only [rne53, if_neg (Nat.not_lt.2 h), he, Nat.add_sub_cancel, roundTiesEven_eq, hcond]
    split <;> rfl

/-- `v` is less than 2^53 spacings, and at least 2^52 unless the spacing is 1. -/
theorem log2_spacing (v : Nat) :
    v / 2 ^ (v.log2 - 52) < 2 ^ 53 ∧ (v.log2 - 52 = 0 ∨ 2 ^ 52 ≤ v / 2 ^ (v.log2 - 52)) := by
  constructor
  · rw [Nat.div_lt_iff_lt_mul (Nat.two_pow_pos _), ← Nat.pow_add]
    exact lt_of_lt_of_le Nat.lt_log2_self (Nat.pow_le_pow_right (by decide) (by omega))
  · rcases Nat.lt_or_ge v (2 ^ 53) with h | h
    · exact .inl (log2_spacing_of_lt h)
    · have hspacing := log2_spacing_of_ge h
      rw [Nat.le_div_iff_mul_le (Nat.two_pow_pos _), ← Nat.pow_add, show 52 + (v.log2 - 52) = v.log2 by omega]
      exact .inr (Nat.log2_self_le (by omega))

theorem rne53_two_mul (v : Nat) : rne53 (2 * v) = 2 * rne53 v := by
  rcases Nat.lt_or_ge v (2 ^ 52) with h | h
  · rw [rne53_of_lt (by omega), rne53_of_lt (by omega)]
  · have hlog : (2 * v).log2 - 52 = v.log2 - 52 + 1 := by
      have := (Nat.le_log2 (by omega)).2 h
      rw [Nat.log2_two_mul (by omega)]
      omega
    rw [rne53_eq, rne53_eq v, hlog, Nat.mul_comm 2 v, Nat.pow_succ, roundTiesEven_mul_right _ _ Nat.two_pos]
    ring

/-- A power of two does not change the significand. -/
theorem rne53_mul_two_pow (v k : Nat) : rne53 (v * 2 ^ k) = rne53 v * 2 ^ k := by
  induction k with
  | zero => simp
  | succ k ih => rw [Nat.pow_succ', Nat.mul_left_comm, rne53_two_mul, ih, Nat.mul_left_comm]

/-- What has a significand of at most 53 bits is not rounded. -/
theorem rne53_mul_two_pow_of_le {m : Nat} (h : m ≤ 2 ^ 53) (k : Nat) : rne53 (m * 2 ^ k) = m * 2 ^ k := by
  rw [rne53_mul_two_pow]
  rcases Nat.lt_or_eq_of_le h with hlt | rfl
  · rw [rne53_of_lt hlt]
  · rw [show rne53 (2 ^ 53) = 2 ^ 53 by decide +kernel]

theorem rne53_rne53 (v : Nat) : rne53 (rne53 v) = rne53 v := by
  obtain ⟨hlt, -⟩ := log2_spacing v
  obtain ⟨-, hle⟩ := roundTiesEven_bounds v (2 ^ (v.log2 - 52))
  rw [rne53_eq v]
  exact rne53_mul_two_pow_of_le (by omega) _

/-- The relative error: RNE53 adds at most one part in 2^53. -/
theorem rne53_le (v : Nat) : 2 ^ 53 * rne53 v ≤ (2 ^ 53 + 1) * v := by
  have herr := two_mul_roundTiesEven_mul_le v (2 ^ (v.log2 - 52))
  rw [← rne53_eq] at herr
  rcases (log2_spacing v).2 with h | h
  · rw [h] at herr
    omega
  · rw [Nat.le_div_iff_mul_le (Nat.two_pow_pos _)] at h
    omega

/-- RNE53 in the topmost binade of the raw outputs. -/
theorem rne53_of_log2_eq {v : Nat} (h : v.log2 = 63) : rne53 v = roundTiesEven v (2 ^ 11) * 2 ^ 11 := by
  rw [rne53_eq, h]

/-- RNE53 of a raw output that forms an index lies a spacing below 2^64. -/
theorem rne53_of_drawable {x : DWord} (h : drawable x) : rne53 x.toNat ≤ 2 ^ 64 - 2 ^ 11 := by
  rcases Nat.lt_or_ge x.toNat (2 ^ 63) with hlt | hge
  · have := rne53_le x.toNat
    omega
  · rw [rne53_of_log2_eq ((Nat.log2_eq_iff (by omega)).2 ⟨hge, x.isLt⟩), roundTiesEven_eq]
    simp only [drawable] at h
    split <;> omega

/-- The 1024 largest raw outputs round up to 2^64 (42_prng.md R152). -/
theorem rne53_of_not_drawable {x : DWord} (h : ¬drawable x) : rne53 x.toNat = 2 ^ 64 := by
  have hlt := x.isLt
  simp only [drawable, Nat.not_lt] at h
  rw [rne53_of_log2_eq ((Nat.log2_eq_iff (by omega)).2 ⟨by omega, hlt⟩), roundTiesEven_eq]
  split <;> omega

/-! ### `fl` of an integer number of units -/

theorem magUnits_flMagnitude {num den w : Nat} (hd : 0 < den) (ho : ¬overflowBound * den ≤ num)
    (hw : num * unitsPerOne = w * den) : magUnits (flMagnitude num den) = rne53 w := by
  obtain ⟨hlt, hge⟩ := log2_spacing w
  obtain ⟨hlow, hhigh⟩ := roundTiesEven_bounds w (2 ^ (w.log2 - 52))
  have hpat : flMagnitude num den = (w.log2 - 52) * 2 ^ 52 + roundTiesEven w (2 ^ (w.log2 - 52)) := by
    rw [flMagnitude_of_lt ho hw (by rw [Nat.mul_div_cancel w hd]), Nat.mul_comm den, roundTiesEven_mul_right _ _ hd]
  rw [hpat, magUnits_of (by omega) (by omega), ← rne53_eq]

theorem f64Units_fl (neg : Bool) {num den w : Nat} (hd : 0 < den) (ho : ¬overflowBound * den ≤ num)
    (hw : num * unitsPerOne = w * den) : f64Units (fl neg num den) = rne53 w := by
  rw [f64Units_eq, fl_magnitude neg hd, magUnits_flMagnitude hd ho hw]

/-! ### Integers and doubles (42_prng.md R152) -/

theorem rne53_mul_unitsPerOne (v : Nat) : rne53 (v * unitsPerOne) = rne53 v * unitsPerOne := by
  unfold unitsPerOne
  exact rne53_mul_two_pow v 1074

theorem unitsPerOne_split : unitsPerOne = 2 ^ 1010 * 2 ^ 64 := by
  unfold unitsPerOne
  rw [← Nat.pow_add]

theorem two_pow_hundred_lt_overflowBound : 2 ^ 100 < overflowBound := by
  have hsplit : (2 : Nat) ^ 1024 = 2 ^ 54 * 2 ^ 970 := by rw [← Nat.pow_add]
  have hle : (2 : Nat) ^ 100 ≤ 2 ^ 970 := Nat.pow_le_pow_right (by decide) (by decide)
  have hpos : 0 < (2 : Nat) ^ 970 := Nat.two_pow_pos _
  unfold overflowBound
  omega

theorem toF64_sign (v : Nat) : f64Sign (toF64 v) = false := f64Sign_fl false Nat.one_pos

theorem toF64_roundsTo (v : Nat) : roundsTo v (toF64 v) := by
  have h := roundsTo_fl false (num := v) Nat.one_pos
  rwa [if_neg Bool.false_ne_true, one_mul, Nat.cast_one, div_one] at h

theorem f64Units_toF64 {v : Nat} (h : v < overflowBound) : f64Units (toF64 v) = rne53 v * unitsPerOne := by
  rw [toF64, f64Units_fl false Nat.one_pos (by omega) (Nat.mul_one _).symm, rne53_mul_unitsPerOne]

theorem f64Units_toF64_of_lt {v : Nat} (h : v < 2 ^ 53) : f64Units (toF64 v) = v * unitsPerOne := by
  have hbound := two_pow_hundred_lt_overflowBound
  rw [f64Units_toF64 (by omega), rne53_of_lt h]

theorem f64Units_toF64_two_pow : f64Units (toF64 (2 ^ 64)) = 2 ^ 64 * unitsPerOne := by
  have hbound := two_pow_hundred_lt_overflowBound
  have hexact : rne53 (2 ^ 64) = 2 ^ 64 := rne53_mul_two_pow_of_le (m := 1) (by decide) 64
  rw [f64Units_toF64 (by omega), hexact]

theorem f64Real_of_sign_false {a : F64} (h : f64Sign a = false) : f64Real a = f64Units a / unitsPerOne := by
  rw [f64Real_eq, f64Ratio_eq, h, if_neg Bool.false_ne_true, one_mul]

theorem f64Real_toF64 {v : Nat} (h : v < overflowBound) : f64Real (toF64 v) = rne53 v := by
  rw [f64Real_of_sign_false (toF64_sign v), f64Units_toF64 h, Nat.cast_mul, mul_div_cancel_right₀ _ unitsPerOne_cast_pos.ne']

theorem rne53_raw_le (x : DWord) : rne53 x.toNat ≤ 2 ^ 64 := by
  by_cases h : drawable x
  · exact (rne53_of_drawable h).trans (by decide)
  · exact (rne53_of_not_drawable h).le

/-- u2d as one rounding of a quotient by 2^64. -/
theorem u2d_eq_fl (x : DWord) : u2d x = fl false (rne53 x.toNat * unitsPerOne) (2 ^ 64 * unitsPerOne) := by
  have hbound := two_pow_hundred_lt_overflowBound
  have hx := x.isLt
  rw [u2d, f64div, toF64_sign, toF64_sign, f64Units_toF64 (by omega), f64Units_toF64_two_pow, Bool.xor_false]

theorem u2d_den_pos : 0 < 2 ^ 64 * unitsPerOne := Nat.mul_pos (Nat.two_pow_pos 64) unitsPerOne_pos

theorem u2d_not_overflow (x : DWord) : ¬overflowBound * (2 ^ 64 * unitsPerOne) ≤ rne53 x.toNat * unitsPerOne := by
  have hbound := two_pow_hundred_lt_overflowBound
  have hx := rne53_raw_le x
  rw [← Nat.mul_assoc, Nat.mul_le_mul_right_iff unitsPerOne_pos]
  omega

theorem f64Sign_u2d (x : DWord) : f64Sign (u2d x) = false := by
  rw [u2d_eq_fl, f64Sign_fl false u2d_den_pos]

theorem f64Finite_u2d (x : DWord) : f64Finite (u2d x) = true := by
  rw [u2d_eq_fl]
  exact (fl_nearest false u2d_den_pos (u2d_not_overflow x)).1

/-- The quotient by 2^64 is exact. -/
theorem f64Units_u2d (x : DWord) : f64Units (u2d x) = rne53 x.toNat * 2 ^ 1010 := by
  have hunits : rne53 x.toNat * unitsPerOne * unitsPerOne = rne53 x.toNat * 2 ^ 1010 * (2 ^ 64 * unitsPerOne) := by
    rw [Nat.mul_assoc _ (2 ^ 1010), ← Nat.mul_assoc (2 ^ 1010), ← unitsPerOne_split, Nat.mul_assoc]
  rw [u2d_eq_fl, f64Units_fl false u2d_den_pos (u2d_not_overflow x) hunits, rne53_mul_two_pow, rne53_rne53]

theorem f64Real_u2d (x : DWord) : f64Real (u2d x) = rne53 x.toNat / 2 ^ 64 := by
  rw [f64Real_of_sign_false (f64Sign_u2d x), f64Units_u2d, unitsPerOne_split, Nat.cast_mul, Nat.cast_mul,
    mul_comm ((2 ^ 1010 : ℕ) : ℚ), mul_div_mul_right _ _ (Nat.cast_ne_zero.2 (Nat.two_pow_pos _).ne'), Nat.cast_pow,
    Nat.cast_ofNat]

/-- A pattern is its sign and its magnitude. -/
theorem eq_of_f64Units_eq {a b : F64} (hs : f64Sign a = f64Sign b) (hu : f64Units a = f64Units b) : a = b := by
  rw [f64Units_eq, f64Units_eq] at hu
  have hmag := magUnits_strictMono.injective hu
  rw [f64Sign_eq, f64Sign_eq, decide_eq_decide] at hs
  have := a.isLt
  have := b.isLt
  apply BitVec.eq_of_toNat_eq
  omega

theorem f64Units_one : f64Units f64One = unitsPerOne := by
  rw [f64Units_eq, show f64One.toNat % 2 ^ 63 = 1022 * 2 ^ 52 + 2 ^ 52 by decide, magUnits_of (by decide) (by decide),
    ← Nat.pow_add]
  unfold unitsPerOne
  rfl

/-- nextDouble is 1.0 for exactly the 1024 largest raw outputs. -/
theorem u2d_eq_one_iff (x : DWord) : u2d x = f64One ↔ ¬drawable x := by
  have hvalue : u2d x = f64One ↔ rne53 x.toNat = 2 ^ 64 := by
    rw [← Nat.mul_left_inj (Nat.two_pow_pos 1010).ne', ← f64Units_u2d, Nat.mul_comm (2 ^ 64), ← unitsPerOne_split,
      ← f64Units_one]
    exact ⟨fun h => by rw [h], eq_of_f64Units_eq (by rw [f64Sign_u2d]; decide)⟩
  rw [hvalue]
  refine ⟨fun h hx => ?_, rne53_of_not_drawable⟩
  have := rne53_of_drawable hx
  omega

/-! ### The obligation -/

/-- Settles O27: each operation is one `fl` of the exact result, and the quotient by 2^64 loses nothing. -/
theorem nextDoubleIsTheRoundedQuotient : Obligations.NextDoubleIsTheRoundedQuotient := by
  refine ⟨fun a b ha hb => ⟨⟨f64add_roundsTo a b, f64add_eq_zero⟩, ⟨f64sub_roundsTo a b, f64sub_eq_zero⟩,
    ⟨f64mul_roundsTo a b, f64mul_of_zero⟩, fun h => ⟨f64div_roundsTo a h, f64div_of_zero h⟩, f64lt_iff ha hb,
    f64trunc_eq_floor⟩, fun a b => f64lt_of_nan, fun v => ⟨toF64_roundsTo v, fun h => ?_⟩, fun x => ⟨⟨rfl, ?_, ?_, ?_⟩, ?_⟩⟩
  · rw [← overflowBound_cast, Nat.cast_lt] at h
    exact f64Real_toF64 h
  · exact not_notFinite_iff.2 (f64Finite_u2d x)
  · exact f64Sign_u2d x
  · exact f64Real_u2d x
  · exact u2d_eq_one_iff x

end Sys2Proof.Machine
end

section
/-! SUPPORT and proofs of O28, O29, O9, O10, O11. The index of a draw in its integer form, the shuffle by removal, and the commands
that form an index. -/

namespace Sys2Proof.Machine

/-! ### One draw (42_prng.md R153) -/

theorem two_pow_le_unitsPerOne : 2 ^ 1010 ≤ unitsPerOne := by
  unfold unitsPerOne
  exact Nat.pow_le_pow_right (by decide) (by decide)

/-- The exact product of an integer and nextDouble, in units squared. -/
theorem f64Units_mul_u2d {n : Nat} (hn : n ≤ 2 ^ 32) (x : DWord) :
    f64Units (toF64 n) * f64Units (u2d x) = n * rne53 x.toNat * 2 ^ 1010 * unitsPerOne := by
  rw [f64Units_toF64_of_lt (by omega), f64Units_u2d, Nat.mul_right_comm, ← Nat.mul_assoc n]

theorem mul_u2d_not_overflow {n : Nat} (hn : n ≤ 2 ^ 32) (x : DWord) :
    ¬overflowBound * (unitsPerOne * unitsPerOne) ≤ f64Units (toF64 n) * f64Units (u2d x) := by
  have hbound := two_pow_hundred_lt_overflowBound
  have hprod : n * rne53 x.toNat ≤ 2 ^ 32 * 2 ^ 64 := Nat.mul_le_mul hn (rne53_raw_le x)
  have hlt : n * rne53 x.toNat * 2 ^ 1010 < overflowBound * unitsPerOne :=
    Nat.mul_lt_mul_of_lt_of_le (by omega) two_pow_le_unitsPerOne unitsPerOne_pos
  rw [f64Units_mul_u2d hn, ← Nat.mul_assoc, not_le]
  exact Nat.mul_lt_mul_of_pos_right hlt unitsPerOne_pos

/-- The product of an integer and nextDouble, truncated, in its integer form. -/
theorem f64trunc_mul_u2d {n : Nat} (hn : n ≤ 2 ^ 32) (x : DWord) : f64trunc (f64mul (toF64 n) (u2d x)) = intDraw n x := by
  have hw : f64Units (toF64 n) * f64Units (u2d x) * unitsPerOne =
      n * rne53 x.toNat * 2 ^ 1010 * (unitsPerOne * unitsPerOne) := by
    rw [f64Units_mul_u2d hn, Nat.mul_assoc _ unitsPerOne]
  have hunits : f64Units (f64mul (toF64 n) (u2d x)) = rne53 (n * rne53 x.toNat) * 2 ^ 1010 := by
    rw [f64mul, f64Units_fl _ (Nat.mul_pos unitsPerOne_pos unitsPerOne_pos) (mul_u2d_not_overflow hn x) hw, rne53_mul_two_pow]
  rw [f64trunc, hunits, unitsPerOne_split, Nat.mul_comm (2 ^ 1010), Nat.mul_div_mul_right _ _ (Nat.two_pow_pos 1010), intDraw]

/-- The index is one of the `n`: the raw output's double is a whole spacing below 1, more than the product's rounding adds. -/
theorem intDraw_lt {n : Nat} (hn : 1 ≤ n) {x : DWord} (hx : drawable x) : intDraw n x < n := by
  have hprod : n * rne53 x.toNat ≤ n * (2 ^ 64 - 2 ^ 11) := Nat.mul_le_mul_left n (rne53_of_drawable hx)
  have herr := rne53_le (n * rne53 x.toNat)
  rw [intDraw, Nat.div_lt_iff_lt_mul (Nat.two_pow_pos 64)]
  omega

theorem nextInt_of_not_drawable {l : Lanes} (h : ¬drawable (rawAt l 0)) (low high : Nat) :
    nextInt l low high = .error .rngRange :=
  if_pos ((u2d_eq_one_iff _).2 h)

theorem nextInt_of_drawable {l : Lanes} (h : drawable (rawAt l 0)) {low high : Nat} (hn : high - low + 1 ≤ 2 ^ 32) :
    nextInt l low high = .ok ⟨low + intDraw (high - low + 1) (rawAt l 0), rawAt l 0, lanesAfter l 1⟩ := by
  rw [← f64trunc_mul_u2d hn]
  exact if_neg fun h1 => (u2d_eq_one_iff _).1 h1 h

/-- A draw lies inside its bounds. -/
theorem add_intDraw_le {low high : Nat} (hle : low ≤ high) {x : DWord} (h : drawable x) :
    low + intDraw (high - low + 1) x ≤ high := by
  have := intDraw_lt (n := high - low + 1) (by omega) h
  omega

/-- Settles O28: the integer form and its bound. -/
theorem nextIntHasTheIntegerForm : Obligations.NextIntHasTheIntegerForm := fun _ low high hle hlt =>
  ⟨fun h => nextInt_of_not_drawable h low high, fun h => ⟨nextInt_of_drawable h (by omega), add_intDraw_le hle h⟩⟩

/-! ### Draws of the host stream (42_prng.md R160, R161) -/

theorem drawHostInt_of_not_drawable {s : State} (h : ¬drawable (rawAt s.lanes 0)) (low high : Nat) :
    drawHostInt low high s = .error .rngRange := by
  rw [drawHostInt, nextInt_of_not_drawable h]

theorem drawHostInt_of_drawable {s : State} (h : drawable (rawAt s.lanes 0)) {low high : Nat} (hn : high - low + 1 ≤ 2 ^ 32) :
    drawHostInt low high s = .ok { s with
      lanes := lanesAfter s.lanes 1
      prngOut := rawAt s.lanes 0
      res0 := BitVec.ofNat 32 (low + intDraw (high - low + 1) (rawAt s.lanes 0))
      res1 := 0 } := by
  rw [drawHostInt, nextInt_of_drawable h hn]

theorem prngInt_of_lt {s : State} (h : s.operands.a1.toNat < s.operands.a0.toNat) : prngInt s = .error .badArg := if_pos h

theorem prngInt_of_le {s : State} (h : s.operands.a0.toNat ≤ s.operands.a1.toNat) :
    prngInt s = drawHostInt s.operands.a0.toNat s.operands.a1.toNat s := if_neg (Nat.not_lt.2 h)

/-- Settles O9: the check of the bounds, then one draw between them. -/
theorem prngIntDrawsBetweenItsBounds : Obligations.PrngIntDrawsBetweenItsBounds := by
  have hrow : (⟨0x14, 0x00000014, 0xFFFFFFFF, fun _ => .prngInt⟩ : Row) ∈ opcodeMap := by simp [opcodeMap]
  refine ⟨encodedAs_of_mem hrow, fun s => ⟨fun hlt => ?_, fun hle h => ?_, fun hle h => ⟨?_, add_intDraw_le hle h⟩⟩⟩
  · exact exec_of_effect_error (prngInt_of_lt hlt) (by decide)
  · exact exec_of_effect_error ((prngInt_of_le hle).trans (drawHostInt_of_not_drawable h _ _)) (by decide)
  · have hhigh := s.operands.a1.isLt
    exact exec_of_effect_ok ((prngInt_of_le hle).trans (drawHostInt_of_drawable h (by omega)))

/-- Settles O10: one draw between 0 and 255. -/
theorem prngByteDrawsAByte : Obligations.PrngByteDrawsAByte := by
  have hrow : (⟨0x15, 0x00000015, 0xFFFFFFFF, fun _ => .prngByte⟩ : Row) ∈ opcodeMap := by simp [opcodeMap]
  refine ⟨encodedAs_of_mem hrow, fun s => ⟨fun h => ?_, fun h => ⟨?_, ?_⟩⟩⟩
  · exact exec_of_effect_error (drawHostInt_of_not_drawable h 0 255) (by decide)
  · have hdraw := drawHostInt_of_drawable h (low := 0) (high := 255) (by decide)
    rw [Nat.zero_add] at hdraw
    exact exec_of_effect_ok hdraw
  · exact Nat.le_of_lt_succ (intDraw_lt (n := 256) (by decide) h)

/-! ### The shuffle (42_prng.md R154) -/

theorem lanesAfter_one (l : Lanes) (k : Nat) : lanesAfter (lanesAfter l 1) k = lanesAfter l (k + 1) := by
  induction k with
  | zero => rfl
  | succ k ih => rw [lanesAfter, ih, ← lanesAfter]

theorem rawAt_lanesAfter_one (l : Lanes) (k : Nat) : rawAt (lanesAfter l 1) k = rawAt l (k + 1) := by
  rw [rawAt, lanesAfter_one, rawAt]

/-- The raw output of the last of `k` steps, or the one before them. -/
def lastRaw (l : Lanes) (x : DWord) : Nat → DWord
  | 0 => x
  | k + 1 => rawAt l k

theorem lastRaw_lanesAfter_one (l : Lanes) (x : DWord) (k : Nat) :
    lastRaw (lanesAfter l 1) (rawAt l 0) k = lastRaw l x (k + 1) := by
  cases k with
  | zero => rfl
  | succ k => exact rawAt_lanesAfter_one l k

section
variable {k : Nat} {l : Lanes} {rem : List Nat}

/-- A turn of the shuffle draws over all the entries that remain. -/
theorem nextInt_remaining (hlen : rem.length = k + 1) (hk : k < 2 ^ 32) (h : drawable (rawAt l 0)) :
    nextInt l 0 (rem.length - 1) = .ok ⟨intDraw rem.length (rawAt l 0), rawAt l 0, lanesAfter l 1⟩ := by
  rw [nextInt_of_drawable h (by omega), Nat.zero_add, Nat.sub_zero, Nat.sub_add_cancel (by omega)]

theorem length_eraseIdx_intDraw (hlen : rem.length = k + 1) (h : drawable (rawAt l 0)) :
    (rem.eraseIdx (intDraw rem.length (rawAt l 0))).length = k := by
  rw [List.length_eraseIdx_of_lt (intDraw_lt (by omega) h), hlen, Nat.add_sub_cancel]

theorem drawable_lanesAfter_one (h : ∀ j, j < k + 1 → drawable (rawAt l j)) :
    ∀ j, j < k → drawable (rawAt (lanesAfter l 1) j) := fun j hj => by
  rw [rawAt_lanesAfter_one]
  exact h (j + 1) (Nat.succ_lt_succ hj)

theorem shuffleLoop_of_drawable {x : DWord} (hlen : rem.length = k) (hk : k < 2 ^ 32)
    (h : ∀ j, j < k → drawable (rawAt l j)) :
    shuffleLoop k l x rem = .ok ⟨removal l k rem, lastRaw l x k, lanesAfter l k⟩ := by
  induction k generalizing l x rem with
  | zero => rfl
  | succ k ih =>
    have h0 : drawable (rawAt l 0) := h 0 (Nat.succ_pos k)
    have hrest := ih (x := rawAt l 0) (length_eraseIdx_intDraw hlen h0) (by omega) (drawable_lanesAfter_one h)
    simp only [shuffleLoop, nextInt_remaining hlen (by omega) h0, hrest, lastRaw_lanesAfter_one l x, lanesAfter_one, removal]

theorem shuffleLoop_of_not_drawable {x : DWord} (hlen : rem.length = k) (hk : k < 2 ^ 32)
    (h : ∃ j, j < k ∧ ¬drawable (rawAt l j)) : shuffleLoop k l x rem = .error .rngRange := by
  induction k generalizing l x rem with
  | zero => simp at h
  | succ k ih =>
    by_cases h0 : drawable (rawAt l 0)
    · have hlater : ∃ j, j < k ∧ ¬drawable (rawAt (lanesAfter l 1) j) := by
        obtain ⟨j, hj, hx⟩ := h
        cases j with
        | zero => exact absurd h0 hx
        | succ j => exact ⟨j, by omega, by rwa [rawAt_lanesAfter_one]⟩
      have hrest := ih (x := rawAt l 0) (length_eraseIdx_intDraw hlen h0) (by omega) hlater
      simp only [shuffleLoop, nextInt_remaining hlen (by omega) h0, hrest]
    · simp only [shuffleLoop, nextInt_of_not_drawable h0]

/-- Removals in range take every entry once. -/
theorem removal_perm (hlen : rem.length = k) (h : ∀ j, j < k → drawable (rawAt l j)) : (removal l k rem).Perm rem := by
  induction k generalizing l rem with
  | zero => rw [List.eq_nil_of_length_eq_zero hlen, removal]
  | succ k ih =>
    have h0 : drawable (rawAt l 0) := h 0 (Nat.succ_pos k)
    have hlt : intDraw rem.length (rawAt l 0) < rem.length := intDraw_lt (by omega) h0
    have hrest := ih (length_eraseIdx_intDraw hlen h0) (drawable_lanesAfter_one h)
    rw [removal, List.getD_eq_getElem _ _ hlt]
    exact (hrest.cons _).trans (List.getElem_cons_eraseIdx_perm hlt)

end

section
variable {l : Lanes} {n : Nat}

theorem shuffle_of_drawable (x : DWord) (hn : 1 ≤ n) (hlt : n < 2 ^ 32) (h : ∀ j, j < n → drawable (rawAt l j)) :
    shuffle l x n = .ok ⟨removal l n (List.range n), rawAt l (n - 1), lanesAfter l n⟩ := by
  obtain ⟨k, rfl⟩ := Nat.exists_eq_add_of_le' hn
  exact shuffleLoop_of_drawable List.length_range hlt h

theorem shuffle_of_not_drawable (x : DWord) (hlt : n < 2 ^ 32) (h : ∃ j, j < n ∧ ¬drawable (rawAt l j)) :
    shuffle l x n = .error .rngRange := shuffleLoop_of_not_drawable List.length_range hlt h

theorem removal_range_perm (h : ∀ j, j < n → drawable (rawAt l j)) : (removal l n (List.range n)).Perm (List.range n) :=
  removal_perm List.length_range h

end

/-- Settles O29: the turns of the loop are the removals. -/
theorem shufflePermutesByRemoval : Obligations.ShufflePermutesByRemoval := fun _ x _ hn hlt =>
  ⟨shuffle_of_not_drawable x hlt, fun h => ⟨shuffle_of_drawable x hn hlt h, removal_range_perm h⟩⟩

/-! ### PRNG_SHUFFLE (42_prng.md R162) -/

/-- An entry of SEL_RAM after a selection is stored (10_state.md R55). -/
theorem State.writeSel_sel {s : State} (h : s.mem.wf = true) (sel : List Nat) (seq : Word) {j : Nat} (hj : j < sel.length) :
    (s.writeSel sel seq).sel j = BitVec.ofNat 32 sel[j] := by
  have hread := Memory.readBytes_writeBytes_bytes32 h (Ram.base .selRam) (selEntries sel) (i := j)
    (by rwa [selEntries, List.length_map])
  simp only [selEntries, List.getElem_map] at hread
  have hentry : (s.writeSel sel seq).memRead .selRam (4 * j) 4 = toLE 4 (BitVec.ofNat 32 sel[j]).toNat := hread
  have hlt := (BitVec.ofNat 32 sel[j]).isLt
  rw [State.sel, State.entry32, hentry, fromLE_toLE, Nat.mod_eq_of_lt (by omega), BitVec.ofNat_toNat, BitVec.setWidth_eq]

section
variable {perm : List Nat} {n k : Nat} (hperm : perm.Perm (List.range n)) (hk : k ≤ n)
include hperm hk

theorem length_take_of_perm_range : (perm.take k).length = k := by
  rw [List.length_take, hperm.length_eq, List.length_range, Nat.min_eq_left hk]

/-- The entries of SEL_RAM after the first of a permutation are stored: each fits its word. -/
theorem State.writeSel_take_sel {s : State} (h : s.mem.wf = true) (hn : n < 2 ^ 32) {j : Nat} (hj : j < k) :
    ((s.writeSel (perm.take k) 0).sel j).toNat = perm.getD j 0 := by
  have htake : j < (perm.take k).length := by rwa [length_take_of_perm_range hperm hk]
  have hlen : j < perm.length := htake.trans_le (List.length_take_le' k perm)
  have hlt : perm[j] < n := List.mem_range.1 (hperm.mem_iff.1 (List.getElem_mem hlen))
  rw [State.writeSel_sel h _ _ htake, List.getElem_take, List.getD_eq_getElem _ _ hlen, BitVec.toNat_ofNat,
    Nat.mod_eq_of_lt (hlt.trans hn)]

end

/-- A selection is stored in its entries of SEL_RAM alone. -/
theorem State.sameOutside_writeSel (s : State) {sel : List Nat} {k : Nat} (hlen : sel.length = k) (seq : Word) :
    sameOutside s (s.writeSel sel seq) 0x40000 (4 * k) := by
  intro a ha
  rw [← hlen, ← bytes32_selEntries_length] at ha
  exact Memory.read_writeBytes_outside s.mem (bytes32 (selEntries sel)) ha

theorem State.writeSel_eq_of_length (s : State) {sel : List Nat} {k : Word} (hlen : sel.length = k.toNat) (seq : Word) :
    s.writeSel sel seq = { s with mem := (s.writeSel sel seq).mem, selCount := k, selSeq := seq } := by
  have hcount : BitVec.ofNat 32 sel.length = k := by rw [hlen, BitVec.ofNat_toNat, BitVec.setWidth_eq]
  simp only [State.writeSel, State.memWrite, hcount]

theorem prngShuffle_of_bad {s : State} (h : s.operands.a0.toNat = 0 ∨ s.params.maxFrags < s.operands.a0.toNat ∨
    s.operands.a0.toNat < s.operands.a1.toNat) : prngShuffle s = .error .badArg := by
  simp only [prngShuffle]
  split
  · rfl
  · rw [if_pos (by omega)]

section
variable {s : State} (hrange : ¬(s.operands.a0.toNat = 0 ∨ s.params.maxFrags < s.operands.a0.toNat))
  (hk : ¬s.operands.a0.toNat < s.operands.a1.toNat)
include hrange hk

theorem prngShuffle_of_error {e : ErrorCode} (h : shuffle s.lanes s.prngOut s.operands.a0.toNat = .error e) :
    prngShuffle s = .error e := by
  simp only [prngShuffle, if_neg hrange, if_neg hk, h]

theorem prngShuffle_of_ok {r : Shuffled} (h : shuffle s.lanes s.prngOut s.operands.a0.toNat = .ok r) :
    prngShuffle s = .ok { s.writeSel (r.perm.take s.operands.a1.toNat) 0 with
      lanes := r.lanes, prngOut := r.raw, res0 := s.operands.a1 } := by
  simp only [prngShuffle, if_neg hrange, if_neg hk, h]

end

/-- Settles O11: the checks in their order, then the shuffle, whose first entries are stored. -/
theorem prngShuffleWritesItsSelection : Obligations.PrngShuffleWritesItsSelection := by
  have hrow : (⟨0x16, 0x00000016, 0xFFFFFFFF, fun _ => .prngShuffle⟩ : Row) ∈ opcodeMap := by simp [opcodeMap]
  refine ⟨encodedAs_of_mem hrow, fun s _ hwf => ⟨fun hbad => ?_, fun hn hmax hk => ⟨fun hx => ?_, fun hx => ?_⟩⟩⟩
  · exact exec_of_effect_error (prngShuffle_of_bad hbad) (by decide)
  · have hshuffle := shuffle_of_not_drawable s.prngOut s.operands.a0.isLt hx
    exact exec_of_effect_error (prngShuffle_of_error (by omega) (by omega) hshuffle) (by decide)
  · have hshuffle := shuffle_of_drawable s.prngOut hn s.operands.a0.isLt hx
    have hexec := exec_of_effect_ok (i := .prngShuffle) (prngShuffle_of_ok (by omega) (by omega) hshuffle)
    have hperm := removal_range_perm hx
    have hlen := length_take_of_perm_range hperm hk
    have hsel := s.writeSel_eq_of_length hlen 0
    have hsame := s.sameOutside_writeSel hlen 0
    exact ⟨_, hexec, fun j hj => State.writeSel_take_sel hperm hk hwf s.operands.a0.isLt hj, hsame, by rw [hsel]; rfl⟩

end Sys2Proof.Machine
end

section
/-! SUPPORT and proof of O31. The order of binary64 values: a rounding between two finite values stays between them, so sums of
weights grow, and the weights of R180 keep their sum and their products small. -/

namespace Sys2Proof.Machine

/-! ### Finite values and zeros by their reals (00_scope.md R11) -/

theorem abs_f64Real (a : F64) : |f64Real a| = f64Units a / unitsPerOne := by
  have hnonneg : (0 : ℚ) ≤ f64Units a / unitsPerOne := by positivity
  rw [f64Real_eq, f64Ratio_eq, abs_mul, abs_of_nonneg hnonneg]
  split <;> simp

/-- The overflow bound lies strictly between the finite values and the infinities. -/
theorem notFinite_iff_le_abs {a : F64} : notFinite a ↔ (2 : ℚ) ^ 1024 - 2 ^ 970 ≤ |f64Real a| := by
  have hmiddle := overflowBound_middle
  have hgap : magUnits (infMagnitude - 1) < magUnits infMagnitude :=
    magUnits_strictMono (Nat.sub_lt infMagnitude_pos Nat.one_pos)
  have hunits : notFinite a ↔ overflowBound * unitsPerOne ≤ f64Units a := by
    rw [notFinite_iff, ← Bool.not_eq_true, f64Finite_iff, not_lt, f64Units_eq]
    constructor
    · intro h
      have := magUnits_strictMono.monotone h
      omega
    · intro h
      by_contra hlt
      have := magUnits_strictMono.monotone (Nat.le_sub_one_of_lt (not_le.1 hlt))
      omega
  rw [hunits, abs_f64Real, ← overflowBound_cast, le_div_iff₀ unitsPerOne_cast_pos]
  exact_mod_cast Iff.rfl

theorem f64Units_eq_zero_iff {a : F64} : f64Units a = 0 ↔ a.extractLsb' 0 63 = 0 := by
  rw [← BitVec.toNat_inj, BitVec.extractLsb'_toNat, Nat.shiftRight_zero, f64Units_eq]
  exact ⟨fun h => magUnits_strictMono.injective (h.trans magUnits_zero.symm), fun h =>
    (congrArg magUnits h).trans magUnits_zero⟩

theorem belowZero_iff {a : F64} : belowZero a ↔ f64Real a < 0 := by
  have hunits : (0 : ℚ) ≤ f64Units a / unitsPerOne := by positivity
  rw [belowZero, ne_eq, ← f64Units_eq_zero_iff, ← f64Real_eq_zero_iff, f64Real_eq, f64Ratio_eq, f64Sign]
  cases a.getLsbD 63
  · simpa using hunits
  · simpa using (hunits.lt_iff_ne.trans ne_comm).symm

theorem not_notFinite_zero : ¬notFinite 0 := by decide

theorem f64Real_zero : f64Real 0 = 0 := f64Real_eq_zero_iff.2 (f64Units_eq_zero_iff.2 rfl)

theorem not_notFinite_one : ¬notFinite f64One := by decide

theorem f64Real_one : f64Real f64One = 1 := by
  rw [f64Real_of_sign_false (by decide), f64Units_one, div_self unitsPerOne_cast_pos.ne']

theorem f64Real_toF64_of_lt {v : Nat} (h : v < 2 ^ 53) : f64Real (toF64 v) = v := by
  have hbound := two_pow_hundred_lt_overflowBound
  rw [f64Real_toF64 (by omega), rne53_of_lt h]

theorem not_notFinite_toF64 {v : Nat} (h : v < 2 ^ 53) : ¬notFinite (toF64 v) := by
  have hbound := two_pow_hundred_lt_overflowBound
  have hlt : v < overflowBound := by omega
  rw [notFinite_iff_le_abs, f64Real_toF64_of_lt h, Nat.abs_cast, ← overflowBound_cast, not_le]
  exact_mod_cast hlt

/-! ### Rounding keeps the order -/

section
variable {r : ℚ} {c : F64} (h : roundsTo r c)
include h

/-- A rounding is an infinity exactly where it overflows. -/
theorem notFinite_iff_of_roundsTo : notFinite c ↔ (2 : ℚ) ^ 1024 - 2 ^ 970 ≤ |r| := by
  refine ⟨fun hc => ?_, fun ho => ?_⟩
  · by_contra hlt
    exact (h.2 (not_le.1 hlt)).1 hc
  · rw [h.1 ho]
    split <;> decide

/-- No finite value is nearer than a finite rounding. -/
theorem abs_sub_le_of_roundsTo (hc : ¬notFinite c) {d : F64} (hd : ¬notFinite d) : |f64Real c - r| ≤ |f64Real d - r| :=
  ((h.2 (not_le.1 fun ho => hc ((notFinite_iff_of_roundsTo h).2 ho))).2 d hd).1

/-- A finite rounding of a number that lies above a finite value lies above it. -/
theorem le_of_roundsTo (hc : ¬notFinite c) {d : F64} (hd : ¬notFinite d) (hle : f64Real d ≤ r) :
    f64Real d ≤ f64Real c := by
  have hnear := abs_sub_le_of_roundsTo h hc hd
  by_contra hlt
  rw [abs_of_nonpos (sub_nonpos.2 hle), abs_of_nonpos (by linarith)] at hnear
  linarith

theorem roundsTo_le (hc : ¬notFinite c) {d : F64} (hd : ¬notFinite d) (hle : r ≤ f64Real d) :
    f64Real c ≤ f64Real d := by
  have hnear := abs_sub_le_of_roundsTo h hc hd
  by_contra hlt
  rw [abs_of_nonneg (sub_nonneg.2 hle), abs_of_nonneg (by linarith)] at hnear
  linarith

/-- A number between two finite values rounds to a finite value between them. -/
theorem roundsTo_between {lo hi : F64} (hlo : ¬notFinite lo) (hhi : ¬notFinite hi) (hle : f64Real lo ≤ r)
    (hge : r ≤ f64Real hi) : ¬notFinite c ∧ f64Real lo ≤ f64Real c ∧ f64Real c ≤ f64Real hi := by
  have hc : ¬notFinite c := by
    rw [notFinite_iff_of_roundsTo h]
    rw [notFinite_iff_le_abs] at hlo hhi
    have := abs_le_max_abs_abs hle hge
    exact not_le.2 (this.trans_lt (max_lt (not_le.1 hlo) (not_le.1 hhi)))
  exact ⟨hc, le_of_roundsTo h hc hlo hle, roundsTo_le h hc hhi hge⟩

theorem nonneg_of_roundsTo (hr : 0 ≤ r) : 0 ≤ f64Real c := by
  by_cases hc : notFinite c
  · rw [h.1 ((notFinite_iff_of_roundsTo h).1 hc), if_neg (not_lt.2 hr), ← not_lt, ← belowZero_iff]
    decide
  · rw [← f64Real_zero] at hr ⊢
    exact le_of_roundsTo h hc not_notFinite_zero hr

/-- Zero is a finite value, so a finite rounding at most doubles a number. -/
theorem roundsTo_le_two_mul (hc : ¬notFinite c) (hr : 0 ≤ r) : f64Real c ≤ 2 * r := by
  have hnear := abs_sub_le_of_roundsTo h hc not_notFinite_zero
  rw [f64Real_zero, zero_sub, abs_neg, abs_of_nonneg hr] at hnear
  linarith [le_abs_self (f64Real c - r)]

end

/-! ### Sums of weights (43_sampler.md R181) -/

/-- A finite sum of two values that are not below zero lies above both. -/
theorem le_f64add {a b : F64} (ha : 0 ≤ f64Real a) (hb : 0 ≤ f64Real b) (h : ¬notFinite (f64add a b)) :
    (¬notFinite a ∧ f64Real a ≤ f64Real (f64add a b)) ∧ f64Real b ≤ f64Real (f64add a b) := by
  have hround := f64add_roundsTo a b
  have hlt := h
  rw [notFinite_iff_of_roundsTo hround, not_le, abs_of_nonneg (add_nonneg ha hb)] at hlt
  have hafin : ¬notFinite a := by
    rw [notFinite_iff_le_abs, not_le, abs_of_nonneg ha]
    exact (le_add_of_nonneg_right hb).trans_lt hlt
  have hbfin : ¬notFinite b := by
    rw [notFinite_iff_le_abs, not_le, abs_of_nonneg hb]
    exact (le_add_of_nonneg_left ha).trans_lt hlt
  exact ⟨⟨hafin, le_of_roundsTo hround h hafin (by linarith)⟩, le_of_roundsTo hround h hbfin (by linarith)⟩

/-- A finite sum from left to right lies above its start and above every weight. -/
theorem le_foldl_f64add {l : List F64} {s : F64} (hs : 0 ≤ f64Real s) (hl : ∀ a ∈ l, 0 ≤ f64Real a)
    (h : ¬notFinite (l.foldl f64add s)) :
    (¬notFinite s ∧ f64Real s ≤ f64Real (l.foldl f64add s)) ∧ ∀ a ∈ l, f64Real a ≤ f64Real (l.foldl f64add s) := by
  induction l generalizing s with
  | nil => exact ⟨⟨h, le_rfl⟩, by simp⟩
  | cons x l ih =>
    obtain ⟨hx, hl⟩ := List.forall_mem_cons.1 hl
    have hsum : 0 ≤ f64Real (f64add s x) := nonneg_of_roundsTo (f64add_roundsTo s x) (add_nonneg hs hx)
    obtain ⟨⟨hfin, hle⟩, hrest⟩ := ih hsum hl h
    obtain ⟨⟨hsfin, hsle⟩, hxle⟩ := le_f64add hs hx hfin
    exact ⟨⟨hsfin, hsle.trans hle⟩, List.forall_mem_cons.2 ⟨hxle.trans hle, hrest⟩⟩

/-- Weights up to 1 sum up to at most their number, which is finite. -/
theorem not_notFinite_foldl_f64add {l : List F64} {s : F64} {k : Nat} (hs : 0 ≤ f64Real s ∧ f64Real s ≤ k)
    (hl : ∀ a ∈ l, 0 ≤ f64Real a ∧ f64Real a ≤ 1) (hfin : ¬notFinite s) (hk : k + l.length < 2 ^ 53) :
    ¬notFinite (l.foldl f64add s) := by
  induction l generalizing s k with
  | nil => exact hfin
  | cons x l ih =>
    obtain ⟨hx, hl⟩ := List.forall_mem_cons.1 hl
    rw [List.length_cons] at hk
    have hreal := f64Real_toF64_of_lt (v := k + 1) (by omega)
    push_cast at hreal
    obtain ⟨hfin, hle, hge⟩ := roundsTo_between (f64add_roundsTo s x) not_notFinite_zero
      (not_notFinite_toF64 (v := k + 1) (by omega)) (by rw [f64Real_zero]; linarith) (by linarith)
    rw [f64Real_zero] at hle
    exact ih (k := k + 1) ⟨hle, by push_cast; linarith⟩ hl hfin (by omega)

/-! ### The checks of R181 -/

/-- The weights pass when all are finite and not below zero, their sum is finite and not zero, and their products with `n` are
finite. -/
theorem not_badWeights_iff {w : List F64} {n : Nat} :
    ¬badWeights w n ↔ (∀ a ∈ w, ¬notFinite a ∧ 0 ≤ f64Real a) ∧
      (¬notFinite (w.foldl f64add 0) ∧ f64Real (w.foldl f64add 0) ≠ 0) ∧ ∀ a ∈ w, ¬notFinite (f64mul a (toF64 n)) := by
  have hzero : (w.foldl f64add 0).extractLsb' 0 63 = 0 ↔ f64Real (w.foldl f64add 0) = 0 :=
    f64Units_eq_zero_iff.symm.trans f64Real_eq_zero_iff.symm
  simp only [badWeights, belowZero_iff, hzero, not_or, not_exists, not_and, not_lt, ne_eq]

theorem f64Value_neg_iff {a : F64} : f64Value a < 0 ↔ f64Real a < 0 := by
  rw [f64Real_eq_value, div_lt_iff₀ unitsPerOne_cast_pos, zero_mul, Int.cast_lt_zero]

/-- Check 1 of R181 by the real value of a weight. -/
theorem badWeight_eq_false_iff {a : F64} : badWeight a = false ↔ ¬notFinite a ∧ 0 ≤ f64Real a := by
  rw [badWeight, Bool.or_eq_false_iff, Bool.not_eq_false', ← not_notFinite_iff, decide_eq_false_iff_not, f64Value_neg_iff,
    not_lt]

/-- The model's checks pass exactly the weights that fail none of R181's. -/
theorem weightsOk_iff {w : List F64} {n : Nat} : weightsOk w n = true ↔ ¬badWeights w n := by
  have hweights : (!w.any badWeight) = true ↔ ∀ a ∈ w, ¬notFinite a ∧ 0 ≤ f64Real a := by
    simp only [Bool.not_eq_true', List.any_eq_false, Bool.not_eq_true, badWeight_eq_false_iff]
  have hsum : (f64Units (weightSum w) != 0) = true ↔ f64Real (w.foldl f64add 0) ≠ 0 := by
    rw [bne_iff_ne, ne_eq, ← f64Real_eq_zero_iff, weightSum]
  have hproducts : w.all (fun a => f64Finite (f64mul a (toF64 n))) = true ↔ ∀ a ∈ w, ¬notFinite (f64mul a (toF64 n)) := by
    simp only [List.all_eq_true, not_notFinite_iff]
  rw [not_badWeights_iff, weightsOk, Bool.and_eq_true, Bool.and_eq_true, Bool.and_eq_true, hweights, hsum, hproducts,
    ← not_notFinite_iff, weightSum, and_assoc]

/-! ### The harmonic weights (R180) -/

/-- A harmonic weight is finite, and lies between 0 and 1. -/
theorem harmonicWeight_range {k : Nat} (hpos : 1 ≤ k) (hk : k < 2 ^ 53) :
    ¬notFinite (f64div f64One (toF64 k)) ∧ 0 ≤ f64Real (f64div f64One (toF64 k)) ∧ f64Real (f64div f64One (toF64 k)) ≤ 1 := by
  have hreal := f64Real_toF64_of_lt hk
  have hk1 : (1 : ℚ) ≤ k := by exact_mod_cast hpos
  have hround := f64div_roundsTo f64One (b := toF64 k) (by rw [hreal]; positivity)
  rw [hreal, f64Real_one] at hround
  have h := roundsTo_between hround not_notFinite_zero not_notFinite_one (by rw [f64Real_zero]; positivity)
    (by rw [f64Real_one]; exact div_le_one_of_le₀ hk1 (by positivity))
  rwa [f64Real_zero, f64Real_one] at h

/-- The first harmonic weight is 1. -/
theorem f64Real_first_harmonicWeight : f64Real (f64div f64One (toF64 1)) = 1 := by
  have hreal : f64Real (toF64 1) = 1 := by simpa using f64Real_toF64_of_lt (v := 1) (by decide)
  have hround := f64div_roundsTo f64One (b := toF64 1) (by rw [hreal]; exact one_ne_zero)
  rw [hreal, f64Real_one, div_one] at hround
  obtain ⟨-, hle, hge⟩ := roundsTo_between hround not_notFinite_one not_notFinite_one f64Real_one.le f64Real_one.ge
  rw [f64Real_one] at hle hge
  exact le_antisymm hge hle

/-- A weight up to 1 times `n` is at most `n`, which is finite. -/
theorem not_notFinite_mul_toF64 {a : F64} (ha : 0 ≤ f64Real a ∧ f64Real a ≤ 1) {n : Nat} (hn : n < 2 ^ 53) :
    ¬notFinite (f64mul a (toF64 n)) := by
  have hreal := f64Real_toF64_of_lt hn
  have hround := f64mul_roundsTo a (toF64 n)
  rw [hreal] at hround
  refine (roundsTo_between hround not_notFinite_zero (not_notFinite_toF64 hn) ?_ ?_).1
  · rw [f64Real_zero]
    exact mul_nonneg ha.1 n.cast_nonneg
  · rw [hreal]
    exact mul_le_of_le_one_left n.cast_nonneg ha.2

theorem not_badWeights_harmonicList {n : Nat} (hpos : 1 ≤ n) (hn : n < 2 ^ 53) : ¬badWeights (harmonicList n) n := by
  have hrange : ∀ a ∈ harmonicList n, ¬notFinite a ∧ 0 ≤ f64Real a ∧ f64Real a ≤ 1 := by
    intro a ha
    obtain ⟨i, hi, rfl⟩ := List.mem_map.1 ha
    have := List.mem_range.1 hi
    exact harmonicWeight_range (by omega) (by omega)
  have hfirst : f64div f64One (toF64 1) ∈ harmonicList n := List.mem_map.2 ⟨0, List.mem_range.2 hpos, rfl⟩
  have hsum : ¬notFinite ((harmonicList n).foldl f64add 0) :=
    not_notFinite_foldl_f64add (k := 0) ⟨f64Real_zero.ge, by rw [f64Real_zero, Nat.cast_zero]⟩ (fun a ha => (hrange a ha).2)
      not_notFinite_zero (by simpa [harmonicList] using hn)
  have hone : 1 ≤ f64Real ((harmonicList n).foldl f64add 0) :=
    f64Real_first_harmonicWeight.ge.trans
      ((le_foldl_f64add f64Real_zero.ge (fun a ha => (hrange a ha).2.1) hsum).2 _ hfirst)
  exact not_badWeights_iff.2 ⟨fun a ha => ⟨(hrange a ha).1, (hrange a ha).2.1⟩, ⟨hsum, by linarith⟩,
    fun a ha => not_notFinite_mul_toF64 (hrange a ha).2 hn⟩

/-- Settles O31: the model's check against the spelled one, and the bounds of the harmonic sum and products. -/
theorem harmonicWeightsAlwaysPass : Obligations.HarmonicWeightsAlwaysPass := by
  refine ⟨fun w n => ?_, fun n hpos hn => not_badWeights_harmonicList hpos (by omega)⟩
  rw [← Bool.not_eq_true, weightsOk_iff, not_not]

end Sys2Proof.Machine
end

section
/-! SUPPORT and proofs of O12, O13. The sampler's commands: what SMP_BUILD stores reads back, and SMP_SAMPLE draws its column in
the integer form. -/

namespace Sys2Proof.Machine

/-! ### SMP_BUILD (43_sampler.md R183) -/

/-- One of several byte strings of equal length that were stored one after the other. -/
theorem Memory.readBytes_writeBytes_flatMap {α : Type} {m : Memory} (h : m.wf = true) {f : α → List Byte} {k : Nat}
    (hf : ∀ v, (f v).length = k) (a : Nat) (vs : List α) {i : Nat} (hi : i < vs.length) :
    (m.writeBytes a (vs.flatMap f)).readBytes (a + k * i) k = f vs[i] := by
  induction vs generalizing m a i with
  | nil => simp at hi
  | cons v vs ih =>
    rw [List.flatMap_cons, Memory.writeBytes_append, hf]
    cases i with
    | zero =>
      rw [Memory.readBytes_congr fun j hj => Memory.read_writeBytes_outside _ _ (.inl (by omega))]
      have hread := Memory.readBytes_writeBytes h a (f v)
      rwa [hf] at hread
    | succ i =>
      rw [show a + k * (i + 1) = a + k + k * i by ring]
      exact ih (Memory.wf_writeBytes h a (f v)) (a + k) (Nat.lt_of_succ_lt_succ hi)

section
variable {s : State} {t : AliasTable} {n : Nat}

/-- An entry of PROB_RAM after a table is stored that does not reach ALIAS_RAM (10_state.md R57). -/
theorem State.writeTable_prob (h : s.mem.wf = true) (hlen : t.prob.length = n) (hn : n ≤ 8192) {i : Nat} (hi : i < n) :
    (s.writeTable t).prob i = t.prob.getD i 0 := by
  have hi' : i < t.prob.length := hlen ▸ hi
  have hread := Memory.readBytes_writeBytes_flatMap h (f := fun v : DWord => toLE 8 v.toNat) (fun v => toLE_length 8 _)
    (Ram.base .probRam) t.prob hi'
  have hentry : (s.writeTable t).memRead .probRam (8 * i) 8 = toLE 8 t.prob[i].toNat := by
    refine Eq.trans (Memory.readBytes_congr fun j hj => Memory.read_writeBytes_outside _ _ (.inl ?_)) hread
    simp only [Ram.base]
    omega
  have hlt := t.prob[i].isLt
  rw [State.prob, State.entry64, hentry, fromLE_toLE, Nat.mod_eq_of_lt (by omega), BitVec.ofNat_toNat, BitVec.setWidth_eq,
    List.getD_eq_getElem _ _ hi']

/-- An entry of ALIAS_RAM after a table is stored: every one fits its word. -/
theorem State.toNat_writeTable_aliasOf (h : s.mem.wf = true) (hlen : t.other.length = n) (hlt : ∀ x ∈ t.other, x < 2 ^ 32)
    {i : Nat} (hi : i < n) : ((s.writeTable t).aliasOf i).toNat = t.other.getD i 0 := by
  have hi' : i < t.other.length := hlen ▸ hi
  rw [State.writeTable_aliasOf h t hi', BitVec.toNat_ofNat, Nat.mod_eq_of_lt (hlt _ (List.getElem_mem hi')),
    List.getD_eq_getElem _ _ hi']

theorem State.writeTable_eq (s : State) (t : AliasTable) : s.writeTable t = { s with mem := (s.writeTable t).mem } := rfl

/-- A table is stored in its entries of PROB_RAM and ALIAS_RAM alone. -/
theorem State.writeTable_read_outside (hprob : t.prob.length = n) (hother : t.other.length = n) {a : Nat}
    (h6 : a < 0x60000 ∨ 0x60000 + 8 * n ≤ a) (h7 : a < 0x70000 ∨ 0x70000 + 4 * n ≤ a) :
    (s.writeTable t).mem.read a = s.mem.read a := by
  rw [State.writeTable_mem, Memory.read_writeBytes_outside _ _ (by rwa [bytes32_length, List.length_map, hother]),
    Memory.read_writeBytes_outside _ _ (by rwa [bytes64_length, hprob])]

end

/-- The weights that MODE[0] selects (R180). -/
theorem State.weights_eq (s : State) (m : BitVec 1) (n : Nat) :
    s.weights m n = if m = 0 then harmonicList n else (List.range n).map s.wgt := by
  rcases BitVec.eq_zero_or_eq_one m with rfl | rfl <;> rfl

/-- A table size that is out of range. -/
theorem smpBuild_of_bad_size {s : State} (m : BitVec 1) (h : s.operands.a0.toNat = 0 ∨ s.params.maxFrags < s.operands.a0.toNat) :
    smpBuild m s = .error .badArg := if_pos h

section
variable {s : State} {m : BitVec 1} {w : List F64}
  (hsize : ¬(s.operands.a0.toNat = 0 ∨ s.params.maxFrags < s.operands.a0.toNat)) (hw : s.weights m s.operands.a0.toNat = w)
include hsize hw

theorem smpBuild_of_badWeights (h : badWeights w s.operands.a0.toNat) : smpBuild m s = .error .badWeights := by
  have hbad : weightsOk w s.operands.a0.toNat = false := by rwa [← Bool.not_eq_true, weightsOk_iff, not_not]
  simp only [smpBuild, if_neg hsize, hw, hbad, Bool.not_false, if_true]

theorem smpBuild_of_not_badWeights (h : ¬badWeights w s.operands.a0.toNat) :
    smpBuild m s = .ok { s.writeTable (buildAlias w s.operands.a0.toNat) with
      smpN := s.operands.a0, smpValid := true, res0 := s.operands.a0 } := by
  simp only [smpBuild, if_neg hsize, hw, weightsOk_iff.2 h, Bool.not_true, Bool.false_eq_true, if_false]

end

/-- The size of the largest table is legal (00_scope.md R6). -/
theorem Params.maxFrags_le {p : Params} (h : p.wellFormed = true) : p.maxFrags ≤ 8192 := by
  simp only [Params.wellFormed, Params.maxFragsLegal, Bool.and_eq_true, decide_eq_true_eq] at h
  exact h.2.2

/-- Settles O12: the checks in their order, of which the harmonic weights fail none, then the table, which is stored. -/
theorem smpBuildStoresTheAliasTable : Obligations.SmpBuildStoresTheAliasTable := by
  have hrow : (⟨0x20, 0x00000020, 0xFFFFFEFF, fun w => .smpBuild (modeBit w)⟩ : Row) ∈ opcodeMap := by simp [opcodeMap]
  refine ⟨encodedAs_of_mem hrow, fun m s hparams hwf => ?_⟩
  have hmax := Params.maxFrags_le hparams
  intro n w
  have hw : s.weights m n = w := s.weights_eq m n
  refine ⟨fun hsize => ?_, fun hpos hle hbad => ⟨?_, ?_⟩, fun hpos hle hok => ?_⟩
  · exact exec_of_effect_error (smpBuild_of_bad_size m hsize) (by decide)
  · refine (BitVec.eq_zero_or_eq_one m).resolve_left fun h0 => ?_
    subst h0
    exact not_badWeights_harmonicList hpos (by omega) hbad
  · exact exec_of_effect_error (smpBuild_of_badWeights (by omega) hw hbad) (by decide)
  · have hexec := exec_of_effect_ok (i := .smpBuild m) (smpBuild_of_not_badWeights (by omega) hw hok)
    have hlen : w.length = n := hw ▸ s.weights_length m n
    obtain ⟨hprob, hother⟩ := buildAlias_length hlen
    have hlt : ∀ x ∈ (buildAlias w n).other, x < 2 ^ 32 := fun x hx =>
      (buildAlias_other_lt hlen hpos x hx).trans s.operands.a0.isLt
    refine ⟨_, hexec, fun i hi => ⟨?_, ?_⟩, fun a h6 h7 => ?_, ?_⟩
    · exact State.writeTable_prob hwf hprob (by omega) hi
    · exact State.toNat_writeTable_aliasOf hwf hother hlt hi
    · exact State.writeTable_read_outside hprob hother h6 h7
    · rw [State.writeTable_eq s]
      rfl

/-! ### SMP_SAMPLE (43_sampler.md R185) -/

section
variable {l : Lanes}

theorem sample_of_not_drawable (h : ¬drawable (rawAt l 0)) (p : Nat → F64) (o : Nat → Nat) (n : Nat) :
    sample l p o n = .error .rngRange := if_pos ((u2d_eq_one_iff _).2 h)

/-- A draw takes two steps, and its column is the integer form of the first (R184). -/
theorem sample_of_drawable (h : drawable (rawAt l 0)) (p : Nat → F64) (o : Nat → Nat) {n : Nat} (hn : n ≤ 2 ^ 32) :
    let i := intDraw n (rawAt l 0)
    sample l p o n = .ok ⟨if f64lt (u2d (rawAt l 1)) (p i) then i else o i, i, rawAt l 1, lanesAfter l 2⟩ := by
  rw [← f64trunc_mul_u2d hn]
  exact if_neg fun h1 => (u2d_eq_one_iff _).1 h1 h

end

section
variable {s : State}

theorem smpSample_of_not_valid (h : s.smpValid = false) : smpSample s = .error .notConfigured := by
  simp only [smpSample, h, Bool.not_false, if_true]

theorem smpSample_of_not_drawable (hv : s.smpValid = true) (h : ¬drawable (rawAt s.lanes 0)) :
    smpSample s = .error .rngRange := by
  simp only [smpSample, hv, sample_of_not_drawable h, Bool.not_true, Bool.false_eq_true, if_false]

theorem smpSample_of_drawable (hv : s.smpValid = true) (h : drawable (rawAt s.lanes 0)) :
    let i := intDraw s.smpN.toNat (rawAt s.lanes 0)
    smpSample s = .ok { s with
      lanes := lanesAfter s.lanes 2
      prngOut := rawAt s.lanes 1
      res0 := if f64lt (u2d (rawAt s.lanes 1)) (s.prob i) then BitVec.ofNat 32 i else s.aliasOf i
      res1 := BitVec.ofNat 32 i } := by
  have halias (j : Nat) : BitVec.ofNat 32 (s.aliasOf j).toNat = s.aliasOf j := by rw [BitVec.ofNat_toNat, BitVec.setWidth_eq]
  simp only [smpSample, hv, sample_of_drawable h s.prob (fun i => (s.aliasOf i).toNat) s.smpN.isLt.le, Bool.not_true,
    Bool.false_eq_true, if_false, apply_ite (BitVec.ofNat 32), halias]

end

/-- Settles O13: no table, no index, or a draw. -/
theorem smpSampleDrawsFromTheTable : Obligations.SmpSampleDrawsFromTheTable := by
  have hrow : (⟨0x21, 0x00000021, 0xFFFFFFFF, fun _ => .smpSample⟩ : Row) ∈ opcodeMap := by simp [opcodeMap]
  refine ⟨encodedAs_of_mem hrow, fun s => ⟨fun hv => ?_, fun hv h => ?_, fun hv h => ?_⟩⟩
  · exact exec_of_effect_error (smpSample_of_not_valid hv) (by decide)
  · exact exec_of_effect_error (smpSample_of_not_drawable hv h) (by decide)
  · exact exec_of_effect_ok (smpSample_of_drawable hv h)

end Sys2Proof.Machine
end

section
/-! SUPPORT and proof of O30. The run of the pairing loop up to its last turn, what it settles, and the range of the scaled weights
along it. -/

namespace Sys2Proof.Machine

/-! ### Scaled weights stay finite and not below zero (43_sampler.md R187) -/

/-- What every scaled weight is: finite and not below zero. -/
def finiteNonneg (a : F64) : Prop := ¬notFinite a ∧ 0 ≤ f64Real a

theorem finiteNonneg_zero : finiteNonneg 0 := ⟨not_notFinite_zero, f64Real_zero.ge⟩

theorem f64lt_one_iff {a : F64} (h : finiteNonneg a) : f64lt a f64One = true ↔ f64Real a < 1 := by
  rw [f64lt_iff h.1 not_notFinite_one, f64Real_one]

theorem f64Real_neg_one : f64Real (f64neg f64One) = -1 := by rw [f64Real_neg, f64Real_one]

/-- What a light index leaves of a heavy one: the deficit is at most 1, which the heavy one has. -/
theorem finiteNonneg_surplus {x y : F64} (hx : finiteNonneg x) (hlight : f64lt x f64One = true) (hy : finiteNonneg y)
    (hheavy : ¬f64lt y f64One = true) : finiteNonneg (f64add y (f64sub x f64One)) := by
  have hx1 := (f64lt_one_iff hx).1 hlight
  have hy1 := not_lt.1 (mt (f64lt_one_iff hy).2 hheavy)
  have hx0 := hx.2
  obtain ⟨-, hlow, hhigh⟩ := roundsTo_between (f64sub_roundsTo x f64One) (lo := f64neg f64One) (hi := 0) (by decide)
    not_notFinite_zero (by rw [f64Real_neg_one, f64Real_one]; linarith) (by rw [f64Real_zero, f64Real_one]; linarith)
  rw [f64Real_neg_one] at hlow
  rw [f64Real_zero] at hhigh
  obtain ⟨hfin, hnonneg, -⟩ := roundsTo_between (f64add_roundsTo y (f64sub x f64One)) not_notFinite_zero hy.1
    (by rw [f64Real_zero]; linarith) (by linarith)
  exact ⟨hfin, f64Real_zero.ge.trans hnonneg⟩

/-- A weight that is at most the sum, times `n` and divided by the sum, is at most twice `n`: the product's rounding at most
doubles it. -/
theorem finiteNonneg_scaled {a sum : F64} {n : Nat} (ha : 0 ≤ f64Real a) (hle : f64Real a ≤ f64Real sum)
    (hsum : f64Real sum ≠ 0) (hn : 2 * n < 2 ^ 53) (hmul : ¬notFinite (f64mul a (toF64 n))) :
    finiteNonneg (f64div (f64mul a (toF64 n)) sum) := by
  have hpos : 0 < f64Real sum := lt_of_le_of_ne (ha.trans hle) hsum.symm
  have hround := f64mul_roundsTo a (toF64 n)
  rw [f64Real_toF64_of_lt (by omega)] at hround
  have hprod : 0 ≤ f64Real a * n := mul_nonneg ha n.cast_nonneg
  have hnonneg := nonneg_of_roundsTo hround hprod
  have htwice : f64Real (f64mul a (toF64 n)) ≤ f64Real (toF64 (2 * n)) * f64Real sum := by
    calc f64Real (f64mul a (toF64 n)) ≤ 2 * (f64Real a * n) := roundsTo_le_two_mul hround hmul hprod
      _ ≤ 2 * (f64Real sum * n) := by gcongr
      _ = f64Real (toF64 (2 * n)) * f64Real sum := by rw [f64Real_toF64_of_lt hn]; push_cast; ring
  obtain ⟨hfin, hlow, -⟩ := roundsTo_between (f64div_roundsTo (f64mul a (toF64 n)) hsum) not_notFinite_zero
    (not_notFinite_toF64 hn) (by rw [f64Real_zero]; positivity) ((div_le_iff₀ hpos).2 htwice)
  exact ⟨hfin, f64Real_zero.ge.trans hlow⟩

/-- The values of the pairing loop: the scaled weights are finite and not below zero, and each stack holds what its name says. -/
structure AliasValues (b : AliasBuild) : Prop where
  range : ∀ i, finiteNonneg (b.scaled.getD i 0)
  light : ∀ i ∈ b.small, f64lt (b.scaled.getD i 0) f64One = true
  heavy : ∀ i ∈ b.large, ¬f64lt (b.scaled.getD i 0) f64One = true

theorem aliasStart_scaled_getD {w : List F64} {n : Nat} (hlen : w.length = n) {i : Nat} (hi : i < n) :
    (aliasStart w n).scaled.getD i 0 = f64div (f64mul (w.getD i 0) (toF64 n)) (w.foldl f64add 0) :=
  scaledWeights_getD (hlen ▸ hi)

theorem aliasStart_values {w : List F64} {n : Nat} (hlen : w.length = n) (hn : n ≤ 8192) (h : ¬badWeights w n) :
    AliasValues (aliasStart w n) where
  range := fun i => by
    obtain ⟨hw, ⟨hfin, hne⟩, hmul⟩ := not_badWeights_iff.1 h
    rcases Nat.lt_or_ge i n with hi | hi
    · have hi' : i < w.length := hlen ▸ hi
      have hmem : w.getD i 0 ∈ w := by
        rw [List.getD_eq_getElem _ _ hi']
        exact List.getElem_mem hi'
      have hle := (le_foldl_f64add f64Real_zero.ge (fun a ha => (hw a ha).2) hfin).2 _ hmem
      rw [aliasStart_scaled_getD hlen hi]
      exact finiteNonneg_scaled (hw _ hmem).2 hle hne (by omega) (hmul _ hmem)
    · rw [List.getD_eq_default _ _ ((aliasStart_inv hlen).scaled.trans_le hi)]
      exact finiteNonneg_zero
  light := fun i hi => by
    simp only [aliasStart, initialStacks_eq, List.mem_filter] at hi
    exact hi.2
  heavy := fun i hi => by
    simp only [aliasStart, initialStacks_eq, List.mem_filter, Bool.not_eq_true'] at hi
    exact Bool.eq_false_iff.1 hi.2

/-! ### One turn, index by index -/

/-- A turn changes the scaled weight of the heavy index alone. -/
theorem aliasPair_scaled_ne (b : AliasBuild) (a : Nat) {g i : Nat} (lights heavies : List Nat) (h : i ≠ g) :
    (aliasPair b a g lights heavies).scaled.getD i 0 = b.scaled.getD i 0 := by
  rw [aliasPair_scaled, getD_set_ne _ _ _ h.symm]

/-- A turn leaves the other light indices in their stack. -/
theorem mem_aliasPair_small (b : AliasBuild) (a g : Nat) {i : Nat} {lights : List Nat} (heavies : List Nat) (hi : i ∈ lights) :
    i ∈ (aliasPair b a g lights heavies).small := by
  have hstacks := aliasPair_stacks b a g lights heavies
  split at hstacks
  · rw [hstacks.1]
    exact List.mem_cons_of_mem g hi
  · rwa [hstacks.1]

section
variable {n : Nat} {b : AliasBuild} (inv : AliasInv n b) {a g : Nat} {lights heavies : List Nat}
include inv

/-- The heavy index takes the surplus. -/
theorem AliasInv.pair_scaled_heavy (hl : b.large = g :: heavies) : (aliasPair b a g lights heavies).scaled.getD g 0 =
    f64add (b.scaled.getD g 0) (f64sub (b.scaled.getD a 0) f64One) := by
  have hg : g < n := inv.index g (by simp [hl])
  rw [aliasPair_scaled, getD_set_eq _ _ (inv.scaled.symm ▸ hg)]

/-- The entries of the light index are settled. -/
theorem AliasInv.pair_table_light (hs : b.small = a :: lights) :
    (aliasPair b a g lights heavies).table.prob.getD a 0 = b.scaled.getD a 0 ∧
      (aliasPair b a g lights heavies).table.other.getD a 0 = g := by
  have ha : a < n := inv.index a (by simp [hs])
  rw [aliasPair_table, getD_set_eq _ _ (inv.prob.symm ▸ ha), getD_set_eq _ _ (inv.other.symm ▸ ha)]
  exact ⟨rfl, rfl⟩

variable (hs : b.small = a :: lights) (hl : b.large = g :: heavies)
include hs hl

/-- The heavy index stands nowhere else in the stacks. -/
theorem AliasInv.heavy_not_mem : g ∉ a :: lights ∧ g ∉ heavies := by
  have nd := inv.nodup
  rw [hs, hl, List.nodup_append] at nd
  obtain ⟨-, nd, hdisjoint⟩ := nd
  exact ⟨fun hc => hdisjoint g hc g List.mem_cons_self rfl, (List.nodup_cons.1 nd).1⟩

/-- The light index is out of the stacks after the turn. -/
theorem AliasInv.light_not_mem_pair :
    a ∉ (aliasPair b a g lights heavies).small ++ (aliasPair b a g lights heavies).large := fun hc =>
  inv.light_not_mem hs hl ((aliasPair_perm b a g lights heavies).mem_iff.1 hc)

/-- A turn keeps the values: the heavy index, whose weight is the surplus, goes where it belongs, and the others stay. -/
theorem AliasValues.pair (h : AliasValues b) : AliasValues (aliasPair b a g lights heavies) := by
  obtain ⟨hg_light, hg_heavy⟩ := inv.heavy_not_mem hs hl
  have hsurplus := inv.pair_scaled_heavy (a := a) (lights := lights) hl
  have hrange : ∀ i, finiteNonneg ((aliasPair b a g lights heavies).scaled.getD i 0) := fun i => by
    by_cases hi : i = g
    · rw [hi, hsurplus]
      exact finiteNonneg_surplus (h.range a) (h.light a (hs ▸ List.mem_cons_self)) (h.range g)
        (h.heavy g (hl ▸ List.mem_cons_self))
    · rw [aliasPair_scaled_ne _ _ _ _ hi]
      exact h.range i
  have hlights : ∀ i ∈ lights, f64lt ((aliasPair b a g lights heavies).scaled.getD i 0) f64One = true := fun i hi => by
    rw [aliasPair_scaled_ne _ _ _ _ (ne_of_mem_of_not_mem (List.mem_cons_of_mem a hi) hg_light)]
    exact h.light i (hs ▸ List.mem_cons_of_mem a hi)
  have hheavies : ∀ i ∈ heavies, ¬f64lt ((aliasPair b a g lights heavies).scaled.getD i 0) f64One = true := fun i hi => by
    rw [aliasPair_scaled_ne _ _ _ _ (ne_of_mem_of_not_mem hi hg_heavy)]
    exact h.heavy i (hl ▸ List.mem_cons_of_mem g hi)
  have hstacks := aliasPair_stacks b a g lights heavies
  rw [← hsurplus] at hstacks
  split at hstacks
  case isTrue hlt =>
    obtain ⟨hsmall, hlarge⟩ := hstacks
    exact ⟨hrange, by rw [hsmall]; exact List.forall_mem_cons.2 ⟨hlt, hlights⟩, by rwa [hlarge]⟩
  case isFalse hge =>
    obtain ⟨hsmall, hlarge⟩ := hstacks
    exact ⟨hrange, by rwa [hsmall], by rw [hlarge]; exact List.forall_mem_cons.2 ⟨hge, hheavies⟩⟩

end

theorem AliasValues.turns {n : Nat} {b : AliasBuild} (inv : AliasInv n b) (h : AliasValues b) (k : Nat) :
    AliasValues (aliasTurns b k) := by
  induction k with
  | zero => exact h
  | succ k ih =>
    rw [aliasTurns]
    rcases aliasTurn_cases (aliasTurns b k) with ⟨-, e⟩ | ⟨a, g, lights, heavies, hs, hl, e⟩
    · rwa [e]
    · rw [e]
      exact ih.pair (inv.turns k) hs hl

/-! ### The run -/

/-- The state of buildAlias before turn `j`. -/
abbrev aliasAt (w : List F64) (n j : Nat) : AliasBuild := aliasTurns (aliasStart w n) j

/-- The pairing loop takes `k` turns: each finds both stacks filled, and then one is empty (R182). -/
structure AliasRun (w : List F64) (n k : Nat) : Prop where
  le : k ≤ n
  pairs : ∀ j, j < k → (aliasAt w n j).small ≠ [] ∧ (aliasAt w n j).large ≠ []
  stops : (aliasAt w n k).small = [] ∨ (aliasAt w n k).large = []

/-- Every turn takes an index out of the stacks, which hold `n` at the start. -/
theorem le_of_aliasPairs {w : List F64} {n k : Nat}
    (h : ∀ j, j < k → (aliasAt w n j).small ≠ [] ∧ (aliasAt w n j).large ≠ []) : k ≤ n := by
  have hlen := aliasTurns_length h
  have hstart := (aliasStart_perm w n).length_eq
  rw [List.length_append, List.length_range] at hstart
  omega

/-- The loop ends. -/
theorem exists_aliasRun (w : List F64) (n : Nat) : ∃ k, AliasRun w n k := by
  have hends : ∃ k, (aliasAt w n k).small = [] ∨ (aliasAt w n k).large = [] := by
    by_contra! hall
    exact Nat.not_succ_le_self n (le_of_aliasPairs fun j _ => hall j)
  have hpairs : ∀ j, j < Nat.find hends → (aliasAt w n j).small ≠ [] ∧ (aliasAt w n j).large ≠ [] := fun j hj =>
    not_or.1 (Nat.find_min hends hj)
  exact ⟨Nat.find hends, le_of_aliasPairs hpairs, hpairs, Nat.find_spec hends⟩

theorem aliasTurns_of_empty {b : AliasBuild} {k : Nat} (h : (aliasTurns b k).small = [] ∨ (aliasTurns b k).large = [])
    (m : Nat) : aliasTurns b (k + m) = aliasTurns b k := by
  induction m with
  | zero => rfl
  | succ m ih =>
    rw [← Nat.add_assoc, aliasTurns, ih]
    rcases aliasTurn_cases (aliasTurns b k) with ⟨-, e⟩ | ⟨a, g, lights, heavies, hs, hl, -⟩
    · exact e
    · simp [hs, hl] at h

section
variable {w : List F64} {n k : Nat} (run : AliasRun w n k)
include run

/-- Everything a turn of the run does. -/
theorem AliasRun.turn {j : Nat} (hj : j < k) : ∃ a g lights heavies,
    (aliasAt w n j).small = a :: lights ∧ (aliasAt w n j).large = g :: heavies ∧
      aliasAt w n (j + 1) = aliasPair (aliasAt w n j) a g lights heavies := by
  rcases aliasTurn_cases (aliasAt w n j) with ⟨hempty, -⟩ | h
  · have hpairs := run.pairs j hj
    exact absurd hempty (not_or.2 hpairs)
  · exact h

/-- Every index is left over, or was the light index of a turn. -/
theorem AliasRun.leftover_or_light {i : Nat} (hi : i < n) :
    i ∈ (aliasAt w n k).small ++ (aliasAt w n k).large ∨ ∃ j, j < k ∧ (aliasAt w n j).small.head? = some i := by
  have hcover : ∀ m, m ≤ k →
      i ∈ (aliasAt w n m).small ++ (aliasAt w n m).large ∨ ∃ j, j < m ∧ (aliasAt w n j).small.head? = some i := by
    intro m hm
    induction m with
    | zero => exact .inl ((aliasStart_perm w n).mem_iff.2 (List.mem_range.2 hi))
    | succ m ih =>
      rcases ih (by omega) with hmem | ⟨j, hj, hhead⟩
      · obtain ⟨a, g, lights, heavies, hs, hl, hturn⟩ := run.turn hm
        by_cases ha : i = a
        · exact .inr ⟨m, Nat.lt_succ_self m, by rw [hs, ha, List.head?_cons]⟩
        · left
          rw [hturn, (aliasPair_perm _ a g lights heavies).mem_iff]
          rw [hs, hl] at hmem
          simp only [List.mem_append, List.mem_cons] at hmem ⊢
          tauto
      · exact .inr ⟨j, by omega, hhead⟩
  exact hcover k le_rfl

theorem AliasRun.loop_eq : aliasLoop n (aliasStart w n) = aliasAt w n k := by
  rw [aliasLoop_eq_turns]
  have h := aliasTurns_of_empty run.stops (n - k)
  rwa [Nat.add_sub_cancel' run.le] at h

theorem AliasRun.other_eq : (buildAlias w n).other = (aliasAt w n k).table.other := by
  rw [← run.loop_eq]
  rfl

variable (hlen : w.length = n)
include hlen

theorem AliasRun.prob_getD {i : Nat} (hi : i < n) : (buildAlias w n).prob.getD i 0 =
    if i ∈ (aliasAt w n k).small ++ (aliasAt w n k).large then f64One else (aliasAt w n k).table.prob.getD i 0 := by
  have hprob := ((aliasStart_inv hlen).turns k).prob
  simp only [buildAlias, run.loop_eq]
  rw [fillOnes_getD _ _ (by rwa [fillOnes_length, hprob]), fillOnes_getD _ _ (by rwa [hprob])]
  simp only [List.mem_append, ite_or]

/-- An index left over has probability 1.0 and the ALIAS entry 0. -/
theorem AliasRun.leftover {i : Nat} (hi : i ∈ (aliasAt w n k).small ++ (aliasAt w n k).large) :
    (buildAlias w n).prob.getD i 0 = f64One ∧ (buildAlias w n).other.getD i 0 = 0 := by
  have inv := (aliasStart_inv hlen).turns k
  rw [run.prob_getD hlen (inv.index i hi), if_pos hi, run.other_eq]
  exact ⟨rfl, inv.alias0 i hi⟩

/-- The light index of a turn has the probability it had then, and the heavy index as its ALIAS entry. -/
theorem AliasRun.settled {j a g : Nat} {lights heavies : List Nat} (hj : j < k)
    (hs : (aliasAt w n j).small = a :: lights) (hl : (aliasAt w n j).large = g :: heavies) :
    (buildAlias w n).prob.getD a 0 = (aliasAt w n j).scaled.getD a 0 ∧ (buildAlias w n).other.getD a 0 = g := by
  have inv := (aliasStart_inv hlen).turns j
  have hturn : aliasAt w n (j + 1) = aliasPair (aliasAt w n j) a g lights heavies := by
    simp only [aliasAt, aliasTurns, aliasTurn, hs, hl]
  have hout := inv.light_not_mem_pair hs hl
  obtain ⟨hprob, hother⟩ := inv.pair_table_light (g := g) (heavies := heavies) hs
  rw [← hturn] at hout hprob hother
  obtain ⟨hout', hprob', hother'⟩ := aliasTurns_settled hout (k - (j + 1))
  rw [Nat.add_sub_cancel' hj] at hout' hprob' hother'
  rw [run.prob_getD hlen (inv.index a (by simp [hs])), if_neg hout', run.other_eq, hprob', hother']
  exact ⟨hprob, hother⟩

/-- An index that is light at the start keeps its scaled weight until its turn. -/
theorem AliasRun.light_at_start {i : Nat} (hi : i ∈ (aliasStart w n).small) :
    i ∈ (aliasAt w n k).small ∨ (buildAlias w n).prob.getD i 0 = (aliasStart w n).scaled.getD i 0 := by
  have hkept : ∀ m, m ≤ k →
      (i ∈ (aliasAt w n m).small ∧ (aliasAt w n m).scaled.getD i 0 = (aliasStart w n).scaled.getD i 0) ∨
        (buildAlias w n).prob.getD i 0 = (aliasStart w n).scaled.getD i 0 := by
    intro m hm
    induction m with
    | zero => exact .inl ⟨hi, rfl⟩
    | succ m ih =>
      rcases ih (by omega) with ⟨hmem, hsame⟩ | hsettled
      · obtain ⟨a, g, lights, heavies, hs, hl, hturn⟩ := run.turn hm
        by_cases ha : i = a
        · right
          rw [← hsame, ha]
          exact (run.settled hlen hm hs hl).1
        · left
          rw [hs] at hmem
          have hg : i ≠ g := ne_of_mem_of_not_mem hmem (((aliasStart_inv hlen).turns m).heavy_not_mem hs hl).1
          rw [hturn, aliasPair_scaled_ne _ _ _ _ hg]
          exact ⟨mem_aliasPair_small _ a g heavies ((List.mem_cons.1 hmem).resolve_left ha), hsame⟩
      · exact .inr hsettled
  exact (hkept k le_rfl).imp_left And.left

/-- The table is what the run leaves. -/
theorem AliasRun.aliasTableOf_buildAlias : aliasTableOf w n (buildAlias w n) := by
  refine ⟨k, fun j i => (aliasAt w n j).scaled.getD i 0, fun j => (aliasAt w n j).small, fun j => (aliasAt w n j).large,
    fun i hi => aliasStart_scaled_getD hlen hi, ?_, ?_, fun j hj => ?_, run.stops,
    fun i hi => run.leftover hlen hi, fun i hi => run.leftover_or_light hi, fun i hi hnever => ?_⟩
  · exact congrArg Prod.fst (initialStacks_eq _ n)
  · exact congrArg Prod.snd (initialStacks_eq _ n)
  · obtain ⟨a, g, lights, heavies, hs, hl, hturn⟩ := run.turn hj
    obtain ⟨hprob, hother⟩ := run.settled hlen hj hs hl
    have hheavy := ((aliasStart_inv hlen).turns j).pair_scaled_heavy (a := a) (lights := lights) hl
    have hstacks := aliasPair_stacks (aliasAt w n j) a g lights heavies
    rw [← hheavy] at hstacks
    rw [← hturn] at hheavy hstacks
    refine ⟨a, g, lights, heavies, hs, hl, hprob, hother, hheavy, fun i hi => ?_, hstacks⟩
    simp only [hturn, aliasPair_scaled_ne _ _ _ _ hi]
  · rcases run.leftover_or_light hi with hleft | ⟨j, hj, hhead⟩
    · exact run.leftover hlen hleft
    · exact absurd (List.mem_of_head? hhead) (hnever j hj.le)

/-- A probability is one that a light index had at its turn, or 1.0. -/
theorem AliasRun.prob_range (hvalues : AliasValues (aliasStart w n)) {i : Nat} (hi : i < n) :
    finiteNonneg ((buildAlias w n).prob.getD i 0) ∧ f64Real ((buildAlias w n).prob.getD i 0) ≤ 1 := by
  rcases run.leftover_or_light hi with hleft | ⟨j, hj, hhead⟩
  · rw [(run.leftover hlen hleft).1]
    exact ⟨⟨not_notFinite_one, f64Real_one.symm ▸ zero_le_one⟩, f64Real_one.le⟩
  · obtain ⟨a, g, lights, heavies, hs, hl, -⟩ := run.turn hj
    obtain rfl : a = i := by simpa [hs] using hhead
    have hat := hvalues.turns (aliasStart_inv hlen) j
    rw [(run.settled hlen hj hs hl).1]
    exact ⟨hat.range a, ((f64lt_one_iff (hat.range a)).1 (hat.light a (hs ▸ List.mem_cons_self))).le⟩

end

/-- Settles O30: the run of the loop, what it settles and leaves over, and the values along it. -/
theorem aliasTablesAreInRange : Obligations.AliasTablesAreInRange := by
  intro w n hpos hn hlen hok
  obtain ⟨k, run⟩ := exists_aliasRun w n
  obtain ⟨hprob, hother⟩ := buildAlias_length hlen
  refine ⟨run.aliasTableOf_buildAlias hlen, hprob, hother, fun i hi => ⟨fun hlight => ?_, ?_, ?_⟩⟩
  · rw [← aliasStart_scaled_getD hlen hi] at hlight ⊢
    have hmem : i ∈ (aliasStart w n).small := by
      simp only [aliasStart, initialStacks_eq, List.mem_filter, List.mem_range]
      exact ⟨hi, hlight⟩
    exact (run.light_at_start hlen hmem).symm.imp_right fun h => run.leftover hlen (List.mem_append_left _ h)
  · have hi' : i < (buildAlias w n).other.length := hother.symm ▸ hi
    rw [List.getD_eq_getElem _ _ hi']
    exact buildAlias_other_lt hlen hpos _ (List.getElem_mem hi')
  · obtain ⟨⟨hfin, hnonneg⟩, hle⟩ := run.prob_range hlen (aliasStart_values hlen hn hok) hi
    exact ⟨hfin, hnonneg, hle⟩

end Sys2Proof.Machine
end

section
/-! SUPPORT and proof of O35. The selection of a sequence number: the generator that it seeds, the degree drawn from it, and the
removals after that. -/

namespace Sys2Proof.Machine

/-! ### Draws after the first steps (42_prng.md R150) -/

theorem lanesAfter_add (l : Lanes) (m k : Nat) : lanesAfter (lanesAfter l m) k = lanesAfter l (m + k) := by
  induction k with
  | zero => rfl
  | succ k ih => rw [lanesAfter, ih, ← Nat.add_assoc, lanesAfter]

theorem rawAt_lanesAfter (l : Lanes) (m k : Nat) : rawAt (lanesAfter l m) k = rawAt l (m + k) := by
  rw [rawAt, lanesAfter_add, rawAt]

/-! ### The degree (43_sampler.md R184, R186) -/

section
variable {l : Lanes} {f : Nat}

theorem chooseDegree_of_not_drawable (h : ¬drawable (rawAt l 0)) : chooseDegree l f = .error .rngRange := by
  simp only [chooseDegree, sample_of_not_drawable h]

/-- The degree draw takes two steps. -/
theorem chooseDegree_of_drawable (h : drawable (rawAt l 0)) (hf : f ≤ 2 ^ 32) :
    chooseDegree l f = .ok ⟨degreeOf l f, lanesAfter l 2⟩ := by
  simp only [chooseDegree, sample_of_drawable h _ _ hf, degreeOf, Nat.add_comm 1]
  rfl

/-- The degree is one more than an index of the table: the column by its draw, and the ALIAS entries all are. -/
theorem degreeOf_range (h : drawable (rawAt l 0)) (hf : 1 ≤ f) : 1 ≤ degreeOf l f ∧ degreeOf l f ≤ f := by
  have hcolumn : intDraw f (rawAt l 0) < f := intDraw_lt hf h
  have hweights : (harmonicList f).length = f := by simp [harmonicList]
  have hother : intDraw f (rawAt l 0) < (buildAlias (harmonicList f) f).other.length := by
    rwa [(buildAlias_length hweights).2]
  have halias : (buildAlias (harmonicList f) f).other.getD (intDraw f (rawAt l 0)) 0 < f := by
    rw [List.getD_eq_getElem _ _ hother]
    exact buildAlias_other_lt hweights hf _ (List.getElem_mem hother)
  simp only [degreeOf]
  split <;> omega

end

/-! ### chooseFragments (44_fountain.md R205) -/

theorem seedLanes_eq_privateLanes (p : Params) (seq c : Word) :
    seedLanes p (be32 seq ++ be32 c) = privateLanes p seq c := by
  rw [seedLanes_eq, be32_bytes, be32_bytes]
  rfl

section
variable {p : Params} {seq f c : Word}

theorem chooseFragments_of_le (h : seq.toNat ≤ f.toNat) : chooseFragments p seq f c = .ok [seq.toNat - 1] := if_pos h

/-- The selection of the fountain phase: the first removals of a shuffle that starts after the degree's two steps. -/
def fountainSelection (p : Params) (seq f c : Word) : List Nat :=
  (removal (lanesAfter (privateLanes p seq c) 2) f.toNat (List.range f.toNat)).take
    (degreeOf (privateLanes p seq c) f.toNat)

/-- The draws of the fountain phase are in range when the degree's column and the shuffle's indices are. -/
theorem drawsInRange_iff_of_lt (h : f.toNat < seq.toNat) :
    drawsInRange p seq f c ↔ drawable (rawAt (privateLanes p seq c) 0) ∧
      ∀ j, j < f.toNat → drawable (rawAt (lanesAfter (privateLanes p seq c) 2) j) := by
  simp only [drawsInRange, rawAt_lanesAfter, Nat.not_le.2 h, false_or]

theorem chooseFragments_of_lt (hf : 1 ≤ f.toNat) (h : f.toNat < seq.toNat) (hd : drawsInRange p seq f c) :
    chooseFragments p seq f c = .ok (fountainSelection p seq f c) := by
  obtain ⟨hdegree, hshuffle⟩ := (drawsInRange_iff_of_lt h).1 hd
  simp only [chooseFragments, if_neg (Nat.not_le.2 h), seedLanes_eq_privateLanes,
    chooseDegree_of_drawable hdegree f.isLt.le, shuffle_of_drawable 0 hf f.isLt hshuffle, fountainSelection]

theorem chooseFragments_of_not_drawsInRange (hd : ¬drawsInRange p seq f c) :
    chooseFragments p seq f c = .error .rngRange := by
  have h : f.toNat < seq.toNat := Nat.not_le.1 fun hle => hd (.inl hle)
  rw [drawsInRange_iff_of_lt h] at hd
  simp only [chooseFragments, if_neg (Nat.not_le.2 h), seedLanes_eq_privateLanes]
  by_cases hdegree : drawable (rawAt (privateLanes p seq c) 0)
  · have hshuffle : ∃ j, j < f.toNat ∧ ¬drawable (rawAt (lanesAfter (privateLanes p seq c) 2) j) := by
      simpa only [not_forall, exists_prop] using not_and.1 hd hdegree
    simp only [chooseDegree_of_drawable hdegree f.isLt.le, shuffle_of_not_drawable 0 f.isLt hshuffle]
  · simp only [chooseDegree_of_not_drawable hdegree]

theorem exists_chooseFragments_ok (hf : 1 ≤ f.toNat) (hd : drawsInRange p seq f c) :
    ∃ sel, chooseFragments p seq f c = .ok sel := by
  rcases Nat.lt_or_ge f.toNat seq.toNat with h | h
  · exact ⟨_, chooseFragments_of_lt hf h hd⟩
  · exact ⟨_, chooseFragments_of_le h⟩

theorem chooseFragments_error_iff (hf : 1 ≤ f.toNat) :
    chooseFragments p seq f c = .error .rngRange ↔ ¬drawsInRange p seq f c := by
  refine ⟨fun he hd => ?_, chooseFragments_of_not_drawsInRange⟩
  obtain ⟨sel, hsel⟩ := exists_chooseFragments_ok hf hd
  rw [hsel] at he
  cases he

/-- The fountain selection is a part of a permutation of the indices. -/
theorem fountainSelection_valid (hf : 1 ≤ f.toNat) (h : f.toNat < seq.toNat) (hd : drawsInRange p seq f c) :
    (fountainSelection p seq f c).length = degreeOf (privateLanes p seq c) f.toNat ∧
      (fountainSelection p seq f c).Nodup ∧ ∀ i ∈ fountainSelection p seq f c, i < f.toNat := by
  obtain ⟨hdegree, hshuffle⟩ := (drawsInRange_iff_of_lt h).1 hd
  have hperm := removal_range_perm hshuffle
  exact ⟨length_take_of_perm_range hperm (degreeOf_range hdegree hf).2,
    (List.take_sublist _ _).nodup (hperm.nodup_iff.2 List.nodup_range),
    fun i hi => List.mem_range.1 (hperm.mem_iff.1 (List.mem_of_mem_take hi))⟩

/-- Every selected index is a fragment's (R214). -/
theorem chooseFragments_lt (hseq : 1 ≤ seq.toNat) (hf : 1 ≤ f.toNat) {sel : List Nat}
    (h : chooseFragments p seq f c = .ok sel) : ∀ i ∈ sel, i < f.toNat := by
  have hd : drawsInRange p seq f c := by
    by_contra hd
    rw [chooseFragments_of_not_drawsInRange hd] at h
    cases h
  rcases Nat.lt_or_ge f.toNat seq.toNat with hlt | hle
  · rw [chooseFragments_of_lt hf hlt hd] at h
    cases h
    exact (fountainSelection_valid hf hlt hd).2.2
  · rw [chooseFragments_of_le hle] at h
    cases h
    intro i hi
    rw [List.mem_singleton.1 hi]
    omega

end

/-- Settles O35: the pure pass, the draws, and the degree and removals of the fountain phase. -/
theorem selectionsAreValid : Obligations.SelectionsAreValid := by
  intro p seq f c _ hf _
  refine ⟨chooseFragments_of_le, chooseFragments_error_iff hf, fun h hd => ?_⟩
  obtain ⟨hdegree, -⟩ := (drawsInRange_iff_of_lt h).1 hd
  obtain ⟨hpos, hle⟩ := degreeOf_range hdegree hf
  exact ⟨hpos, hle, _, chooseFragments_of_lt hf h hd, rfl, fountainSelection_valid hf h hd⟩

end Sys2Proof.Machine
end

section
/-! SUPPORT and proofs of O32, O33, O34, O14, O18, O19. The fragments of a message and their mixes, and the commands that make,
move and drop the held configuration. -/

namespace Sys2Proof.Machine

/-! ### The fragment count (44_fountain.md R200) -/

section
variable {len max : Nat} (hmax : 1 ≤ max)
include hmax

/-- A count of fragments is large enough exactly from the fragment count on. -/
theorem ceilDiv_le_max_iff {g : Nat} (hg : 1 ≤ g) : ceilDiv len g ≤ max ↔ fragCount len max ≤ g := by
  rw [fragCount, ceilDiv_le_iff hg, ceilDiv_le_iff hmax, Nat.mul_comm]

theorem fragCount_le_len : fragCount len max ≤ len :=
  (ceilDiv_le_iff hmax).2 (Nat.le_mul_of_pos_left len hmax)

/-- A fragment is no longer than the message, and no longer than allowed. -/
theorem fragLen_le (hlen : 1 ≤ len) : fragLen len max ≤ len ∧ fragLen len max ≤ max := by
  obtain ⟨hcount, -⟩ := fragLen_cover hlen hmax
  exact ⟨(ceilDiv_le_iff hcount).2 (Nat.le_mul_of_pos_left len hcount), (ceilDiv_le_max_iff hmax hcount).2 le_rfl⟩

end

/-- Settles O32: the rounded quotient is antitone in the count, and the last fragment is not empty. -/
theorem fragmentCountIsMinimal : Obligations.FragmentCountIsMinimal := by
  intro len max hlen hmax f m
  obtain ⟨hcount, hpos, hlast, hcover⟩ := fragLen_cover hlen hmax
  obtain ⟨hle, hle_max⟩ := fragLen_le hmax hlen
  have hminimal : ∀ g, 1 ≤ g → g < f → max < ceilDiv len g := fun g hg hlt =>
    Nat.not_le.1 fun h => Nat.not_le.2 hlt ((ceilDiv_le_max_iff hmax hg).1 h)
  have hsplit : f * m = (f - 1) * m + m := by rw [← Nat.succ_mul, Nat.succ_eq_add_one, Nat.sub_add_cancel hcount]
  have hpadding : f * m - len < m := (Nat.sub_lt_iff_lt_add' hcover).2 (hsplit ▸ Nat.add_lt_add_right hlast m)
  exact ⟨⟨hcount, hle_max, hminimal⟩, ⟨rfl, rfl⟩, ⟨fragCount_le_len hmax, hpos, hle, hle_max⟩,
    hlast, hcover, hpadding⟩

/-! ### The fragments (R201) -/

/-- Rows of equal length, one after another, are one list. -/
theorem flatMap_range_rows {α : Type} (g : Nat → α) (n m : Nat) :
    ((List.range n).flatMap fun i => (List.range m).map fun j => g (i * m + j)) = (List.range (n * m)).map g := by
  induction n with
  | zero => simp
  | succ n ih =>
    rw [List.range_succ, List.flatMap_append, ih, Nat.succ_mul, List.range_add, List.map_append, List.map_map]
    simp [Function.comp_def]

/-- A list with zeros from some place on. -/
theorem map_range_padded (g : Nat → Byte) {k n : Nat} (h : k ≤ n) :
    ((List.range n).map fun o => if o < k then g o else 0) = (List.range k).map g ++ List.replicate (n - k) 0 := by
  obtain ⟨r, rfl⟩ := Nat.exists_eq_add_of_le h
  rw [List.range_add, List.map_append, List.map_map, Nat.add_sub_cancel_left]
  congr 1
  · exact List.map_congr_left fun o ho => if_pos (List.mem_range.1 ho)
  · exact List.eq_replicate_iff.2 ⟨by simp, by simp⟩

/-- Settles O33: the fragments are the rows of the padded message. -/
theorem fragmentsAreThePaddedMessage : Obligations.FragmentsAreThePaddedMessage := by
  intro s inv hv
  obtain ⟨-, -, -, -, hcover, -⟩ := inv.fountain hv
  exact (flatMap_range_rows _ _ _).trans (map_range_padded (fun o => s.mem.read (0x10000 + o)) hcover)

/-! ### The mix (R207) -/

theorem foldl_xor_perm (g : Nat → Byte) {sel sel' : List Nat} (h : sel.Perm sel') :
    sel.foldl (fun acc i => acc ^^^ g i) 0 = sel'.foldl (fun acc i => acc ^^^ g i) 0 :=
  h.foldl_eq' (fun x _ y _ acc => by rw [BitVec.xor_assoc, BitVec.xor_comm (g x), ← BitVec.xor_assoc]) 0

/-- Settles O34: the exclusive-or is commutative and its own inverse. -/
theorem mixIsOrderFree : Obligations.MixIsOrderFree := by
  refine fun s => ⟨fun sel sel' h => ?_, fun i sel => ?_, ?_, fun i => ?_⟩
  · exact List.map_congr_left fun j _ => foldl_xor_perm (fun i => s.fragByte i j) h
  · simp only [State.mix, List.foldl_cons, xor_xor_same]
  · exact List.eq_replicate_iff.2 ⟨s.mix_length [], by simp [State.mix]⟩
  · exact List.map_congr_left fun j _ => BitVec.zero_xor

/-! ### FTN_CONFIG (R202, R203) -/

/-- The checks of R202. -/
theorem ftnParamsOk_iff {p : Params} {len max min : Nat} :
    ftnParamsOk p len max min = true ↔ 1 ≤ len ∧ 1 ≤ max ∧ 1 ≤ min ∧ min ≤ max ∧ len ≤ p.msgRamSize ∧
      fragCount len max ≤ p.maxFrags ∧ fragLen len max ≤ p.outRamSize := by
  simp only [ftnParamsOk, Bool.and_eq_true, bne_iff_ne, ne_eq, decide_eq_true_eq, and_assoc, Nat.one_le_iff_ne_zero]

section
variable {s : State}

theorem ftnConfig_of_bad (h : ¬ftnParamsOk s.params s.operands.a0.toNat s.operands.a1.toNat s.operands.a2.toNat = true) :
    ftnConfig s = .error .badFtnParams := by
  simp only [ftnConfig, h, Bool.not_false, if_true]

theorem ftnConfig_of_ok (h : ftnParamsOk s.params s.operands.a0.toNat s.operands.a1.toNat s.operands.a2.toNat = true) :
    ftnConfig s = .ok { s with
      ftnMsgLen := s.operands.a0
      ftnFragLen := BitVec.ofNat 32 (fragLen s.operands.a0.toNat s.operands.a1.toNat)
      ftnFragCount := BitVec.ofNat 32 (fragCount s.operands.a0.toNat s.operands.a1.toNat)
      ftnChecksum := crc32 ((List.range s.operands.a0.toNat).map fun i => s.mem.read (0x10000 + i))
      ftnSeqNum := s.operands.a3
      ftnValid := true
      res0 := BitVec.ofNat 32 (fragCount s.operands.a0.toNat s.operands.a1.toNat)
      res1 := BitVec.ofNat 32 (fragLen s.operands.a0.toNat s.operands.a1.toNat) } := by
  simp only [ftnConfig, h, Bool.not_true, Bool.false_eq_true, if_false, State.memRead, Memory.readBytes_eq_map]
  rfl

end

/-- Settles O14: the checks fail exactly when one of them does, and else the configuration is held. -/
theorem ftnConfigHoldsTheConfiguration : Obligations.FtnConfigHoldsTheConfiguration := by
  have hrow : (⟨0x30, 0x00000030, 0xFFFFFFFF, fun _ => .ftnConfig⟩ : Row) ∈ opcodeMap := by simp [opcodeMap]
  refine ⟨encodedAs_of_mem hrow, fun s => ⟨fun hbad => ?_, fun hlen hmax hmin hle hmsg hcount hfrag => ?_⟩⟩
  · refine exec_of_effect_error (ftnConfig_of_bad fun hok => ?_) (by decide)
    obtain ⟨hlen, hmax, hmin, hle, hmsg, hcount, hfrag⟩ := ftnParamsOk_iff.1 hok
    simp only [fragLen, fragCount, ceilDiv] at hcount hfrag
    omega
  · exact exec_of_effect_ok (ftnConfig_of_ok (ftnParamsOk_iff.2 ⟨hlen, hmax, hmin, hle, hmsg, hcount, hfrag⟩))

/-! ### FTN_SEEK and FTN_CLEAR (R210, R211) -/

theorem ftnSeek_of_not_valid {s : State} (h : s.ftnValid = false) : ftnSeek s = .error .notConfigured := by
  simp only [ftnSeek, h, Bool.not_false, if_true]

theorem ftnSeek_of_valid {s : State} (h : s.ftnValid = true) : ftnSeek s = .ok { s with ftnSeqNum := s.operands.a0 } := by
  simp only [ftnSeek, h, Bool.not_true, Bool.false_eq_true, if_false]

/-- Settles O18: the check, then one register. -/
theorem ftnSeekSetsTheSequenceNumber : Obligations.FtnSeekSetsTheSequenceNumber := by
  have hrow : (⟨0x34, 0x00000034, 0xFFFFFFFF, fun _ => .ftnSeek⟩ : Row) ∈ opcodeMap := by simp [opcodeMap]
  refine ⟨encodedAs_of_mem hrow, fun s => ⟨fun hv => ?_, fun hv => ?_⟩⟩
  · exact exec_of_effect_error (ftnSeek_of_not_valid hv) (by decide)
  · exact exec_of_effect_ok (ftnSeek_of_valid hv)

/-- Settles O19: the row of the opcode map, and a command that raises no error. -/
theorem ftnClearDropsTheConfiguration : Obligations.FtnClearDropsTheConfiguration :=
  have hrow : (⟨0x35, 0x00000035, 0xFFFFFFFF, fun _ => .ftnClear⟩ : Row) ∈ opcodeMap := by simp [opcodeMap]
  ⟨encodedAs_of_mem hrow, fun _ => exec_of_effect_ok rfl⟩

end Sys2Proof.Machine
end

section
/-! SUPPORT and proofs of O15, O16, O17, O36, O37. The commands that select and mix: what they store in SEL_RAM and OUT_RAM, and
what their mixes depend on. -/

namespace Sys2Proof.Machine

/-! ### What the mix reads (44_fountain.md R201, R207) -/

section
variable {s t : State} (hfrag : t.ftnFragLen = s.ftnFragLen) (hlen : t.ftnMsgLen = s.ftnMsgLen)
  (hmsg : ∀ i, i < s.ftnMsgLen.toNat → t.mem.read (0x10000 + i) = s.mem.read (0x10000 + i))
include hfrag hlen hmsg

/-- A fragment depends on the fragment length and on the message (R213). -/
theorem State.fragByte_congr (i j : Nat) : t.fragByte i j = s.fragByte i j := by
  simp only [State.fragByte, hfrag, hlen]
  split
  next h => exact hmsg _ h
  next => rfl

theorem State.mix_congr (sel : List Nat) : t.mix sel = s.mix sel := by
  simp only [State.mix, hfrag, State.fragByte_congr hfrag hlen hmsg]

end

/-- A byte of OUT_RAM after a mix is stored (R208). -/
theorem State.read_mix_stored {s : State} {m : Memory} (h : m.wf = true) (sel : List Nat) {j : Nat}
    (hj : j < s.ftnFragLen.toNat) :
    (m.writeBytes 0x30000 (s.mix sel)).read (0x30000 + j) = sel.foldl (fun b i => b ^^^ s.fragByte i j) 0 := by
  rw [Memory.read_writeBytes_inside h _ _ (by rwa [State.mix_length])]
  simp [State.mix]

/-! ### The entries of SEL_RAM (10_state.md R55) -/

theorem State.sel_congr {s t : State} (h : ∀ a, 0x40000 ≤ a → t.mem.read a = s.mem.read a) (j : Nat) :
    t.sel j = s.sel j := by
  unfold State.sel State.entry32 State.memRead
  rw [Memory.readBytes_congr fun k _ => h _ (by simp only [Ram.base]; omega)]

theorem State.selList_map_toNat (s : State) (k : Nat) :
    (s.selList k).map BitVec.toNat = (List.range k).map fun j => (s.sel j).toNat := by
  simp [State.selList]

section
variable {sel : List Nat} (hsel : ∀ i ∈ sel, i < 2 ^ 32)
include hsel

/-- Every index of a selection fits its entry. -/
theorem toNat_ofNat_getElem {j : Nat} (hj : j < sel.length) : (BitVec.ofNat 32 sel[j]).toNat = sel.getD j 0 := by
  rw [BitVec.toNat_ofNat, Nat.mod_eq_of_lt (hsel _ (List.getElem_mem hj)), List.getD_eq_getElem _ _ hj]

variable {s : State} (h : s.mem.wf = true) (seq : Word)
include h

theorem State.toNat_writeSel_sel {j : Nat} (hj : j < sel.length) : ((s.writeSel sel seq).sel j).toNat = sel.getD j 0 :=
  (congrArg BitVec.toNat (State.writeSel_sel h sel seq hj)).trans (toNat_ofNat_getElem hsel hj)

/-- A stored selection reads back whole. -/
theorem State.map_writeSel_sel :
    ((List.range sel.length).map fun j => ((s.writeSel sel seq).sel j).toNat) = sel := by
  apply List.ext_getElem (by simp)
  intro j hj hj'
  rw [List.getElem_map, List.getElem_range, State.toNat_writeSel_sel hsel h seq hj', List.getD_eq_getElem _ _ hj']

end

/-! ### Selections of a held configuration (R205) -/

/-- A selection's length fits SEL_COUNT. -/
theorem chooseFragments_length_lt {p : Params} {seq f c : Word} {sel : List Nat} (h : chooseFragments p seq f c = .ok sel) :
    sel.length < 2 ^ 32 := by
  have hlen := chooseFragments_length h
  have hcount := f.isLt
  omega

section
variable {s : State} (inv : s.Inv) (hv : s.ftnValid = true)
include inv hv

theorem State.Inv.one_le_fragCount : 1 ≤ s.ftnFragCount.toNat := by
  obtain ⟨-, ⟨hpos, -⟩, -⟩ := inv.fountain hv
  exact hpos

/-- A fragment lies in the window of OUT_RAM (R202). -/
theorem State.Inv.fragLen_le_window : s.ftnFragLen.toNat ≤ 0x10000 :=
  (inv.fountain_fits hv).2.trans (Ram.size_le_window inv.params .outRam)

/-- The message lies in the window of MSG_RAM (R202). -/
theorem State.Inv.msgLen_le_window : s.ftnMsgLen.toNat ≤ 0x10000 := by
  obtain ⟨⟨-, hlen⟩, -⟩ := inv.fountain hv
  exact hlen.trans (Ram.size_le_window inv.params .msgRam)

variable {seq : Word} {sel : List Nat} (h : chooseFragments s.params seq s.ftnFragCount s.ftnChecksum = .ok sel)
include h

theorem State.Inv.selection_lt (hseq : seq ≠ 0) : ∀ i ∈ sel, i < s.ftnFragCount.toNat :=
  chooseFragments_lt (Nat.pos_of_ne_zero fun h0 => hseq (BitVec.eq_of_toNat_eq h0)) (inv.one_le_fragCount hv) h

theorem State.Inv.selection_lt_word (hseq : seq ≠ 0) : ∀ i ∈ sel, i < 2 ^ 32 := fun i hi =>
  (inv.selection_lt hv h hseq i hi).trans s.ftnFragCount.isLt

end

/-! ### Completion -/

/-- A command completes with an error exactly when it raises that error (60_exceptions.md R243). -/
theorem exec_eq_errorState_iff {i : Instr} {s : State} {e : ErrorCode} (he : e ≠ .ok) :
    exec i s = .next (errorState s e) ↔ effect i s = .error e := by
  refine ⟨fun h => ?_, fun h => exec_of_effect_error h he⟩
  rcases exec_next h with ⟨u, -, ht⟩ | ⟨e', heff, ht⟩
  · exact absurd (congrArg State.errCode ht) he
  · rw [heff]
    exact congrArg Except.error (congrArg State.errCode ht).symm

/-! ### FTN_CHOOSE (R206) -/

/-- What FTN_CHOOSE writes when it selects `sel`. -/
def State.withSelection (s : State) (sel : List Nat) : State :=
  { s.writeSel sel s.operands.a0 with res0 := BitVec.ofNat 32 sel.length, res1 := s.operands.a0 }

section
variable {s : State}

theorem ftnChoose_of_not_valid (hv : s.ftnValid = false) : ftnChoose s = .error .notConfigured := by
  simp only [ftnChoose, hv, Bool.not_false, if_true]

theorem ftnChoose_of_zero (hv : s.ftnValid = true) (h : s.operands.a0 = 0) : ftnChoose s = .error .badArg := by
  simp only [ftnChoose, hv, h, Bool.not_true, Bool.false_eq_true, if_false, if_true]

theorem ftnChoose_eq_map (hv : s.ftnValid = true) (h : s.operands.a0 ≠ 0) :
    ftnChoose s =
      (chooseFragments s.params s.operands.a0 s.ftnFragCount s.ftnChecksum).map s.withSelection := by
  simp only [ftnChoose, hv, h, Bool.not_true, Bool.false_eq_true, if_false]
  cases chooseFragments s.params s.operands.a0 s.ftnFragCount s.ftnChecksum <;> rfl

end

theorem map_eq_error_iff {α β : Type} {f : α → β} {x : Except ErrorCode α} {e : ErrorCode} :
    x.map f = .error e ↔ x = .error e := by
  cases x <;> simp [Except.map]

/-- Settles O16: the checks in their order, then the selection, which is stored. -/
theorem ftnChooseWritesTheSelection : Obligations.FtnChooseWritesTheSelection := by
  have hrow : (⟨0x32, 0x00000032, 0xFFFFFFFF, fun _ => .ftnChoose⟩ : Row) ∈ opcodeMap := by simp [opcodeMap]
  refine ⟨encodedAs_of_mem hrow, fun s inv =>
    ⟨fun hv => ?_, fun hv h0 => ?_, fun hv hseq => ?_, fun hv hseq hd => ?_⟩⟩
  · exact exec_of_effect_error (ftnChoose_of_not_valid hv) (by decide)
  · exact exec_of_effect_error (ftnChoose_of_zero hv h0) (by decide)
  · rw [exec_eq_errorState_iff (by decide), effect, ftnChoose_eq_map hv hseq, map_eq_error_iff,
      chooseFragments_error_iff (inv.one_le_fragCount hv)]
  · obtain ⟨sel, hsel⟩ := exists_chooseFragments_ok (inv.one_le_fragCount hv) hd
    have hexec := exec_of_effect_ok (i := .ftnChoose) ((ftnChoose_eq_map hv hseq).trans (congrArg _ hsel))
    exact ⟨sel, _, hsel, hexec,
      fun j hj => State.toNat_writeSel_sel (inv.selection_lt_word hv hsel hseq) inv.mem s.operands.a0 hj,
      s.sameOutside_writeSel rfl s.operands.a0, rfl⟩

/-! ### FTN_MIX (R208) -/

section
variable {s : State}

theorem ftnMix_of_not_valid (hv : s.ftnValid = false) : ftnMix s = .error .notConfigured := by
  simp only [ftnMix, hv, Bool.not_false, if_true]

theorem ftnMix_of_bad_index (hv : s.ftnValid = true)
    (h : ∃ i ∈ (List.range s.selCount.toNat).map fun k => (s.sel k).toNat, s.ftnFragCount.toNat ≤ i) :
    ftnMix s = .error .badIndex := by
  have hany : (s.selList s.selCount.toNat).any (fun i => s.ftnFragCount.toNat ≤ i.toNat) = true := by
    simpa [State.selList] using h
  simp only [ftnMix, hv, hany, Bool.not_true, Bool.false_eq_true, if_false, if_true]

theorem ftnMix_of_indices {sel : List Nat} (hv : s.ftnValid = true)
    (hsel : ((List.range s.selCount.toNat).map fun k => (s.sel k).toNat) = sel)
    (h : ∀ i ∈ sel, i < s.ftnFragCount.toNat) :
    ftnMix s = .ok { s.memWrite .outRam 0 (s.mix sel) with res0 := s.selCount, res1 := s.selSeq } := by
  have hany : ¬(s.selList s.selCount.toNat).any (fun i => s.ftnFragCount.toNat ≤ i.toNat) = true := by
    rw [← hsel] at h
    simpa [State.selList] using h
  simp only [ftnMix, hv, hany, Bool.not_true, Bool.false_eq_true, if_false, State.selList_map_toNat, hsel]

end

/-- Settles O17: the checks in their order, then the mix, which is stored. -/
theorem ftnMixXorsTheListedFragments : Obligations.FtnMixXorsTheListedFragments := by
  have hrow : (⟨0x33, 0x00000033, 0xFFFFFFFF, fun _ => .ftnMix⟩ : Row) ∈ opcodeMap := by simp [opcodeMap]
  refine ⟨encodedAs_of_mem hrow, fun s hwf => ⟨fun hv => ?_, fun hv hbad => ?_, fun hv hindices => ?_⟩⟩
  · exact exec_of_effect_error (ftnMix_of_not_valid hv) (by decide)
  · exact exec_of_effect_error (ftnMix_of_bad_index hv hbad) (by decide)
  · refine ⟨_, exec_of_effect_ok (i := .ftnMix) (ftnMix_of_indices hv rfl hindices),
      fun j hj => State.read_mix_stored hwf _ hj, fun a ha => ?_, rfl⟩
    exact Memory.read_writeBytes_outside _ _ (by rwa [State.mix_length])

/-! ### FTN_NEXT (R209) -/

/-- The selection of the next part, or the error that FTN_NEXT raises. -/
def State.nextSelection (s : State) : Except ErrorCode (List Nat) :=
  if s.ftnValid = false then .error .notConfigured
  else if s.ftnSeqNum = 0xFFFFFFFF then .error .seqOverflow
  else chooseFragments s.params (s.ftnSeqNum + 1) s.ftnFragCount s.ftnChecksum

/-- What FTN_NEXT writes when it selects `sel`. -/
def State.withPart (s : State) (sel : List Nat) : State :=
  { (s.writeSel sel (s.ftnSeqNum + 1)).memWrite .outRam 0 (s.mix sel) with
    ftnSeqNum := s.ftnSeqNum + 1, res0 := BitVec.ofNat 32 sel.length, res1 := s.ftnSeqNum + 1 }

theorem ftnNext_eq_map (s : State) : ftnNext s = s.nextSelection.map s.withPart := by
  rw [ftnNext, State.nextSelection]
  cases s.ftnValid with
  | false => rfl
  | true =>
    simp only [Bool.not_true, Bool.false_eq_true, Bool.true_eq_false, if_false]
    split
    · rfl
    · cases chooseFragments s.params (s.ftnSeqNum + 1) s.ftnFragCount s.ftnChecksum <;> rfl

section
variable {s : State}

theorem State.nextSelection_of_not_valid (hv : s.ftnValid = false) : s.nextSelection = .error .notConfigured := if_pos hv

theorem State.nextSelection_of_last (hv : s.ftnValid = true) (h : s.ftnSeqNum = 0xFFFFFFFF) :
    s.nextSelection = .error .seqOverflow := by
  rw [State.nextSelection, if_neg (by simp [hv]), if_pos h]

theorem State.nextSelection_of_valid (hv : s.ftnValid = true) (h : s.ftnSeqNum ≠ 0xFFFFFFFF) :
    s.nextSelection = chooseFragments s.params (s.ftnSeqNum + 1) s.ftnFragCount s.ftnChecksum := by
  rw [State.nextSelection, if_neg (by simp [hv]), if_neg h]

/-- Everything the selection of the next part can be. -/
theorem State.nextSelection_ok {sel : List Nat} (h : s.nextSelection = .ok sel) :
    s.ftnValid = true ∧ s.ftnSeqNum + 1 ≠ 0 ∧
      chooseFragments s.params (s.ftnSeqNum + 1) s.ftnFragCount s.ftnChecksum = .ok sel := by
  rw [State.nextSelection] at h
  split at h
  · cases h
  next hv =>
    split at h
    · cases h
    next hseq => exact ⟨by simpa using hv, by bv_omega, h⟩

theorem State.nextSelection_error {e : ErrorCode} (h : s.nextSelection = .error e) : e ≠ .ok := by
  rw [State.nextSelection] at h
  split at h
  · cases h
    decide
  · split at h
    · cases h
      decide
    · rw [chooseFragments_error h]
      decide

theorem exec_ftnNext_of_error {e : ErrorCode} (h : s.nextSelection = .error e) :
    exec .ftnNext s = .next (errorState s e) :=
  exec_of_effect_error ((ftnNext_eq_map s).trans (congrArg _ h)) (State.nextSelection_error h)

theorem exec_ftnNext_of_ok {sel : List Nat} (h : s.nextSelection = .ok sel) :
    exec .ftnNext s = .next (okState (s.withPart sel)) :=
  exec_of_effect_ok ((ftnNext_eq_map s).trans (congrArg _ h))

/-! What a part leaves in memory: its selection and its mix. -/

theorem State.withPart_eq (s : State) (sel : List Nat) :
    s.withPart sel = { s with
      mem := (s.withPart sel).mem
      selCount := BitVec.ofNat 32 sel.length
      selSeq := s.ftnSeqNum + 1
      ftnSeqNum := s.ftnSeqNum + 1
      res0 := BitVec.ofNat 32 sel.length
      res1 := s.ftnSeqNum + 1 } := by
  simp only [State.withPart, State.writeSel, State.memWrite]

theorem State.withPart_mem (s : State) (sel : List Nat) :
    (s.withPart sel).mem = (s.writeSel sel (s.ftnSeqNum + 1)).mem.writeBytes 0x30000 (s.mix sel) := rfl

variable {sel : List Nat}

/-- The mix is stored below SEL_RAM, so the selection stays. -/
theorem State.withPart_sel (h : s.mem.wf = true) (hlen : s.ftnFragLen.toNat ≤ 0x10000) {j : Nat} (hj : j < sel.length) :
    (s.withPart sel).sel j = BitVec.ofNat 32 sel[j] := by
  rw [← State.writeSel_sel h sel (s.ftnSeqNum + 1) hj]
  refine State.sel_congr (fun a ha => Memory.read_writeBytes_outside _ _ (.inr ?_)) j
  rw [State.mix_length, Ram.base]
  omega

theorem State.withPart_read_mix (h : s.mem.wf = true) {j : Nat} (hj : j < s.ftnFragLen.toNat) :
    (s.withPart sel).mem.read (0x30000 + j) = sel.foldl (fun b i => b ^^^ s.fragByte i j) 0 :=
  State.read_mix_stored (Memory.wf_writeBytes h _ _) sel hj

/-- A part is stored in its entries of SEL_RAM and its bytes of OUT_RAM alone. -/
theorem State.withPart_read_outside {a : Nat} (hsel : a < 0x40000 ∨ 0x40000 + 4 * sel.length ≤ a)
    (hout : a < 0x30000 ∨ 0x30000 + s.ftnFragLen.toNat ≤ a) : (s.withPart sel).mem.read a = s.mem.read a := by
  rw [State.withPart_mem, Memory.read_writeBytes_outside _ _ (by rwa [State.mix_length])]
  exact s.sameOutside_writeSel rfl _ a hsel

end

/-- Settles O15: the checks in their order, then the selection and its mix, which are stored. -/
theorem ftnNextProducesTheNextPart : Obligations.FtnNextProducesTheNextPart := by
  have hrow : (⟨0x31, 0x00000031, 0xFFFFFFFF, fun _ => .ftnNext⟩ : Row) ∈ opcodeMap := by simp [opcodeMap]
  refine ⟨encodedAs_of_mem hrow, fun s inv =>
    ⟨fun hv => ?_, fun hv hlast => ?_, fun hv hseq => ?_, fun hv hseq hd => ?_⟩⟩
  · exact exec_ftnNext_of_error (State.nextSelection_of_not_valid hv)
  · exact exec_ftnNext_of_error (State.nextSelection_of_last hv hlast)
  · rw [exec_eq_errorState_iff (by decide), effect, ftnNext_eq_map, map_eq_error_iff,
      State.nextSelection_of_valid hv hseq, chooseFragments_error_iff (inv.one_le_fragCount hv)]
  · obtain ⟨sel, hsel⟩ := exists_chooseFragments_ok (inv.one_le_fragCount hv) hd
    have hnext := (State.nextSelection_of_valid hv hseq).trans hsel
    obtain ⟨-, hseq0, -⟩ := State.nextSelection_ok hnext
    refine ⟨sel, _, hsel, exec_ftnNext_of_ok hnext, fun j hj => ?_, fun j hj => State.withPart_read_mix inv.mem hj,
      fun a => State.withPart_read_outside, congrArg okState (s.withPart_eq sel)⟩
    exact (congrArg BitVec.toNat (State.withPart_sel inv.mem (inv.fragLen_le_window hv) hj)).trans
      (toNat_ofNat_getElem (inv.selection_lt_word hv hsel hseq0) hj)

/-! ### One part in two ways (R206, R208, R209) -/

/-- FTN_MIX after a selection was stored and nothing else changed that it reads. -/
theorem ftnMix_of_writeSel {s u : State} (inv : s.Inv) (hv : s.ftnValid = true) {seq : Word} (hseq : seq ≠ 0)
    {sel : List Nat} (hsel : chooseFragments s.params seq s.ftnFragCount s.ftnChecksum = .ok sel)
    (hmem : u.mem = (s.writeSel sel seq).mem) (hconfig : u.configFields = s.configFields)
    (hcount : u.selCount = BitVec.ofNat 32 sel.length) :
    ftnMix u = .ok { u.memWrite .outRam 0 (s.mix sel) with res0 := u.selCount, res1 := u.selSeq } := by
  obtain ⟨hvalid, hmsg, hfrag, hfragCount, -⟩ := State.configFields_eq_iff.1 hconfig
  have hlisted : ((List.range u.selCount.toNat).map fun k => (u.sel k).toNat) = sel := by
    have hentry (k : Nat) : u.sel k = (s.writeSel sel seq).sel k := State.sel_congr (fun a _ => by rw [hmem]) k
    rw [hcount, BitVec.toNat_ofNat, Nat.mod_eq_of_lt (chooseFragments_length_lt hsel)]
    simp only [hentry]
    exact State.map_writeSel_sel (inv.selection_lt_word hv hsel hseq) inv.mem seq
  have hmix : u.mix sel = s.mix sel := State.mix_congr hfrag hmsg (fun i hi => by
    have := inv.msgLen_le_window hv
    rw [hmem]
    exact s.sameOutside_writeSel rfl seq _ (.inl (by omega))) sel
  rw [← hmix]
  exact ftnMix_of_indices (hvalid.trans hv) hlisted (hfragCount ▸ inv.selection_lt hv hsel hseq)

theorem State.withArgs_withSelection_mem (s : State) (a : Args) (sel : List Nat) :
    (okState ((s.withArgs a).withSelection sel)).mem = (s.writeSel sel a.a0).mem := by
  simp only [okState, State.withSelection, State.writeSel_mem]
  rfl

section
variable {s : State} (hv : s.ftnValid = true) {a : Args} (ha : a.a0 ≠ 0) {sel : List Nat}
  (hsel : chooseFragments s.params a.a0 s.ftnFragCount s.ftnChecksum = .ok sel)
include hv ha hsel

/-- FTN_CHOOSE at its acceptance stores the selection of its argument, and FTN_MIX after it the mix of that selection. -/
theorem exec_ftnChoose_then_ftnMix (inv : s.Inv) :
    ∃ u v, exec .ftnChoose (s.withArgs a) = .next u ∧ u.errCode = .ok ∧ exec .ftnMix u = .next v ∧ v.errCode = .ok ∧
      v.mem = (s.writeSel sel a.a0).mem.writeBytes 0x30000 (s.mix sel) ∧ v.selCount = BitVec.ofNat 32 sel.length ∧
      v.selSeq = a.a0 ∧ v.res0 = BitVec.ofNat 32 sel.length ∧ v.res1 = a.a0 := by
  have hchoose := exec_of_effect_ok (i := .ftnChoose)
    ((ftnChoose_eq_map (s := s.withArgs a) hv ha).trans (congrArg _ hsel))
  have hmem := s.withArgs_withSelection_mem a sel
  have hmix := exec_of_effect_ok (i := .ftnMix) (ftnMix_of_writeSel inv hv ha hsel hmem rfl rfl)
  exact ⟨_, _, hchoose, rfl, hmix, rfl, congrArg (·.writeBytes 0x30000 (s.mix sel)) hmem, rfl, rfl, rfl, rfl⟩

end

/-- Settles O36: the selection that FTN_CHOOSE stores reads back, and its mix is that of the state before. -/
theorem nextPartIsChooseThenMix : Obligations.NextPartIsChooseThenMix := by
  intro s t inv hexec hcode
  cases hnext : s.nextSelection with
  | error e =>
    rw [exec_ftnNext_of_error hnext] at hexec
    cases hexec
    exact absurd hcode (State.nextSelection_error hnext)
  | ok sel =>
    rw [exec_ftnNext_of_ok hnext] at hexec
    cases hexec
    obtain ⟨hv, hseq, hsel⟩ := State.nextSelection_ok hnext
    exact exec_ftnChoose_then_ftnMix (a := ⟨s.ftnSeqNum + 1, s.args.a1, s.args.a2, s.args.a3⟩) hv hseq hsel inv

/-- Settles O37: the selection is a function of the configuration, and the mix of the configuration and the message. -/
theorem partsDependOnTheConfigurationAlone : Obligations.PartsDependOnTheConfigurationAlone := by
  intro s s' t t' inv inv' hparams hvalid hmsgLen hfragLen hcount hsum hseq hmsg hexec hexec'
  have hsame : s'.nextSelection = s.nextSelection := by
    simp only [State.nextSelection, hparams, hvalid, hcount, hsum, hseq]
  cases hnext : s.nextSelection with
  | error e =>
    rw [exec_ftnNext_of_error hnext] at hexec
    rw [exec_ftnNext_of_error (hsame.trans hnext)] at hexec'
    cases hexec
    cases hexec'
    exact ⟨rfl, fun hcode => absurd hcode (State.nextSelection_error hnext)⟩
  | ok sel =>
    rw [exec_ftnNext_of_ok hnext] at hexec
    rw [exec_ftnNext_of_ok (hsame.trans hnext)] at hexec'
    cases hexec
    cases hexec'
    obtain ⟨hv, -, hsel⟩ := State.nextSelection_ok hnext
    have hseq' : s.ftnSeqNum + 1 = s'.ftnSeqNum + 1 := congrArg (· + 1) hseq
    have hbyte := State.fragByte_congr hfragLen.symm hmsgLen.symm fun i hi => (hmsg i hi).symm
    refine ⟨rfl, fun _ => ⟨rfl, hseq', rfl, hseq', hseq', fun j hj => ?_, fun j hj => ?_⟩⟩
    · have hj' : j < sel.length := lt_of_lt_of_le hj ((BitVec.toNat_ofNat _ _).trans_le (Nat.mod_le _ _))
      exact (State.withPart_sel inv.mem (inv.fragLen_le_window hv) hj').trans
        (State.withPart_sel inv'.mem (inv'.fragLen_le_window (hvalid ▸ hv)) hj').symm
    · refine (State.withPart_read_mix inv.mem hj).trans
        (Eq.trans ?_ (State.withPart_read_mix inv'.mem (hfragLen ▸ hj)).symm)
      simp only [hbyte]

end Sys2Proof.Machine
end

section
/-! SUPPORT and proof of O45. What keeps CTRL.IE, and the interrupt line after a completion. -/

namespace Sys2Proof.Machine

/-! ### CTRL.IE is written by a CTRL write alone -/

theorem State.unlessBusy_ie {s u : State} (h : u.ie = s.ie) : (s.unlessBusy u).ie = s.ie := by
  cases hb : s.busy with
  | true => rw [State.unlessBusy_busy u hb]
  | false => rwa [State.unlessBusy_idle u hb]

/-- No register write but one to CTRL changes IE (10_state.md R24). -/
theorem State.writeReg_ie (s : State) (v : Word) {r : Reg} (h : r ≠ .ctrl) : (s.writeReg v r).ie = s.ie := by
  cases r with
  | ctrl => exact absurd rfl h
  | cmd =>
    simp only [State.writeReg]
    cases hb : s.busy with
    | true => rw [State.writeCmd_busy v hb]
    | false => rw [State.writeCmd_idle v hb, State.accept_ie]
  | arg0 | arg1 | arg2 | arg3 | prngS0Lo | prngS0Hi | prngS1Lo | prngS1Hi | prngS2Lo | prngS2Hi | prngS3Lo | prngS3Hi =>
    exact State.unlessBusy_ie rfl
  | _ => rfl

/-- A RAM write spares the registers, stored, dropped or ignored (20_memory.md R78, R79). -/
theorem State.writeRam_ie (s : State) (r : Ram) (o : Nat) (bs : List Byte) : (s.writeRam r o bs).ie = s.ie := by
  have store : (s.unlessBusy (s.memWrite r o bs)).ie = s.ie := State.unlessBusy_ie (s.memWrite_ie r o bs)
  cases r with
  | msgRam =>
    simp only [State.writeRam]
    split
    · rfl
    · exact store
  | seedRam | selRam | wgtRam => exact store
  | outRam | probRam | aliasRam => rfl

/-- No host access but a CTRL write changes IE (10_state.md R24, 20_memory.md R74, R82). -/
theorem State.hostAccess_ie (s : State) {a : Access} (h : ∀ size v, a ≠ .write size 0x00008 v) :
    (s.hostAccess a).ie = s.ie := by
  cases a with
  | read size addr => rcases s.hostAccess_read_cases size addr with ⟨r, e⟩ | ⟨-, r, e⟩ <;> rw [e]
  | write size addr v =>
    cases ht : busTarget s.params size addr with
    | error e => rw [(State.hostAccess_error ht).2 v]
    | ok t =>
      rw [State.hostAccess_write v ht]
      cases t with
      | reg r =>
        refine s.writeReg_ie v fun hctrl => ?_
        subst hctrl
        obtain ⟨-, rfl⟩ := busTarget_ctrl ht
        exact h size v rfl
      | ram r o => exact s.writeRam_ie r o _

/-- Nor does the host's part of a cycle, whatever stands at the head of its list but a CTRL write. -/
theorem State.served_ie {s : State}
    (h : ∀ (size : Size) (v : Word), s.host.head? ≠ some (some (.write size 0x00008 v))) : s.served.ie = s.ie := by
  rw [← State.hostPhase_eq_served]
  cases hh : s.host with
  | nil => rw [State.hostPhase_nil hh]
  | cons x rest =>
    cases x with
    | none => rw [State.hostPhase_none hh]
    | some a =>
      rw [State.hostPhase_some hh]
      refine State.hostAccess_ie { s with host := rest } fun size v ha => h size v ?_
      rw [hh, ha, List.head?_cons]

/-! ### The interrupt line -/

/-- The level of 60_exceptions.md R244. -/
theorem State.irq_iff (s : State) : s.irq = true ↔ s.done = true ∧ s.ie = true := by
  rw [State.irq, Bool.and_eq_true, and_comm]

/-- With DONE set the line follows IE. -/
theorem State.irq_of_done {s : State} (h : s.done = true) : s.irq = s.ie := by rw [State.irq, h, Bool.and_true]

/-- With DONE clear it is low. -/
theorem State.irq_of_not_done {s : State} (h : s.done = false) : s.irq = false := by rw [State.irq, h, Bool.and_false]

/-- A 1 in bit 1 of a STATUS write clears DONE (10_state.md R25). -/
theorem State.writeStatus_done_of_set {v : Word} (h : v.getLsbD 1 = true) (s : State) : (s.writeStatus v).done = false := by
  simp only [State.writeStatus, h, Bool.not_true, Bool.and_false]

/-- Settles O45: the host's access and the command both keep IE, and the completion sets DONE beside it. -/
theorem completionRaisesTheInterrupt : Obligations.CompletionRaisesTheInterrupt := by
  refine ⟨fun s p hp hc hhost => ?_, fun s v hv => ?_, State.irq_iff⟩
  · have hreset : ¬resetNow s := fun ⟨v, rest, hh, _⟩ => hhost .word v (by rw [hh, List.head?_cons])
    obtain ⟨t, ht, hdone, hidle, -, hfields⟩ := runWord_completes p.word s.served
    obtain ⟨-, hie, -⟩ := State.hostFields_eq_iff.1 hfields
    refine ⟨t, (step_eq_runWord_served hp hc hreset).trans ht, hidle, ?_⟩
    calc t.irq = t.ie := State.irq_of_done hdone
      _ = s.served.ie := hie
      _ = s.ie := State.served_ie hhost
  · rw [s.hostAccess_write_status]
    exact State.irq_of_not_done (State.writeStatus_done_of_set hv s)

end Sys2Proof.Machine
end

section
/-! SUPPORT and proofs of O43, O46. The host's list along a cycle, and the run of a pending command to its completion. -/

namespace Sys2Proof.Machine

/-! ### The host's list -/

theorem State.unlessBusy_host {s u : State} (h : u.host = s.host) : (s.unlessBusy u).host = s.host := by
  cases hb : s.busy with
  | true => rw [State.unlessBusy_busy u hb]
  | false => rwa [State.unlessBusy_idle u hb]

/-- A register write spares the accesses to come, a soft reset included (log 17). -/
theorem State.writeReg_host (s : State) (v : Word) (r : Reg) : (s.writeReg v r).host = s.host := by
  cases r with
  | ctrl =>
    simp only [State.writeReg, State.writeCtrl]
    split <;> rfl
  | cmd =>
    simp only [State.writeReg]
    cases hb : s.busy with
    | true => rw [State.writeCmd_busy v hb]
    | false => rw [State.writeCmd_idle v hb, State.accept_host]
  | arg0 | arg1 | arg2 | arg3 | prngS0Lo | prngS0Hi | prngS1Lo | prngS1Hi | prngS2Lo | prngS2Hi | prngS3Lo | prngS3Hi =>
    exact State.unlessBusy_host rfl
  | _ => rfl

/-- So does a RAM write, stored, dropped or ignored. -/
theorem State.writeRam_host (s : State) (r : Ram) (o : Nat) (bs : List Byte) : (s.writeRam r o bs).host = s.host := by
  have store : (s.unlessBusy (s.memWrite r o bs)).host = s.host := State.unlessBusy_host (s.memWrite_host r o bs)
  cases r with
  | msgRam =>
    simp only [State.writeRam]
    split
    · rfl
    · exact store
  | seedRam | selRam | wgtRam => exact store
  | outRam | probRam | aliasRam => rfl

/-- Serving an access does not touch the accesses to come (log 6). -/
theorem State.hostAccess_host (s : State) (a : Access) : (s.hostAccess a).host = s.host := by
  cases a with
  | read size addr => rcases s.hostAccess_read_cases size addr with ⟨r, e⟩ | ⟨-, r, e⟩ <;> rw [e]
  | write size addr v =>
    cases ht : busTarget s.params size addr with
    | error e => rw [(State.hostAccess_error ht).2 v]
    | ok t =>
      rw [State.hostAccess_write v ht]
      cases t with
      | reg r => exact s.writeReg_host v r
      | ram r o => exact s.writeRam_host r o _

/-- The host's part of a cycle takes one place of its list (20_memory.md R83, log 6). -/
theorem State.served_host (s : State) : s.served.host = s.host.tail := by
  unfold State.served
  split
  · rename_i a rest hh
    rw [hh]
    exact State.hostAccess_host { s with host := rest } a
  · rfl

/-- No access to come is a CTRL write that sets SRST (10_state.md R24). -/
def State.NoSrst (s : State) : Prop :=
  ∀ (size : Size) (v : Word), some (Access.write size 0x00008 v) ∈ s.host → v.getLsbD 1 = false

/-- Such a host starts no soft reset in this cycle. -/
theorem State.NoSrst.not_resetNow {s : State} (h : s.NoSrst) : ¬resetNow s := by
  rintro ⟨v, rest, hh, hsrst⟩
  have hclear := h .word v (by rw [hh]; exact List.mem_cons_self)
  exact Bool.false_ne_true (hclear.symm.trans hsrst)

/-- Nor in a later one. -/
theorem State.NoSrst.served {s : State} (h : s.NoSrst) : s.served.NoSrst := fun size v hmem =>
  h size v (List.mem_of_mem_tail (s.served_host ▸ hmem))

/-! ### A cycle in which no command ends -/

/-- An idle cycle is the host's access alone. -/
theorem step_of_idle {s : State} (h : s.busy = false) : step s = .next s.served := by
  rw [step, cycle, h, if_neg Bool.false_ne_true, State.hostPhase_eq_served]

/-- A busy cycle is the host's access and then the sequencer's part. -/
theorem step_of_busy {s : State} (h : s.busy = true) : step s = sequencerPhase s.served := by
  rw [step, cycle, h, if_pos rfl, State.hostPhase_eq_served]

theorem sequencerPhase_of_none {s : State} (h : s.pending = none) : sequencerPhase s = .next s := by
  simp only [sequencerPhase, h]

/-- A command with more than one cycle left waits one of them (70_reset_and_hazards.md R281). -/
theorem step_of_waiting {s : State} {p : Pending} (hp : s.pending = some p) (hc : 1 < p.cyclesLeft) (h : ¬resetNow s) :
    step s = .next { s.served with pending := some { p with cyclesLeft := p.cyclesLeft - 1 } } := by
  have hbusy : s.busy = true := by rw [State.busy, hp]; rfl
  have hkeep : s.served.pending = some p := (State.served_pending hbusy h).trans hp
  rw [step_of_busy hbusy, sequencerPhase, hkeep]
  exact if_neg (Nat.not_le.2 hc)

/-- The cycle of a soft reset leaves nothing pending (70_reset_and_hazards.md R271). -/
theorem served_pending_of_resetNow {s : State} (h : resetNow s) : s.served.pending = none := by
  obtain ⟨v, rest, hh, hsrst⟩ := h
  rw [State.served, hh]
  simp only [State.hostAccess_write_ctrl, State.writeCtrl, hsrst, if_true, State.softReset_pending]

/-- Settles O43: an idle cycle, a waiting one, and one whose soft reset leaves the sequencer nothing to do. -/
theorem stepWaitsOutTheLatency : Obligations.StepWaitsOutTheLatency := by
  intro s
  refine ⟨fun hidle => step_of_idle (by rw [State.busy, hidle]; rfl), fun p hp hc h => step_of_waiting hp hc h,
    fun hreset => ?_⟩
  have hnone := served_pending_of_resetNow hreset
  refine ⟨?_, hnone⟩
  cases hb : s.busy with
  | false => exact step_of_idle hb
  | true => rw [step_of_busy hb, sequencerPhase_of_none hnone]

/-! ### The run of a pending command -/

theorem run_zero (s : State) : Host.Core.run core 0 s = .next s := rfl

/-- A run goes on from the state that its first step answers. -/
theorem run_succ {s t : State} (h : step s = .next t) (k : Nat) :
    Host.Core.run core (k + 1) s = Host.Core.run core k t := by
  have hcore : core.step s = .next t := h
  simp only [Host.Core.run, hcore]

/-- A command with `k + 1` cycles left completes after as many steps, by induction over the cycles that it waits. -/
theorem run_completes {k : Nat} {s : State} {p : Pending} (hp : s.pending = some p) (hc : p.cyclesLeft = k + 1)
    (hhost : s.NoSrst) : ∃ t : State, Host.Core.run core (k + 1) s = .next t ∧ t.busy = false ∧ t.done = true := by
  induction k generalizing s p with
  | zero =>
    obtain ⟨t, ht, hdone, hidle, -⟩ := runWord_completes p.word s.served
    have hstep : step s = .next t := (step_eq_runWord_served hp hc.le hhost.not_resetNow).trans ht
    exact ⟨t, by rw [run_succ hstep, run_zero], hidle, hdone⟩
  | succ k ih =>
    rw [run_succ (step_of_waiting hp (by omega) hhost.not_resetNow)]
    exact ih rfl (by simp only; omega) hhost.served

/-- Settles O46: at least one cycle is left, so the count is a successor. -/
theorem everyPendingCommandCompletes : Obligations.EveryPendingCommandCompletes := by
  intro s p hp hc hhost
  obtain ⟨k, hk⟩ := Nat.exists_eq_add_of_le' hc
  rw [hk]
  exact run_completes hp hk hhost

end Sys2Proof.Machine
end

section
/-! SUPPORT and proof of O53. The writes that a busy block drops and those that every block ignores. -/

namespace Sys2Proof.Machine

/-- A busy block drops a write to an ARG register or a lane (70_reset_and_hazards.md R275). -/
theorem State.writeReg_dropped {s : State} (hb : s.busy = true) (v : Word) {r : Reg} (h : r ∈ droppedWhileBusy) :
    s.writeReg v r = { s with wDrop := true } := by
  cases r with
  | arg0 | arg1 | arg2 | arg3 | prngS0Lo | prngS0Hi | prngS1Lo | prngS1Hi | prngS2Lo | prngS2Hi | prngS3Lo | prngS3Hi =>
    exact State.unlessBusy_busy _ hb
  | _ => exact absurd h (by decide)

/-- A busy block drops a write to a RAM that the host writes: MSG_RAM, locked or not, SEED_RAM, SEL_RAM and WGT_RAM (R275,
20_memory.md R79). -/
theorem State.writeRam_dropped {s : State} (hb : s.busy = true) {r : Ram} (h : r ∈ [Ram.msgRam, .seedRam, .selRam, .wgtRam])
    (o : Nat) (bs : List Byte) : s.writeRam r o bs = { s with wDrop := true } := by
  cases r with
  | msgRam =>
    simp only [State.writeRam]
    split
    · rfl
    · exact State.unlessBusy_busy _ hb
  | seedRam | selRam | wgtRam => exact State.unlessBusy_busy _ hb
  | _ => exact absurd h (by decide)

/-- A write to a read-only register is ignored (10_state.md R24). -/
theorem State.writeReg_readOnly {r : Reg} (h : r ∈ readOnlyRegs) (s : State) (v : Word) : s.writeReg v r = s := by
  cases r with
  | ctrl | status | cmd | arg0 | arg1 | arg2 | arg3 | prngS0Lo | prngS0Hi | prngS1Lo | prngS1Hi | prngS2Lo | prngS2Hi
  | prngS3Lo | prngS3Hi => exact absurd h (by decide)
  | _ => rfl

/-- A legal register write, in terms of what the register does with its data. -/
theorem State.hostAccess_write_register {s : State} {size : Size} {addr : BusAddr} {r : Reg} (v : Word)
    (h : busTarget s.params size addr = .ok (.reg r)) :
    s.hostAccess (.write size addr v) = { s.writeReg v r with resp := some .ack } :=
  State.hostAccess_write v h

/-- Settles O53: dropped or ignored, at a register or at a RAM. -/
theorem writesWhileBusyAreDropped : Obligations.WritesWhileBusyAreDropped := by
  intro s size addr v t ht
  constructor
  · rintro hb (⟨r, hr, rfl⟩ | ⟨r, hr, o, rfl⟩)
    · rw [State.hostAccess_write_register v ht, State.writeReg_dropped hb v hr]
    · rw [State.hostAccess_write_ram v ht, State.writeRam_dropped hb hr]
  · rintro (⟨r, hr, rfl⟩ | ⟨r, hr, o, rfl⟩)
    · rw [State.hostAccess_write_register v ht, State.writeReg_readOnly hr]
    · rw [State.hostAccess_write_ram v ht, State.writeRam_readOnly hr]

end Sys2Proof.Machine
end

section
/-! SUPPORT and proofs of O50, O59, O60. The state after power-on, and what a soft reset leaves in memory. -/

namespace Sys2Proof.Machine

/-! ### Power-on -/

/-- Legal parameters and a canonical RAM_INIT are all that the invariant asks of a power-on: nothing is held. -/
theorem State.powerOn_inv {p : Params} {m : Memory} (hp : p.wellFormed = true) (hm : m.wf = true) :
    (State.powerOn p m).Inv where
  params := hp
  mem := hm
  latch := State.latchOk_of_idle rfl
  sel := Nat.zero_le _
  sampler := fun h => absurd h Bool.false_ne_true
  fountain := fun h => absurd h Bool.false_ne_true

/-- Settles O50: State.reset is the power-on of the reference parameters with an empty image. -/
theorem powerOnMeetsTheInvariant : Obligations.PowerOnMeetsTheInvariant :=
  ⟨fun _ _ => State.powerOn_inv, State.powerOn_inv (by decide) rfl⟩

/-- PRNG_DBL of a PRNG_OUT of 0 is +0 (42_prng.md R152). -/
theorem u2d_zero : u2d 0#64 = 0 := by
  have hraw : rne53 (0#64).toNat = 0 := by decide
  rw [u2d_eq_fl, hraw, Nat.zero_mul, fl_zero false u2d_den_pos]
  rfl

/-- STATUS is 0 after power-on: idle, no flag set and no error (70_reset_and_hazards.md R270). -/
theorem State.powerOn_statusWord (p : Params) (m : Memory) : (State.powerOn p m).statusWord = 0 := by
  simp [State.statusWord, State.ftnComplete, State.busy, flagBit, ErrorCode.toByte]

/-- The values of the registers after power-on are those of the reset table (70_reset_and_hazards.md R270). -/
theorem registerValues_powerOn (p : Params) (m : Memory) : registerValues (State.powerOn p m) = resetReads := by
  simp [registerValues, resetReads, State.powerOn_statusWord, u2d_zero]

/-- Settles O59: the block is idle after power-on, so a read of a register answers its value. -/
theorem powerOnRegisterValues : Obligations.PowerOnRegisterValues := by
  intro p m
  refine ⟨fun x hx => ?_, rfl, rfl, rfl, rfl⟩
  rw [← registerValues_powerOn p m] at hx
  rw [(readsChangeOnlyTheResponse (State.powerOn p m)).1 x hx (.inl rfl)]

/-! ### Soft reset -/

/-- SRST starts a soft reset, whatever the other bits of the write (10_state.md R24, 70_reset_and_hazards.md R271). -/
theorem State.hostAccess_write_srst (s : State) {v : Word} (h : v.getLsbD 1 = true) :
    s.hostAccess (.write .word 0x00008 v) = { s.softReset with resp := some .ack } := by
  rw [s.hostAccess_write_ctrl, State.writeCtrl, if_pos h]

/-- An abort leaves every byte outside its RAMs (R272). -/
theorem Memory.read_abortRams_outside (p : Params) (n : Nat) {rams : List Ram} {a : Nat}
    (h : ∀ r ∈ rams, a < r.base ∨ r.base + r.size p ≤ a) (m : Memory) : (m.abortRams p n rams).read a = m.read a := by
  induction rams generalizing m with
  | nil => rfl
  | cons r rams ih =>
    obtain ⟨hr, hrams⟩ := List.forall_mem_cons.1 h
    exact (ih hrams _).trans (Memory.read_writeBytes_outside _ _ (by simpa using hr))

theorem State.resetMem_of_idle {s : State} (h : s.pending = none) : s.resetMem = s.mem := by
  simp only [State.resetMem, h]

theorem State.resetMem_of_decode_ok {s : State} {p : Pending} {i : Instr} (hp : s.pending = some p)
    (hi : decode p.word = .ok i) : s.resetMem = s.mem.abortRams s.params s.draws (writtenRams i) := by
  simp only [State.resetMem, hp, hi]

theorem State.resetMem_of_decode_error {s : State} {p : Pending} {e : DecodeError} (hp : s.pending = some p)
    (he : decode p.word = .error e) : s.resetMem = s.mem := by
  simp only [State.resetMem, hp, he]

/-- A soft reset that aborts a command leaves every byte outside the RAMs that it would have written (R272). -/
theorem State.read_resetMem_outside {s : State} {p : Pending} (hp : s.pending = some p) {i : Instr}
    (hw : p.word = encode i) {a : Nat} (h : ∀ r ∈ writtenRams i, a < r.base ∨ r.base + r.size s.params ≤ a) :
    s.resetMem.read a = s.mem.read a := by
  rw [State.resetMem_of_decode_ok hp (hw ▸ decode_encode i)]
  exact Memory.read_abortRams_outside _ _ h _

/-- The commands that write a RAM are those of these words: FTN_MIX, FTN_NEXT, FTN_CHOOSE, PRNG_SHUFFLE and SMP_BUILD in both
modes (R272, 30_encoding.md R93). -/
theorem writtenRams_eq_nil {i : Instr} (h : encode i ∉ [0x33, 0x31, 0x32, 0x16, 0x20, 0x120]) : writtenRams i = [] := by
  cases i with
  | ftnMix | ftnNext | ftnChoose | prngShuffle => exact absurd (by decide) h
  | smpBuild m => rcases BitVec.eq_zero_or_eq_one m with rfl | rfl <;> exact absurd (by decide) h
  | _ => rfl

/-- A soft reset that aborts any other word leaves memory alone. -/
theorem State.resetMem_of_word_notMem {s : State} {p : Pending} (hp : s.pending = some p)
    (h : p.word ∉ [0x33, 0x31, 0x32, 0x16, 0x20, 0x120]) : s.resetMem = s.mem := by
  cases hd : decode p.word with
  | error e => exact State.resetMem_of_decode_error hp hd
  | ok i =>
    rw [← encodeOfDecode p.word i hd] at h
    rw [State.resetMem_of_decode_ok hp hd, writtenRams_eq_nil h]
    rfl

/-- Settles O60: the write is a soft reset, whose memory goes by the pending word. -/
theorem softResetKeepsTheRams : Obligations.SoftResetKeepsTheRams := by
  intro s v hv
  rw [s.hostAccess_write_srst hv]
  refine ⟨rfl, State.resetMem_of_idle, fun p hp =>
    ⟨fun hw a hout => ?_, fun hw a hsel hout => ?_, fun hw a hsel => ?_, fun hw a hprob halias => ?_,
      State.resetMem_of_word_notMem hp⟩⟩
  · exact State.read_resetMem_outside hp (i := .ftnMix) hw (by simpa [writtenRams] using hout)
  · exact State.read_resetMem_outside hp (i := .ftnNext) hw (by simpa [writtenRams] using ⟨hsel, hout⟩)
  · rcases hw with hw | hw
    · exact State.read_resetMem_outside hp (i := .ftnChoose) hw (by simpa [writtenRams] using hsel)
    · exact State.read_resetMem_outside hp (i := .prngShuffle) hw (by simpa [writtenRams] using hsel)
  · rcases hw with hw | hw
    · exact State.read_resetMem_outside hp (i := .smpBuild 0) hw (by simpa [writtenRams] using ⟨hprob, halias⟩)
    · exact State.read_resetMem_outside hp (i := .smpBuild 1) hw (by simpa [writtenRams] using ⟨hprob, halias⟩)

end Sys2Proof.Machine
end
